-- ==== Sys2Proof/Word.lean ====
section
/-! DEFINITION. The plain types of HUFTB: words and symbols (spec/00_scope.md R7 to R9). -/

namespace Sys2Proof

/-- A 32-bit bus word, register or payload word (R5 WORD_BITS, R7). -/
abbrev Word := BitVec 32

/-- A symbol, 8 bits (R5 SYM_BITS). Node indices are plain numbers (log 9). -/
abbrev Sym := BitVec 8

/-- A number as the 32-bit word that carries it. Every use writes a value the rules keep below 2^32 (R9). -/
def toWord (n : Nat) : Word := BitVec.ofNat 32 n

theorem toWord_toNat (n : Nat) : (toWord n).toNat = n % 2 ^ 32 := BitVec.toNat_ofNat ..

theorem toWord_toNat_of_lt {n : Nat} (h : n < 2 ^ 32) : (toWord n).toNat = n := by
  rw [toWord_toNat, Nat.mod_eq_of_lt h]

end Sys2Proof
end

