-- ==== Sys2Proof/Syntax.lean ====
section
/-! DEFINITION. The command set of HUFTB as syntax, one constructor per row of spec/opcode_table.json (R85). -/

namespace Sys2Proof

/-- A command with its immediate. Operands read from ARG0 to ARG2 are not part of the command word (R84). -/
inductive Instr where
  /-- 0x00 NOP, format F0 (R170). -/
  | nop
  /-- 0x01 CLR, format F0 (R171). -/
  | clr
  /-- 0x02 FRQCLR, format F0 (R172). -/
  | frqclr
  /-- 0x03 MKLEAF, format FS: the symbol CMD[15:8] (R123). -/
  | mkleaf (sym : Sym)
  /-- 0x04 HINS, format FN: the node index CMD[16:8] (R105). -/
  | hins (idx : Nat)
  /-- 0x05 HPOP, format F0 (R106). -/
  | hpop
  /-- 0x06 MERGE, format F0 (R124). -/
  | merge
  /-- 0x07 SETROOT, format FN: the node index CMD[16:8] (R125). -/
  | setroot (idx : Nat)
  /-- 0x08 BUILD, format F0 (R126). -/
  | build
  /-- 0x09 GENCODE, format F0 (R140). -/
  | gencode
  /-- 0x0A ENCODE, format F0 (R152). -/
  | encode
  /-- 0x0B DECODE, format F0 (R155). -/
  | decode
  deriving DecidableEq, Repr

end Sys2Proof
end

