-- ==== Sys2Proof/WellFormed.lean ====
section
/-! DEFINITION. Which commands have an encoding: the immediate fits its field (spec/30_encoding.md R82, R83). -/

namespace Sys2Proof

/-- The immediate IDX of format FN has 9 bits, node index 0..511 (R83). A symbol is 8 bits by its type (R82). -/
def Instr.wellFormed : Instr → Bool
  | .nop => true
  | .clr => true
  | .frqclr => true
  | .mkleaf _ => true
  | .hins i => i < 512
  | .hpop => true
  | .merge => true
  | .setroot i => i < 512
  | .build => true
  | .gencode => true
  | .encode => true
  | .decode => true

/-- `wellFormed` as a proposition. -/
abbrev Instr.WellFormed (i : Instr) : Prop := i.wellFormed = true

end Sys2Proof
end

