-- ==== Sys2Proof/Decode.lean ====
section
/-! DEFINITION. The command decoder and encoder (spec/30_encoding.md R80 to R88). -/

namespace Sys2Proof

/-- Field OP, CMD[7:0] (R80). -/
def opField (c : Word) : BitVec 8 := c.extractLsb' 0 8

/-- Field SYM of format FS, CMD[15:8] (R82). -/
def symField (c : Word) : Sym := c.extractLsb' 8 8

/-- Field IDX of format FN, CMD[16:8], unsigned (R83, R84). -/
def idxField (c : Word) : Nat := (c.extractLsb' 8 9).toNat

/-- CMD[31:8], which format F0 needs 0 (R81). -/
def rsvF0 (c : Word) : BitVec 24 := c.extractLsb' 8 24

/-- CMD[31:16], which format FS needs 0 (R82). -/
def rsvFS (c : Word) : BitVec 16 := c.extractLsb' 16 16

/-- CMD[31:17], which format FN needs 0 (R83). -/
def rsvFN (c : Word) : BitVec 15 := c.extractLsb' 17 15

/-- Why a command word is illegal: the two cases (a) and (b) of R86. -/
inductive Reject where
  /-- OP is one of 0x0C..0xFF (R86 (a)). -/
  | reservedOpcode
  /-- OP is listed but a must-be-zero bit of its format is 1 (R86 (b)). -/
  | mustBeZero
  deriving DecidableEq, Repr

/-- Format F0: no immediate (R81). -/
def decodeF0 (c : Word) (i : Instr) : Except Reject Instr :=
  if rsvF0 c = 0 then .ok i else .error .mustBeZero

/-- Format FS: a symbol immediate (R82). -/
def decodeFS (c : Word) (i : Sym → Instr) : Except Reject Instr :=
  if rsvFS c = 0 then .ok (i (symField c)) else .error .mustBeZero

/-- Format FN: a node-index immediate (R83). -/
def decodeFN (c : Word) (i : Nat → Instr) : Except Reject Instr :=
  if rsvFN c = 0 then .ok (i (idxField c)) else .error .mustBeZero

/-- The decoding procedure of R87, total on every 32-bit word. -/
def decode (c : Word) : Except Reject Instr :=
  match (opField c).toNat with
  | 0x00 => decodeF0 c .nop
  | 0x01 => decodeF0 c .clr
  | 0x02 => decodeF0 c .frqclr
  | 0x03 => decodeFS c .mkleaf
  | 0x04 => decodeFN c .hins
  | 0x05 => decodeF0 c .hpop
  | 0x06 => decodeF0 c .merge
  | 0x07 => decodeFN c .setroot
  | 0x08 => decodeF0 c .build
  | 0x09 => decodeF0 c .gencode
  | 0x0A => decodeF0 c .encode
  | 0x0B => decodeF0 c .decode
  | _ => .error .reservedOpcode

/-- Format F0 as a word: `{24'b0, op[7:0]}` (R81). -/
def encodeF0 (op : BitVec 8) : Word := 0#24 ++ op

/-- Format FS as a word: `{16'b0, s[7:0], op[7:0]}` (R82). -/
def encodeFS (op : BitVec 8) (s : Sym) : Word := 0#16 ++ s ++ op

/-- Format FN as a word: `{15'b0, i[8:0], op[7:0]}` (R83). -/
def encodeFN (op : BitVec 8) (i : Nat) : Word := 0#15 ++ BitVec.ofNat 9 i ++ op

/-- The command word of a command (R81 to R83, R85). -/
def encode : Instr → Word
  | .nop => encodeF0 0x00#8
  | .clr => encodeF0 0x01#8
  | .frqclr => encodeF0 0x02#8
  | .mkleaf s => encodeFS 0x03#8 s
  | .hins i => encodeFN 0x04#8 i
  | .hpop => encodeF0 0x05#8
  | .merge => encodeF0 0x06#8
  | .setroot i => encodeFN 0x07#8 i
  | .build => encodeF0 0x08#8
  | .gencode => encodeF0 0x09#8
  | .encode => encodeF0 0x0A#8
  | .decode => encodeF0 0x0B#8

/-- The instruction the decoder reads from a table row's bits: one 32-bit word, bits at and above `nbits` zero (R80, R88). -/
def decodeTableWord (nbits w : Nat) : Option Instr :=
  if nbits ≤ 32 then (decode (BitVec.ofNat 32 (w % 2 ^ nbits))).toOption else none

end Sys2Proof
end

