-- ==== Sys2Proof/Config.lean ====
section
/-! DEFINITION. Constants of HUFTB (spec/00_scope.md R1, R5) and the values the spec leaves open. -/

namespace Sys2Proof.Config

/-- The constant of register ID, "HUF1" (R1). -/
def idValue : Word := 0x48554631#32

/-- N_SYM (R5). -/
def nSym : Nat := 256

/-- NODE_CAP (R5). -/
def nodeCap : Nat := 511

/-- HEAP_CAP (R5). -/
def heapCap : Nat := 511

/-- MAX_CODE_LEN (R5, R143). -/
def maxCodeLen : Nat := 255

/-- WORD_BITS (R5). -/
def wordBits : Nat := 32

/-- The largest weight or frequency, 2^32 − 1 (R5 W_FREQ). -/
def maxWeight : Nat := 2 ^ 32 - 1

/-- Default of the parameter SYM_MEM_SIZE (R5); the model carries the size in use in SYMCAP (log 1). -/
def symMemDefault : Word := 65536#32

/-- Default of the parameter WORD_MEM_SIZE (R5); the model carries the size in use in WORDCAP (log 1). -/
def wordMemDefault : Word := 65536#32

@[simp] theorem nSym_eq : nSym = 256 := rfl
@[simp] theorem nodeCap_eq : nodeCap = 511 := rfl
@[simp] theorem heapCap_eq : heapCap = 511 := rfl
@[simp] theorem maxCodeLen_eq : maxCodeLen = 255 := rfl
@[simp] theorem wordBits_eq : wordBits = 32 := rfl
@[simp] theorem maxWeight_eq : maxWeight = 4294967295 := rfl

/-- The value a host read of unspecified contents returns, the `n`-th such read since the run began
(R66, R212, V1, V3): a FREE VALUE, nothing constrains it (log 4). -/
opaque freeWord : Nat → Word

/-- RESET_STYLE (R5, R210, V11): OPEN, no rule depends on it (log 13). -/
inductive ResetStyle where
  | synchronous
  | asynchronous
  deriving DecidableEq, Repr, Inhabited

/-- BLOCK_BASE (R5, R71, V10): OPEN, no rule depends on it (log 13). -/
opaque blockBase : Nat

/-- The parameter RESET_STYLE: OPEN (log 13). -/
opaque resetStyle : ResetStyle

/-- The platform's interrupt line that `irq` drives (R190, V13): OPEN (log 13). -/
opaque irqLine : Nat

end Sys2Proof.Config
end

