-- ==== Sys2Proof/Machine/State.lean ====
section
/-! DEFINITION. The state of HUFTB (spec/10_state.md) as plain data, the reasons a step can stop, and reset (R210). -/

namespace Sys2Proof.Machine

/-- NODE[i].KIND (R28): the tag that tells a leaf from an internal node. -/
inductive Kind where
  | leaf
  | internal
  deriving DecidableEq, Repr

/-- NODE[i].OWN (R28): who owns the node. The value 3 never occurs. -/
inductive Own where
  | free
  | inHeap
  | child
  deriving DecidableEq, Repr

/-- One element of the node store (R28). LEFT and RIGHT are node indices (log 9). -/
structure Node where
  kind : Kind
  sym : Sym
  weight : Word
  left : Nat
  right : Nat
  own : Own
  deriving DecidableEq, Repr

/-- One element of the code table (R30). `path` holds BITS[0..LEN−1], first bit first; LEN is its length and every
later bit of BITS is 0 (log 10). -/
structure CodeEntry where
  codev : Bool
  path : List Bool
  deriving DecidableEq, Repr

/-- What the host port carries in one clock cycle (R217): the inputs `rst`, `we`, `re`, `addr`, `wdata`. -/
structure PortCycle where
  rst : Bool
  we : Bool
  re : Bool
  addr : BitVec 18
  wdata : Word
  deriving DecidableEq, Repr

/-- Whose turn it is (R20, R73): a cycle of the host port, or a step of the engine. The order of turns is the total
order of R73, and where the engine's turn falls is the open delay of V9 (log 5). -/
inductive Turn where
  | port (c : PortCycle)
  | engine
  deriving DecidableEq, Repr

/-- The internal arrays an engine access can name (R27 to R31). -/
inductive ArrayName where
  | freq
  | node
  | heap
  | code
  | symmem
  | wordmem
  deriving DecidableEq, Repr

/-- An array whose elements are `w` bits wide, of which only elements written since reset have a value (R66, log 2).
Kept with strictly rising indices; an index not listed has no value. `Memory 8` is a list of `Host.Cell`. -/
abbrev Memory (w : Nat) := List (Nat × BitVec w)

/-- Why the machine stops with a fault. These are model faults (R189), never hardware errors. -/
inductive Fault where
  /-- The engine read an element whose contents are unspecified (R66, R189 (a)): raised by BUILD for FREQ, ENCODE for
  SYMMEM, DECODE for WORDMEM, and for NODE, HEAP or CODE only in states no run reaches. SAFE: the hardware goes on with
  some value, the model stops (log 3). -/
  | unspecifiedRead (array : ArrayName) (index : Nat)
  /-- The engine would write an element the array does not have: HINS with HSIZE = HEAP_CAP, which R108 shows never
  happens. SAFE: only states no run reaches raise it (log 11). -/
  | noSuchElement (array : ArrayName) (index : Nat)
  /-- GENCODE met a node more than MAX_CODE_LEN = 255 steps below ROOT, which R143 shows never happens. SAFE: only
  states no run reaches raise it (log 12). -/
  | treeTooDeep
  deriving DecidableEq, Repr

/-- Why the machine refuses a step. -/
inductive Refusal where
  /-- The instruction has no meaning yet. SAFE. No arm of this model raises it. -/
  | notModelled (mnemonic : String)
  /-- `we` = `re` = 1 in one cycle, a host protocol error the model refuses (R217, V8). SAFE. -/
  | portConflict
  deriving DecidableEq, Repr

/-- The state of HUFTB. NCOUNT and HSIZE are the lengths of `nodes` and `heap` (R25, log 9), STATUS.ERR is ERRCODE ≠ 0
(R23), `irq` is CTRL.IE AND STATUS.DONE (R190). -/
structure State where
  /-- CTRL.IE (R22). -/
  ie : Bool
  /-- STATUS.BUSY (R23). -/
  busy : Bool
  /-- STATUS.DONE (R23). -/
  done : Bool
  /-- STATUS.HAZ (R23, R212). -/
  haz : Bool
  /-- STATUS.ROOTV (R23). -/
  rootv : Bool
  /-- STATUS.CODETV (R23). -/
  codetv : Bool
  /-- CMD (R24). -/
  cmd : Word
  /-- ARG0 (R21). -/
  arg0 : Word
  /-- ARG1 (R21). -/
  arg1 : Word
  /-- ARG2 (R21). -/
  arg2 : Word
  /-- RESULT (R21). -/
  result : Word
  /-- RESULT1 (R21). -/
  result1 : Word
  /-- ERRCODE[7:0] (R180). -/
  errcode : BitVec 8
  /-- ERRINFO (R181). -/
  errinfo : Word
  /-- ROOT (R25): meaningful while ROOTV = 1, and 0 whenever ROOTV = 0. -/
  root : Nat
  /-- SYMCAP, the constant SYM_MEM_SIZE of this block (R5, log 1). -/
  symcap : Word
  /-- WORDCAP, the constant WORD_MEM_SIZE of this block (R5, log 1). -/
  wordcap : Word
  /-- FREQ (R27): the elements written since reset. -/
  freq : Memory 32
  /-- NODE[0..NCOUNT−1] (R28): the allocated nodes. -/
  nodes : List Node
  /-- HEAP[0..HSIZE−1] (R29): the queue. -/
  heap : List Nat
  /-- CODE[0..255] (R30): meaningful only while CODETV = 1. -/
  code : List CodeEntry
  /-- SYMMEM (R31): the elements written since reset. -/
  symmem : Memory 8
  /-- WORDMEM (R31): the elements written since reset. -/
  wordmem : Memory 32
  /-- The output `rdata` (R217): the data of the last host read (log 6). -/
  rdata : Word
  /-- The model's own: how many free values host reads have taken so far (R66, log 4). -/
  draws : Nat
  /-- The model's own: the turns still to come (log 5). -/
  turns : List Turn
  deriving DecidableEq, Repr

/-- The state right after reset of a block with the given memory sizes (R5, R210). -/
def State.resetSized (symcap wordcap : Word) : State where
  ie := false
  busy := false
  done := false
  haz := false
  rootv := false
  codetv := false
  cmd := 0#32
  arg0 := 0#32
  arg1 := 0#32
  arg2 := 0#32
  result := 0#32
  result1 := 0#32
  errcode := 0#8
  errinfo := 0#32
  root := 0
  symcap := symcap
  wordcap := wordcap
  freq := []
  nodes := []
  heap := []
  code := []
  symmem := []
  wordmem := []
  rdata := 0#32
  draws := 0
  turns := []

/-- The state right after reset of a block with the default memory sizes (R5, R210). -/
def State.reset : State := State.resetSized Config.symMemDefault Config.wordMemDefault

end Sys2Proof.Machine
end

