-- ==== Sys2Proof/Machine/Ops.lean ====
section
/-! DEFINITION. The shared operations over memories, the node store, the heap and the completion registers. -/

namespace Sys2Proof.Machine

/-! ### Element memories (R66, R68) -/

/-- Element `k`, or none where nothing has been written since reset (R66). -/
def Memory.read {w : Nat} : Memory w → Nat → Option (BitVec w)
  | [], _ => none
  | (a, v) :: m, k => if k = a then some v else Memory.read m k

/-- Write element `k`, keeping the indices strictly rising. -/
def Memory.write {w : Nat} : Memory w → Nat → BitVec w → Memory w
  | [], k, v => [(k, v)]
  | (a, u) :: m, k, v =>
    if k < a then (k, v) :: (a, u) :: m
    else if k = a then (k, v) :: m
    else (a, u) :: Memory.write m k v

/-- Write the elements `base`, `base + 1`, … in this order. -/
def Memory.writeList {w : Nat} (m : Memory w) (base : Nat) : List (BitVec w) → Memory w
  | [] => m
  | v :: vs => (m.write base v).writeList (base + 1) vs

/-- The canonical form: strictly rising indices, so at most one entry for an element. -/
abbrev Memory.wf {w : Nat} (m : Memory w) : Prop := m.Pairwise (fun x y => x.1 < y.1)

/-! ### Counts, weights and sizes -/

/-- NCOUNT, the number of allocated nodes (R25). -/
def State.ncount (s : State) : Nat := s.nodes.length

/-- HSIZE, the number of nodes in the heap (R25). -/
def State.hsize (s : State) : Nat := s.heap.length

/-- SYM_MEM_SIZE (R5). -/
def State.symSize (s : State) : Nat := s.symcap.toNat

/-- WORD_MEM_SIZE (R5). -/
def State.wordSize (s : State) : Nat := s.wordcap.toNat

/-- `W(i)` = NODE[i].WEIGHT (R13) in a node store. An index that is not allocated is never asked for (see
`State.heapReadable`). -/
def weightIn (nodes : List Node) (i : Nat) : Nat :=
  match nodes[i]? with
  | some n => n.weight.toNat
  | none => 0

/-- `W(i)` = NODE[i].WEIGHT (R13). -/
def State.W (s : State) (i : Nat) : Nat := weightIn s.nodes i

/-! ### Raising, faulting, completing (R11, R12, R180 to R183) -/

/-- The error kinds of R180. -/
inductive ErrorKind where
  | emptyInput
  | invalidTree
  | unknownSymbol
  | emptyQueue
  | illegalCommand
  | nodeFull
  | badNode
  | nodeBusy
  | weightOverflow
  | badAddress
  | badStream
  deriving DecidableEq, Repr

/-- The numeric codes of R180. -/
def ErrorKind.code : ErrorKind → BitVec 8
  | .emptyInput => 1#8
  | .invalidTree => 2#8
  | .unknownSymbol => 3#8
  | .emptyQueue => 4#8
  | .illegalCommand => 5#8
  | .nodeFull => 6#8
  | .badNode => 7#8
  | .nodeBusy => 8#8
  | .weightOverflow => 9#8
  | .badAddress => 10#8
  | .badStream => 11#8

/-- How a command's body ends early: `raise E(info)` (R11), or a model fault (R189). -/
inductive Stop where
  | raise (e : ErrorKind) (info : Word)
  | fault (f : Fault)
  deriving DecidableEq, Repr

/-- What a command's body leaves when it ends without a raise: the state it wrote, RESULT and RESULT1 (R183). -/
structure Done where
  state : State
  result : Word
  result1 : Word
  deriving DecidableEq, Repr

/-- `raise E(info)` (R11). -/
def raise {α : Type} (e : ErrorKind) (info : Word) : Except Stop α := .error (.raise e info)

/-- An engine read of unspecified contents (R66, R189). -/
def unspecified {α : Type} (a : ArrayName) (k : Nat) : Except Stop α := .error (.fault (.unspecifiedRead a k))

/-- TAKING AN ERROR, the one exception entry of this block (R182): ERRCODE, ERRINFO, DONE and BUSY, nothing else. There
is no handler to enter, and nothing to restore afterwards (R187). -/
def State.completeError (s : State) (e : ErrorKind) (info : Word) : State :=
  { s with errcode := e.code, errinfo := info, done := true, busy := false }

/-- Successful completion (R183). -/
def State.completeOk (s : State) (result result1 : Word) : State :=
  { s with result := result, result1 := result1, errcode := 0#8, errinfo := 0#32, done := true, busy := false }

/-- One command as one transaction from the state at its start (R12): the body's writes all become visible, or none. -/
def complete (s : State) : Except Stop Done → Host.Outcome State Fault Refusal
  | .ok d => .next (d.state.completeOk d.result d.result1)
  | .error (.raise e info) => .next (s.completeError e info)
  | .error (.fault f) => .fault f

/-- A host write of `v` to CMD while BUSY = 0 (R24). -/
def State.startCommand (s : State) (v : Word) : State := { s with cmd := v, done := false, busy := true }

/-- Reset (R210, R216): every register as R210 says, every memory unspecified. The sizes are constants of the block, and
the model's own turns and draw counter go on (log 8). -/
def State.applyReset (s : State) : State :=
  { State.resetSized s.symcap s.wordcap with draws := s.draws, turns := s.turns }

/-! ### The node store (R28, R120, R121) -/

/-- NODE[i].OWN ← o. -/
def setOwn (nodes : List Node) (i : Nat) (o : Own) : List Node := nodes.modify i (fun n => { n with own := o })

/-- The leaf node R120 allocates. -/
def leafNode (s : Sym) (w : Word) : Node :=
  { kind := .leaf, sym := s, weight := w, left := 0, right := 0, own := .free }

/-- The internal node R121 allocates. -/
def internalNode (l r : Nat) (w : Nat) : Node :=
  { kind := .internal, sym := 0#8, weight := toWord w, left := l, right := r, own := .free }

/-- `NewLeaf(s, w)` (R120): the new node's index is the old NCOUNT. -/
def State.newLeaf (st : State) (s : Sym) (w : Word) : State := { st with nodes := st.nodes ++ [leafNode s w] }

/-- `NewInternal(l, r)` (R121): both children become CHILD; the new node's index is the old NCOUNT. -/
def State.newInternal (st : State) (l r : Nat) : State :=
  { st with
    nodes := setOwn (setOwn st.nodes l .child) r .child ++ [internalNode l r (st.W l + st.W r)] }

/-! ### The heap (R100 to R104) -/

/-- `parent(j)` (R100). -/
def parent (j : Nat) : Nat := (j - 1) / 2

/-- `lchild(j)` (R100). -/
def lchild (j : Nat) : Nat := 2 * j + 1

/-- `rchild(j)` (R100). -/
def rchild (j : Nat) : Nat := 2 * j + 2

/-- HEAP[j] of a heap in which `j` is in range. -/
def heapAt (h : List Nat) (j : Nat) : Nat := h.getD j 0

/-- Exchange HEAP[a] and HEAP[b]. -/
def heapSwap (h : List Nat) (a b : Nat) : List Nat := (h.set a (heapAt h b)).set b (heapAt h a)

/-- `Swim(j)` (R101) under the weights `w`: the heap and the element's final index. The index falls at each turn, so
`fuel = j` turns are enough. -/
def swim (w : Nat → Nat) : (fuel : Nat) → List Nat → (j : Nat) → List Nat × Nat
  | 0, h, j => (h, j)
  | fuel + 1, h, j =>
    if 0 < j ∧ w (heapAt h (parent j)) > w (heapAt h j) then
      swim w fuel (heapSwap h (parent j) j) (parent j)
    else (h, j)

/-- The child `Sink` compares with and may descend to: the lighter one, the left one on equal weights (R102). -/
def sinkChild (w : Nat → Nat) (h : List Nat) (j : Nat) : Nat :=
  if rchild j < h.length ∧ w (heapAt h (rchild j)) < w (heapAt h (lchild j)) then rchild j else lchild j

/-- `Sink(j)` (R102) under the weights `w`: the heap and the element's final index. The index rises at each turn, so
`fuel = HSIZE` turns are enough. -/
def sink (w : Nat → Nat) : (fuel : Nat) → List Nat → (j : Nat) → List Nat × Nat
  | 0, h, j => (h, j)
  | fuel + 1, h, j =>
    if lchild j ≥ h.length then (h, j)
    else if w (heapAt h j) ≤ w (heapAt h (sinkChild w h j)) then (h, j)
    else sink w fuel (heapSwap h j (sinkChild w h j)) (sinkChild w h j)

/-- Append `i` and swim it (R103): the heap and the node's final index. -/
def heapPush (w : Nat → Nat) (h : List Nat) (i : Nat) : List Nat × Nat :=
  swim w h.length (h ++ [i]) h.length

/-- The heap without its root (R104): the last element moves to the root and sinks. -/
def heapDrop (w : Nat → Nat) (h : List Nat) : List Nat :=
  let rest := h.dropLast
  if rest.length > 0 then (sink w rest.length (rest.set 0 (heapAt h (h.length - 1))) 0).1 else rest

/-- The state after `HeapInsert(i)` (R103). -/
def State.heapInsert (s : State) (i : Nat) : State :=
  { s with heap := (heapPush s.W s.heap i).1, nodes := setOwn s.nodes i .inHeap }

/-- The final heap index `HeapInsert(i)` returns (R103). -/
def State.insertPos (s : State) (i : Nat) : Nat := (heapPush s.W s.heap i).2

/-- The node `HeapPop()` returns (R104). -/
def State.heapMin (s : State) : Nat := heapAt s.heap 0

/-- The state after `HeapPop()` (R104): the popped node becomes FREE. -/
def State.heapPop (s : State) : State :=
  { s with heap := heapDrop s.W s.heap, nodes := setOwn s.nodes s.heapMin .free }

/-- Every element of the heap names an allocated node, so the heap procedures read no unspecified NODE (R66). It holds
in every state a run reaches (R32 (a)); a command that finds it broken is the model fault `unspecifiedRead` (log 11). -/
def State.heapReadable (s : State) : Bool := s.heap.all (fun i => i < s.ncount)

end Sys2Proof.Machine
end

