-- ==== Sys2Proof/Machine/Flags.lean ====
section
/-! DEFINITION. The STATUS fields: how they read, how the host clears them, how commands set the validity flags
(spec/10_state.md R23, spec/60_exceptions.md R190, R191). No command has arithmetic condition codes. -/

namespace Sys2Proof.Machine

/-- STATUS.ERR reads as ERRCODE ≠ 0 (R23). -/
def State.err (s : State) : Bool := s.errcode != 0#8

/-- The output `irq` = CTRL.IE AND STATUS.DONE (R190). -/
def State.irq (s : State) : Bool := s.ie && s.done

/-- A flag at a bit position of a word whose other bits are 0. -/
def bitAt (n : Nat) (b : Bool) : Word := (BitVec.ofBool b).setWidth 32 <<< n

/-- STATUS as the host reads it (R23): bits 31 to 6 read 0. -/
def State.statusWord (s : State) : Word :=
  bitAt 0 s.busy ||| bitAt 1 s.done ||| bitAt 2 s.err ||| bitAt 3 s.haz ||| bitAt 4 s.rootv ||| bitAt 5 s.codetv

/-- CTRL as the host reads it (R22): bits 31 to 1 read 0. -/
def State.ctrlWord (s : State) : Word := bitAt 0 s.ie

/-- A host write of `v` to CTRL (R22). -/
def State.writeCtrl (s : State) (v : Word) : State := { s with ie := v.getLsbD 0 }

/-- A host write of `v` to STATUS (R23): write-one-to-clear on DONE and HAZ, the other fields unchanged. -/
def State.writeStatus (s : State) (v : Word) : State :=
  { s with done := s.done && !v.getLsbD 1, haz := s.haz && !v.getLsbD 3 }

/-- A host access that R212 forbids while BUSY = 1. -/
def State.setHaz (s : State) : State := { s with haz := true }

/-- ROOT, ROOTV and CODETV as SETROOT and BUILD leave them (R125, R126). -/
def State.setRoot (s : State) (r : Nat) : State := { s with root := r, rootv := true, codetv := false }

/-- NCOUNT, HSIZE, ROOT, ROOTV and CODETV all 0, as in CLR and at the start of BUILD (R126, R171). -/
def State.clearTree (s : State) : State :=
  { s with nodes := [], heap := [], root := 0, rootv := false, codetv := false }

end Sys2Proof.Machine
end

