-- ==== Sys2Proof/Machine/Operands.lean ====
section
/-! DEFINITION. The operand forms of the commands (spec/30_encoding.md R84, R85) and the engine's reads of its
input memories (R66, R68). The immediates SYM and IDX are read by the decoder. -/

namespace Sys2Proof.Machine

/-- ARG0 as an unsigned 32-bit operand (R84). -/
def State.opArg0 (s : State) : Nat := s.arg0.toNat

/-- ARG1 as an unsigned 32-bit operand (R84). -/
def State.opArg1 (s : State) : Nat := s.arg1.toNat

/-- ARG2 as an unsigned 32-bit operand (R84). -/
def State.opArg2 (s : State) : Nat := s.arg2.toNat

/-- An element of an input memory as the engine reads it: unspecified contents are the model fault (R66). -/
def specified {α : Type} (a : ArrayName) (k : Nat) : Option α → Except Stop α
  | some v => .ok v
  | none => unspecified a k

/-- The engine's read of FREQ[k] (R27). -/
def State.engineFreq (s : State) (k : Nat) : Except Stop Word := specified .freq k (s.freq.read k)

/-- `MemRead(SYMMEM, k)` (R10). -/
def State.engineSym (s : State) (k : Nat) : Except Stop Sym := specified .symmem k (s.symmem.read k)

/-- `MemRead(WORDMEM, k)` (R10). -/
def State.engineWord (s : State) (k : Nat) : Except Stop Word := specified .wordmem k (s.wordmem.read k)

/-- The engine's read of NODE[i] (R28). -/
def State.engineNode (s : State) (i : Nat) : Except Stop Node := specified .node i s.nodes[i]?

/-- The engine's read of CODE[x] (R30). -/
def State.engineCode (s : State) (x : Sym) : Except Stop CodeEntry := specified .code x.toNat s.code[x.toNat]?

/-- Bit `p` of the packed stream whose length word is WORDMEM[a] (R151, R156). -/
def State.streamBit (s : State) (a p : Nat) : Except Stop Bool :=
  (s.engineWord (a + 1 + p / 32)).map (fun v => v.getLsbD (31 - p % 32))

end Sys2Proof.Machine
end

