-- ==== Sys2Proof/Machine/CodeGen.lean ====
section
/-! DEFINITION. Code table generation, GENCODE (spec/43_codegen.md). -/

namespace Sys2Proof.Machine

/-- The table entry of a symbol without a code: CODEV = 0, LEN = 0, BITS all 0 (R140). -/
def noCode : CodeEntry := { codev := false, path := [] }

/-- The entry of a code (R140). -/
def codeOf (path : List Bool) : CodeEntry := { codev := true, path := path }

/-- LEN of an entry (R30). -/
def CodeEntry.len (e : CodeEntry) : Nat := e.path.length

/-- BITS[j] of an entry: 0 from LEN on, and there is no BITS[255] (R30, R64). -/
def CodeEntry.bit (e : CodeEntry) (j : Nat) : Bool := decide (j < Config.maxCodeLen) && e.path.getD j false

/-- What the walk of R140 carries: the table T, the number of leaves and the greatest code length so far. -/
structure WalkState where
  table : List CodeEntry
  leaves : Nat
  maxlen : Nat
  deriving DecidableEq, Repr

/-- The walk's start: every symbol without a code (R140). -/
def walkStart : WalkState := { table := List.replicate Config.nSym noCode, leaves := 0, maxlen := 0 }

/-- A leaf with symbol `x` reached along `path` (R140): record its code, or report the duplicate. -/
def WalkState.addLeaf (t : WalkState) (x : Sym) (path : List Bool) : Except Stop WalkState :=
  if (t.table.getD x.toNat noCode).codev then raise .invalidTree (toWord (0x100 + x.toNat))
  else .ok { table := t.table.set x.toNat (codeOf path), leaves := t.leaves + 1, maxlen := max t.maxlen path.length }

/-- `Walk(n, path)` in preorder, left before right (R140). `fuel` is how many more levels a code of MAX_CODE_LEN bits
leaves room for (R143); running out is a model fault that no reachable state meets (log 12). -/
def walk (s : State) : (fuel : Nat) → Nat → List Bool → WalkState → Except Stop WalkState
  | 0, _, _, _ => .error (.fault .treeTooDeep)
  | fuel + 1, n, path, t =>
    match s.engineNode n with
    | .error e => .error e
    | .ok nd =>
      match nd.kind with
      | .leaf => t.addLeaf nd.sym path
      | .internal =>
        match walk s fuel nd.left (path ++ [false]) t with
        | .error e => .error e
        | .ok t1 => walk s fuel nd.right (path ++ [true]) t1

/-- `Walk(ROOT, [])` with its empty table (R140). -/
def State.walkRoot (s : State) : Except Stop WalkState := walk s (Config.maxCodeLen + 1) s.root [] walkStart

/-- CODE ← T and CODETV ← 1 (R140). -/
def State.setCode (s : State) (table : List CodeEntry) : State := { s with code := table, codetv := true }

/-- The body of GENCODE (R140). -/
def gencodeBody (s : State) : Except Stop Done :=
  if s.rootv = false then raise .invalidTree 0#32
  else
    match s.walkRoot with
    | .error e => .error e
    | .ok t => .ok ⟨s.setCode t.table, toWord t.leaves, toWord t.maxlen⟩

/-- GENCODE (R140). -/
def execGencode (s : State) : Host.Outcome State Fault Refusal := complete s (gencodeBody s)

end Sys2Proof.Machine
end

