-- ==== Sys2Proof/Machine/Control.lean ====
section
/-! DEFINITION. The control commands NOP, CLR and FRQCLR (spec/45_control.md). -/

namespace Sys2Proof.Machine

/-- NOP (R170). -/
def execNop (s : State) : Host.Outcome State Fault Refusal := complete s (.ok ⟨s, 0#32, 0#32⟩)

/-- CLR (R171). -/
def execClr (s : State) : Host.Outcome State Fault Refusal := complete s (.ok ⟨s.clearTree, 0#32, 0#32⟩)

/-- FREQ with every element 0 (R172). -/
def State.zeroFreq (s : State) : State := { s with freq := s.freq.writeList 0 (List.replicate Config.nSym 0#32) }

/-- FRQCLR (R172). -/
def execFrqclr (s : State) : Host.Outcome State Fault Refusal := complete s (.ok ⟨s.zeroFreq, 0#32, 0#32⟩)

end Sys2Proof.Machine
end

