-- ==== Sys2Proof/Machine/Packed.lean ====
section
/-! DEFINITION. The packed-word encoder and decoder, ENCODE and DECODE (spec/44_packed.md). -/

namespace Sys2Proof.Machine

/-! ### ENCODE (R152) -/

/-- The encoder's loop state (R152): the payload words flushed so far, the accumulator, and the number of its bits still
free, which is the spec's cursor `cur` plus one. -/
structure Packer where
  out : List Word
  acc : Word
  room : Nat
  deriving DecidableEq, Repr

/-- `acc <- 0; cur <- 31; w <- 0` (R152). -/
def packerStart : Packer := { out := [], acc := 0#32, room := Config.wordBits }

/-- Flush the accumulator as the next payload word and start a new one (R152). -/
def Packer.flush (p : Packer) : Packer := { out := p.out ++ [p.acc], acc := 0#32, room := Config.wordBits }

/-- Place a bit at the cursor and move the cursor down (R152). -/
def Packer.place (p : Packer) (b : Bool) : Packer :=
  { p with acc := p.acc ||| ((BitVec.ofBool b).setWidth 32 <<< (p.room - 1)), room := p.room - 1 }

/-- One code bit: flush first if all 32 bits are used (R152). -/
def Packer.push (p : Packer) (b : Bool) : Packer := (if p.room = 0 then p.flush else p).place b

/-- The loops of R152 over the symbols' codes and each code's bits, left to right. -/
def packCodes (codes : List (List Bool)) : Packer :=
  codes.foldl (fun p code => code.foldl Packer.push p) packerStart

/-- The payload words, the final flush among them (R152). -/
def packWords (codes : List (List Bool)) : List Word := (packCodes codes).flush.out

/-- `max(1, ceil(T / 32))` (R150). -/
def payloadWords (t : Nat) : Nat := max 1 ((t + 31) / 32)

/-- The total bit count T of the codes (R152). -/
def bitCount (codes : List (List Bool)) : Nat := (codes.map List.length).sum

/-- The codes of the `n` symbols from SYMMEM[a + k] on, each read and then looked up, in order (R152): the lowest
position without a code is the one reported. -/
def State.gatherCodes (s : State) (a : Nat) : (n k : Nat) → Except Stop (List (List Bool))
  | 0, _ => .ok []
  | n + 1, k => do
    let x ← s.engineSym (a + k)
    let e ← s.engineCode x
    if e.codev = false then raise .unknownSymbol (toWord k)
    else do
      let rest ← s.gatherCodes a n (k + 1)
      .ok (e.path :: rest)

/-- The packed-word buffer of R150 written at WORDMEM index `b`. -/
def State.storeWords (s : State) (b : Nat) (words : List Word) : State :=
  { s with wordmem := s.wordmem.writeList b words }

/-- The body of ENCODE (R152). -/
def encodeBody (s : State) : Except Stop Done :=
  let a := s.opArg0
  let n := s.opArg1
  let b := s.opArg2
  if n > 0 ∧ s.codetv = false then raise .invalidTree 0#32
  else if n > 0 ∧ a + n > s.symSize then raise .badAddress 0#32
  else
    match s.gatherCodes a n 0 with
    | .error e => .error e
    | .ok codes =>
      let t := bitCount codes
      if b + payloadWords t + 1 > s.wordSize then raise .badAddress 2#32
      else
        let words := packWords codes
        .ok ⟨s.storeWords b (toWord t :: words), toWord t, toWord words.length⟩

/-- ENCODE (R152). -/
def execEncode (s : State) : Host.Outcome State Fault Refusal := complete s (encodeBody s)

/-! ### DECODE (R155, R156) -/

/-- The traversal's loop state (R156). -/
structure Cursor where
  cur : Nat
  out : List Sym
  start : Nat
  deriving DecidableEq, Repr

/-- One descent of R156 at stream position `p` with the bit found there. -/
def State.descend (s : State) (p : Nat) (bit : Bool) (c : Cursor) : Except Stop Cursor := do
  let nd ← s.engineNode c.cur
  let next := if bit then nd.right else nd.left
  let ch ← s.engineNode next
  match ch.kind with
  | .leaf => .ok { cur := s.root, out := c.out ++ [ch.sym], start := p + 1 }
  | .internal => .ok { c with cur := next }

/-- The loop of R156 over the stream positions `p`, …, `p + n − 1` of the buffer at WORDMEM[a]. -/
def State.traverseFrom (s : State) (a : Nat) : (n p : Nat) → Cursor → Except Stop Cursor
  | 0, _, c => .ok c
  | n + 1, p, c => do
    let bit ← s.streamBit a p
    let c' ← s.descend p bit c
    s.traverseFrom a n (p + 1) c'

/-- `Traverse(a, L)` (R156). -/
def State.traverse (s : State) (a l : Nat) : Except Stop Cursor :=
  s.traverseFrom a l 0 { cur := s.root, out := [], start := 0 }

/-- `ceil(L / 32)` (R155). -/
def streamWords (l : Nat) : Nat := (l + 31) / 32

/-- The symbols DECODE emits when L = 0 (R155): `rep` copies of the symbol of a single-leaf tree, else none. -/
def State.emptyStreamOut (s : State) (rep : Nat) : Except Stop (List Sym) :=
  if s.rootv = false then .ok []
  else do
    let nd ← s.engineNode s.root
    match nd.kind with
    | .leaf => .ok (List.replicate rep nd.sym)
    | .internal => .ok []

/-- The symbols DECODE emits when L > 0, with the checks of R155 in their order. -/
def State.streamOut (s : State) (a l : Nat) : Except Stop (List Sym) :=
  if s.rootv = false then raise .invalidTree 0#32
  else if a + streamWords l ≥ s.wordSize then raise .badAddress 0#32
  else do
    let nd ← s.engineNode s.root
    match nd.kind with
    | .leaf => raise .badStream 0#32
    | .internal =>
      let c ← s.traverse a l
      if c.start ≠ l then raise .badStream (toWord c.start) else .ok c.out

/-- The symbols DECODE emits for the length `l` (R155). -/
def State.decodeOut (s : State) (a l rep : Nat) : Except Stop (List Sym) :=
  if l = 0 then s.emptyStreamOut rep else s.streamOut a l

/-- Symbols written from SYMMEM[b] on (R155). -/
def State.storeSyms (s : State) (b : Nat) (syms : List Sym) : State :=
  { s with symmem := s.symmem.writeList b syms }

/-- The body of DECODE (R155). -/
def decodeBody (s : State) : Except Stop Done :=
  let a := s.opArg0
  let rep := s.opArg1
  let b := s.opArg2
  if a ≥ s.wordSize then raise .badAddress 0#32
  else
    match s.engineWord a with
    | .error e => .error e
    | .ok l =>
      match s.decodeOut a l.toNat rep with
      | .error e => .error e
      | .ok out =>
        if b + out.length > s.symSize then raise .badAddress 2#32
        else .ok ⟨s.storeSyms b out, toWord out.length, l⟩

/-- DECODE (R155). -/
def execDecode (s : State) : Host.Outcome State Fault Refusal := complete s (decodeBody s)

end Sys2Proof.Machine
end

