-- ==== Sys2Proof/Machine/Queue.lean ====
section
/-! DEFINITION. The priority queue commands HINS and HPOP (spec/41_queue.md). -/

namespace Sys2Proof.Machine

/-- The body of HINS (R105). The last two tests are model faults that no reachable state meets (R66, R108, log 11). -/
def hinsBody (i : Nat) (s : State) : Except Stop Done :=
  match s.nodes[i]? with
  | none => raise .badNode (toWord i)
  | some n =>
    if n.own ≠ .free then raise .nodeBusy (toWord i)
    else if s.hsize ≥ Config.heapCap then .error (.fault (.noSuchElement .heap s.hsize))
    else if s.heapReadable then .ok ⟨s.heapInsert i, toWord (s.heapInsert i).hsize, toWord (s.insertPos i)⟩
    else unspecified .node s.ncount

/-- HINS (R105). -/
def execHins (i : Nat) (s : State) : Host.Outcome State Fault Refusal := complete s (hinsBody i s)

/-- The body of HPOP (R106). The last test is a model fault that no reachable state meets (R66, log 11). -/
def hpopBody (s : State) : Except Stop Done :=
  if s.hsize = 0 then raise .emptyQueue 0#32
  else if s.heapReadable then .ok ⟨s.heapPop, toWord s.heapMin, toWord (s.W s.heapMin)⟩
  else unspecified .node s.ncount

/-- HPOP (R106). -/
def execHpop (s : State) : Host.Outcome State Fault Refusal := complete s (hpopBody s)

end Sys2Proof.Machine
end

