-- ==== Sys2Proof/Machine/Tree.lean ====
section
/-! DEFINITION. The tree builder commands MKLEAF, MERGE, SETROOT and BUILD (spec/42_tree.md). -/

namespace Sys2Proof.Machine

/-- The body of MKLEAF (R123). -/
def mkleafBody (x : Sym) (s : State) : Except Stop Done :=
  if s.ncount = Config.nodeCap then raise .nodeFull (toWord s.ncount)
  else .ok ⟨s.newLeaf x s.arg0, toWord s.ncount, 0#32⟩

/-- MKLEAF (R123). -/
def execMkleaf (x : Sym) (s : State) : Host.Outcome State Fault Refusal := complete s (mkleafBody x s)

/-- ERRINFO of a MERGE whose weights overflow: `{7'b0, r[8:0], 7'b0, l[8:0]}` (R122, R181). -/
def overflowInfo (l r : Nat) : Word := 0#7 ++ BitVec.ofNat 9 r ++ 0#7 ++ BitVec.ofNat 9 l

/-- `MergeStep()` (R122): the state and the parent's index. The first pop is the left child. The test before the pops is
a model fault that no reachable state meets (R66, log 11). -/
def State.mergeStep (s : State) : Except Stop (State × Nat) :=
  if s.hsize < 2 then raise .emptyQueue (toWord s.hsize)
  else if s.ncount = Config.nodeCap then raise .nodeFull (toWord s.ncount)
  else if s.heapReadable = false then unspecified .node s.ncount
  else
    let l := s.heapMin
    let s1 := s.heapPop
    let r := s1.heapMin
    let s2 := s1.heapPop
    if s2.W l + s2.W r > Config.maxWeight then raise .weightOverflow (overflowInfo l r)
    else .ok ((s2.newInternal l r).heapInsert s2.ncount, s2.ncount)

/-- The body of MERGE (R124). -/
def mergeBody (s : State) : Except Stop Done :=
  match s.mergeStep with
  | .error e => .error e
  | .ok (t, n) => .ok ⟨t, toWord n, toWord (t.W n)⟩

/-- MERGE (R124). -/
def execMerge (s : State) : Host.Outcome State Fault Refusal := complete s (mergeBody s)

/-- The body of SETROOT (R125). -/
def setrootBody (i : Nat) (s : State) : Except Stop Done :=
  if i ≥ s.ncount then raise .badNode (toWord i)
  else .ok ⟨s.setRoot i, toWord i, 0#32⟩

/-- SETROOT (R125). -/
def execSetroot (i : Nat) (s : State) : Host.Outcome State Fault Refusal := complete s (setrootBody i s)

/-- FREQ[s] for the symbols of a list, each an engine read (R66, R126). -/
def State.readFreqs (s : State) : List Nat → Except Stop (List Word)
  | [] => .ok []
  | k :: ks => do
    let f ← s.engineFreq k
    let fs ← s.readFreqs ks
    .ok (f :: fs)

/-- One seeding step of BUILD: a leaf for symbol `k` if its frequency is not 0 (R126). -/
def State.seedLeaf (s : State) (k : Nat) (f : Word) : State :=
  if f ≠ 0#32 then (s.newLeaf (BitVec.ofNat 8 k) f).heapInsert s.ncount else s

/-- The seeding loop of BUILD over the symbols `k`, `k + 1`, … with the frequencies read (R126). -/
def State.seedLeaves (s : State) (k : Nat) : List Word → State
  | [] => s
  | f :: fs => (s.seedLeaf k f).seedLeaves (k + 1) fs

/-- `while HSIZE > 1: MergeStep()` (R126). Each step lowers HSIZE by one, so `fuel = HSIZE` steps are enough. -/
def State.mergeAll : (fuel : Nat) → State → Except Stop State
  | 0, s => .ok s
  | fuel + 1, s =>
    if s.hsize > 1 then
      match s.mergeStep with
      | .error e => .error e
      | .ok (t, _) => State.mergeAll fuel t
    else .ok s

/-- The sum of the frequencies, exact and unbounded (R126). -/
def freqTotal (fs : List Word) : Nat := (fs.map BitVec.toNat).sum

/-- The body of BUILD (R126). -/
def buildBody (s : State) : Except Stop Done :=
  match s.readFreqs (List.range Config.nSym) with
  | .error e => .error e
  | .ok fs =>
    if fs.all (fun f => f = 0#32) then raise .emptyInput 0#32
    else if freqTotal fs > Config.maxWeight then raise .weightOverflow 0#32
    else
      let seeded := s.clearTree.seedLeaves 0 fs
      match seeded.mergeAll seeded.hsize with
      | .error e => .error e
      | .ok t =>
        let r := t.heapMin
        .ok ⟨t.heapPop.setRoot r, toWord r, toWord t.heapPop.ncount⟩

/-- BUILD (R126). -/
def execBuild (s : State) : Host.Outcome State Fault Refusal := complete s (buildBody s)

end Sys2Proof.Machine
end

