-- ==== Sys2Proof/Machine/Dispatch.lean ====
section
/-! DEFINITION. What each command does: one arm per constructor of Instr (spec/30_encoding.md R85, R87). -/

namespace Sys2Proof.Machine

-- The engine's one step for a decoded command: the whole command as one transaction (R12, R20).
def exec (i : Instr) (s : State) : Host.Outcome State Fault Refusal :=
  match i with
  | .nop => Sys2Proof.Machine.execNop s
  | .clr => Sys2Proof.Machine.execClr s
  | .frqclr => Sys2Proof.Machine.execFrqclr s
  | .mkleaf sym => Sys2Proof.Machine.execMkleaf sym s
  | .hins idx => Sys2Proof.Machine.execHins idx s
  | .hpop => Sys2Proof.Machine.execHpop s
  | .merge => Sys2Proof.Machine.execMerge s
  | .setroot idx => Sys2Proof.Machine.execSetroot idx s
  | .build => Sys2Proof.Machine.execBuild s
  | .gencode => Sys2Proof.Machine.execGencode s
  | .encode => Sys2Proof.Machine.execEncode s
  | .decode => Sys2Proof.Machine.execDecode s

end Sys2Proof.Machine
end

