-- ==== Sys2Proof/Machine/Port.lean ====
section
/-! DEFINITION. The host port: the address map, host reads and writes, the busy hazard, a port cycle
(spec/20_memory.md R60 to R66, spec/10_state.md R22 to R25, spec/70_reset_and_hazards.md R212, R216, R217). -/

namespace Sys2Proof.Machine

/-- The registers of spec/10_state.md, at word addresses 0x000 to 0x00F. -/
inductive Reg where
  | id
  | ctrl
  | status
  | cmd
  | arg0
  | arg1
  | arg2
  | result
  | result1
  | errcode
  | errinfo
  | root
  | ncount
  | hsize
  | symcap
  | wordcap
  deriving DecidableEq, Repr

/-- What a host word address names (R61). -/
inductive Loc where
  | reg (r : Reg)
  | freq (s : Nat)
  | node (i w : Nat)
  | heap (j : Nat)
  | code (s w : Nat)
  | sym (k : Nat)
  | word (k : Nat)
  | reserved
  deriving DecidableEq, Repr

/-- The registers in address order (spec/10_state.md, register table). -/
def regList : List Reg :=
  [.id, .ctrl, .status, .cmd, .arg0, .arg1, .arg2, .result, .result1, .errcode, .errinfo, .root, .ncount, .hsize,
    .symcap, .wordcap]

/-- The address map of R61. SYMMEM and WORDMEM indices past the block's sizes are reserved. -/
def State.locate (s : State) (addr : BitVec 18) : Loc :=
  let a := addr.toNat
  if a < 0x01000 then ((regList[a]?).map Loc.reg).getD .reserved
  else if a < 0x01100 then .freq (a - 0x01000)
  else if a < 0x02000 then .reserved
  else if a < 0x027FC then .node ((a - 0x02000) / 4) ((a - 0x02000) % 4)
  else if a < 0x03000 then .reserved
  else if a < 0x031FF then .heap (a - 0x03000)
  else if a < 0x04000 then .reserved
  else if a < 0x05000 then .code ((a - 0x04000) / 16) ((a - 0x04000) % 16)
  else if a < 0x10000 then .reserved
  else if a < 0x20000 then (if a - 0x10000 < s.symSize then .sym (a - 0x10000) else .reserved)
  else if a < 0x30000 then (if a - 0x20000 < s.wordSize then .word (a - 0x20000) else .reserved)
  else .reserved

/-- A register as the host reads it (spec/10_state.md register table, R22 to R25). -/
def State.readReg (s : State) : Reg → Word
  | .id => Config.idValue
  | .ctrl => s.ctrlWord
  | .status => s.statusWord
  | .cmd => s.cmd
  | .arg0 => s.arg0
  | .arg1 => s.arg1
  | .arg2 => s.arg2
  | .result => s.result
  | .result1 => s.result1
  | .errcode => s.errcode.setWidth 32
  | .errinfo => s.errinfo
  | .root => toWord s.root
  | .ncount => toWord s.ncount
  | .hsize => toWord s.hsize
  | .symcap => s.symcap
  | .wordcap => s.wordcap

/-- KIND as its bit: 0 = LEAF, 1 = INTERNAL (R28). -/
def Kind.bits : Kind → BitVec 1
  | .leaf => 0#1
  | .internal => 1#1

/-- OWN as its two bits: 0 = FREE, 1 = INHEAP, 2 = CHILD (R28). -/
def Own.bits : Own → BitVec 2
  | .free => 0#2
  | .inHeap => 1#2
  | .child => 2#2

/-- Word `w` of a node's window (R63). -/
def nodeWord (n : Node) (w : Nat) : Word :=
  match w with
  | 0 => n.kind.bits ++ n.own.bits ++ 0#21 ++ n.sym
  | 1 => n.weight
  | 2 => 0#7 ++ BitVec.ofNat 9 n.right ++ 0#7 ++ BitVec.ofNat 9 n.left
  | _ => 0#32

/-- Bits `BITS[32·(w−1)]` to `BITS[32·(w−1)+31]` of an entry, the first at bit 31 (R64). -/
def codeBits (e : CodeEntry) (w : Nat) : Word :=
  (List.range 32).foldl (fun v t => v ||| bitAt (31 - t) (e.bit (32 * (w - 1) + t))) 0#32

/-- Word `w` of a code entry's window (R64). -/
def codeWord (e : CodeEntry) (w : Nat) : Word :=
  if w = 0 then BitVec.ofBool e.codev ++ 0#23 ++ BitVec.ofNat 8 e.len
  else if w ≤ 8 then codeBits e w
  else 0#32

/-- What a host read of a location returns while BUSY = 0 (R62 to R65); none where the contents are unspecified (R66). -/
def State.peek (s : State) : Loc → Option Word
  | .reg r => some (s.readReg r)
  | .freq k => s.freq.read k
  | .node i w => s.nodes[i]?.map (fun n => nodeWord n w)
  | .heap j => s.heap[j]?.map toWord
  | .code k w => if s.codetv then s.code[k]?.map (fun e => codeWord e w) else none
  | .sym k => (s.symmem.read k).map (fun v => v.setWidth 32)
  | .word k => s.wordmem.read k
  | .reserved => some 0#32

/-- What a host write of `v` to a location does while BUSY = 0 (R22 to R24, R62, R65). -/
def State.poke (s : State) (v : Word) : Loc → State
  | .reg .ctrl => s.writeCtrl v
  | .reg .status => s.writeStatus v
  | .reg .cmd => s.startCommand v
  | .reg .arg0 => { s with arg0 := v }
  | .reg .arg1 => { s with arg1 := v }
  | .reg .arg2 => { s with arg2 := v }
  | .reg _ => s
  | .freq k => { s with freq := s.freq.write k v }
  | .node _ _ => s
  | .heap _ => s
  | .code _ _ => s
  | .sym k => { s with symmem := s.symmem.write k (v.setWidth 8) }
  | .word k => { s with wordmem := s.wordmem.write k v }
  | .reserved => s

/-- A read whose value the spec does not fix: a fresh free value at every read (R66, R212, log 4). -/
def State.drawRead (s : State) : State := { s with rdata := Config.freeWord s.draws, draws := s.draws + 1 }

/-- The data of a read at the output `rdata` (R217). -/
def State.answer (s : State) : Option Word → State
  | some v => { s with rdata := v }
  | none => s.drawRead

/-- The reads R212 allows while BUSY = 1: ID, STATUS, CTRL. -/
def readAllowedBusy : Loc → Bool
  | .reg .id => true
  | .reg .status => true
  | .reg .ctrl => true
  | _ => false

/-- The writes R212 allows while BUSY = 1: CTRL, STATUS. -/
def writeAllowedBusy : Loc → Bool
  | .reg .ctrl => true
  | .reg .status => true
  | _ => false

/-- A host read at a word address (R60, R62, R70, R212). -/
def State.hostRead (s : State) (addr : BitVec 18) : State :=
  if s.busy && !readAllowedBusy (s.locate addr) then s.drawRead.setHaz
  else s.answer (s.peek (s.locate addr))

/-- A host write at a word address (R60, R62, R212). -/
def State.hostWrite (s : State) (addr : BitVec 18) (v : Word) : State :=
  if s.busy && !writeAllowedBusy (s.locate addr) then s.setHaz
  else s.poke v (s.locate addr)

/-- One cycle of the host port (R217). Reset goes before the strobes (log 7); both strobes together are refused. -/
def portCycle (c : PortCycle) (s : State) : Host.Outcome State Fault Refusal :=
  if c.rst then .next s.applyReset
  else if c.we && c.re then .refused .portConflict
  else if c.we then .next (s.hostWrite c.addr c.wdata)
  else if c.re then .next (s.hostRead c.addr)
  else .next s

end Sys2Proof.Machine
end

