-- ==== Sys2Proof/Machine/Step.lean ====
section
/-! DEFINITION. One step of the machine: a turn of the host port or of the engine (spec/10_state.md R20, R24, R26). -/

namespace Sys2Proof.Machine

/-- The engine runs the command word in CMD (R20, R87): an illegal word completes with IllegalCommand and the whole word
as ERRINFO (R86). -/
def engineStep (s : State) : Host.Outcome State Fault Refusal :=
  match decode s.cmd with
  | .ok i => exec i s
  | .error _ => .next (s.completeError .illegalCommand s.cmd)

/-- The engine's turn: it steps only while BUSY = 1 (R20). -/
def engineTurn (s : State) : Host.Outcome State Fault Refusal := if s.busy then engineStep s else .next s

/-- One step: the turn at the head of `turns`. With no turn listed the engine has it, and an idle block waits (R198,
R214, log 5). -/
def step (s : State) : Host.Outcome State Fault Refusal :=
  match s.turns with
  | [] => engineTurn s
  | .engine :: ts => engineTurn { s with turns := ts }
  | .port c :: ts => portCycle c { s with turns := ts }

/-- The state in which the very next step runs the command word `w`: the word is in CMD as after the host's write of R24
(this stands for that write), and the next turn is the engine's (log 14). -/
def State.withFetchWord (s : State) (nbits w : Nat) : State :=
  { s.startCommand (BitVec.ofNat 32 (w % 2 ^ nbits)) with turns := .engine :: s.turns }

end Sys2Proof.Machine
end

