-- ==== Sys2Proof/Machine/Script.lean ====
section
/-! DEFINITION. Host scripts: what each line and pseudo-instruction stands for, as turns (spec/30_encoding.md R89, R90). -/

namespace Sys2Proof.Machine

/-- The word address of a register: its place in the register table of spec/10_state.md. -/
def Reg.addr (r : Reg) : Nat := regList.idxOf r

/-- The word address a location names (R61, R89). A reserved location is given by its numeric address instead. -/
def Loc.addr : Loc → Nat
  | .reg r => r.addr
  | .freq k => 0x01000 + k
  | .node i w => 0x02000 + 4 * i + w
  | .heap j => 0x03000 + j
  | .code k w => 0x04000 + 16 * k + w
  | .sym k => 0x10000 + k
  | .word k => 0x20000 + k
  | .reserved => 0x00010

/-- One host bus write, `wr <loc>, <value>` (R89). -/
def writeTurn (a : Nat) (v : Word) : Turn :=
  .port { rst := false, we := true, re := false, addr := BitVec.ofNat 18 a, wdata := v }

/-- One host bus read, `rd <loc>` (R89). -/
def readTurn (a : Nat) : Turn :=
  .port { rst := false, we := false, re := true, addr := BitVec.ofNat 18 a, wdata := 0#32 }

/-- `wait` (R90): reads of STATUS until BUSY reads 0. How many of them still see BUSY = 1 is open (V9): `polls`. -/
def waitTurns (polls : Nat) : List Turn :=
  List.replicate polls (readTurn (Reg.addr .status)) ++ [.engine, readTurn (Reg.addr .status)]

/-- A command word with its `wait` (R90). -/
def commandTurns (c : Word) (polls : Nat) : List Turn := writeTurn (Reg.addr .cmd) c :: waitTurns polls

/-- Writes of ARG0, ARG1 and ARG2, then a command, as `encode` and `decode` expand (R90). -/
def argsCommandTurns (a0 a1 a2 c : Word) (polls : Nat) : List Turn :=
  [writeTurn (Reg.addr .arg0) a0, writeTurn (Reg.addr .arg1) a1, writeTurn (Reg.addr .arg2) a2] ++ commandTurns c polls

/-- Writes of the elements from a word address on, as `syms` expands (R90). -/
def fillTurns (a : Nat) : List Word → List Turn
  | [] => []
  | v :: vs => writeTurn a v :: fillTurns (a + 1) vs

/-- A line of a host script (R89, R90). DESIGN CHOICE where V9 leaves the delay of a command open: a line that waits
carries how many polls see BUSY = 1 (log 15), and after a raw `wr CMD, <value>` the engine steps where the model's own line
`engine` stands; without one, at the first engine turn of a later waiting line, or after the last line (log 17). -/
inductive Line where
  | wr (loc : Loc) (v : Word)
  | rd (loc : Loc)
  | wrAddr (addr : BitVec 18) (v : Word)
  | rdAddr (addr : BitVec 18)
  | wait (polls : Nat)
  | command (i : Instr) (polls : Nat)
  | leaf (sym : Sym) (w : Word) (polls : Nat)
  | freq (sym : Sym) (f : Word)
  | syms (k : Nat) (text : List Sym)
  | encode (a n b : Word) (polls : Nat)
  | decode (a rep b : Word) (polls : Nat)
  | ack
  /-- The model's own, no line of R89: the engine's turn falls here (V9, log 17). -/
  | engine
  deriving DecidableEq, Repr

/-- What a line stands for (R89, R90). -/
def Line.turns : Line → List Turn
  | .wr loc v => [writeTurn loc.addr v]
  | .rd loc => [readTurn loc.addr]
  | .wrAddr a v => [writeTurn a.toNat v]
  | .rdAddr a => [readTurn a.toNat]
  | .wait polls => waitTurns polls
  | .command i polls => commandTurns (Sys2Proof.encode i) polls
  | .leaf x w polls => writeTurn (Reg.addr .arg0) w :: commandTurns (Sys2Proof.encode (.mkleaf x)) polls
  | .freq x f => [writeTurn (Loc.addr (.freq x.toNat)) f]
  | .syms k text => fillTurns (Loc.addr (.sym k)) (text.map (fun x => x.setWidth 32))
  | .encode a n b polls => argsCommandTurns a n b (Sys2Proof.encode .encode) polls
  | .decode a rep b polls => argsCommandTurns a rep b (Sys2Proof.encode .decode) polls
  | .ack => [writeTurn (Reg.addr .status) 0x0000000A#32]
  | .engine => [.engine]

/-- The turns of a script, in program order (R73, R89). DESIGN CHOICE (log 17): a line that does not wait adds no engine
turn, so a command started by a raw `wr CMD, <value>` stays BUSY up to the next `engine` or waiting line, or the end of the
script. Every delay V9 allows is the turns of the script, its pseudo-instructions written out as their wr and rd lines (R90),
with `engine` put in at some place. -/
def scriptTurns (script : List Line) : List Turn := script.flatMap Line.turns

end Sys2Proof.Machine
end

