-- ==== Sys2Proof/Safety.lean ====
section
/-! DEFINITION. What holds of a sound state (the invariants R32 to R35 and the bounds of R5, R28, R29, R180) and the
relations the statements are written in. -/

namespace Sys2Proof.Machine

/-! ### The tree below a node -/

/-- Internal node `p` has `c` as one of its two children. -/
def IsParent (nodes : List Node) (p c : Nat) : Prop :=
  ∃ m, nodes[p]? = some m ∧ m.kind = .internal ∧ (m.left = c ∨ m.right = c)

/-- A node without its OWN field, the only field that changes after allocation (R28). -/
def Node.shape (n : Node) : Node := { n with own := .free }

/-- The node reached from `n` by a sequence of steps, 0 to LEFT and 1 to RIGHT, through internal nodes (R141). -/
def follow (nodes : List Node) : Nat → List Bool → Option Nat
  | n, [] => if n < nodes.length then some n else none
  | n, b :: bs =>
    match nodes[n]? with
    | some m => if m.kind = .internal then follow nodes (if b then m.right else m.left) bs else none
    | none => none

/-- The steps `path` lead from `n` to a leaf with symbol `x` (R141). -/
def LeafAt (nodes : List Node) (n : Nat) (path : List Bool) (x : Sym) : Prop :=
  ∃ i m, follow nodes n path = some i ∧ nodes[i]? = some m ∧ m.kind = .leaf ∧ m.sym = x

/-- No two leaves below `n` carry the same symbol (R140's duplicate check). -/
def NoDuplicateSymbol (nodes : List Node) (n : Nat) : Prop :=
  ∀ p q x, LeafAt nodes n p x → LeafAt nodes n q x → p = q

/-- Symbol `x` is the one GENCODE reports (R140): its leaf at `q` is the first in preorder whose symbol was met before.
Paths are compared bit by bit, 0 before 1, which for leaves is preorder. -/
structure FirstDuplicate (nodes : List Node) (n : Nat) (x : Sym) : Prop where
  found : ∃ q, LeafAt nodes n q x ∧ (∃ q', q' < q ∧ LeafAt nodes n q' x) ∧
    ∀ q1 q2 y, q1 < q → q2 < q → LeafAt nodes n q1 y → LeafAt nodes n q2 y → q1 = q2

/-! ### Invariants -/

/-- The ownership invariant of R32, with the field values of R28 and the capacity of R5. -/
structure Owned (nodes : List Node) (heap : List Nat) : Prop where
  /-- A LEAF has LEFT = RIGHT = 0, an INTERNAL node has SYM = 0 (R28). -/
  fields : ∀ n ∈ nodes, (n.kind = .leaf → n.left = 0 ∧ n.right = 0) ∧ (n.kind = .internal → n.sym = 0#8)
  /-- NCOUNT ≤ 511 (R28). -/
  cap : nodes.length ≤ Config.nodeCap
  /-- The heap lists no node twice (R32 (a)). -/
  nodup : heap.Nodup
  /-- The heap lists exactly the INHEAP nodes (R32 (a)). -/
  listed : ∀ i : Nat, i ∈ heap ↔ ∃ n, nodes[i]? = some n ∧ n.own = .inHeap
  /-- Children lie below their parent and differ (R32 (b)). -/
  below : ∀ (i : Nat) (n : Node), nodes[i]? = some n → n.kind = .internal → n.left < i ∧ n.right < i ∧ n.left ≠ n.right
  /-- Children have OWN = CHILD (R32 (b)). -/
  owned : ∀ p c : Nat, IsParent nodes p c → ∃ n, nodes[c]? = some n ∧ n.own = .child
  /-- A CHILD has exactly one parent (R32 (c)). -/
  one : ∀ (c : Nat) (n : Node), nodes[c]? = some n → n.own = .child →
    ∃ p, IsParent nodes p c ∧ ∀ q, IsParent nodes q c → q = p

/-- The heap invariant of R33 under the weights `w`. -/
def HeapOrdered (w : Nat → Nat) (heap : List Nat) : Prop :=
  ∀ j, 0 < j → j < heap.length → w (heapAt heap (parent j)) ≤ w (heapAt heap j)

/-- The weight invariant of R34. -/
def WeightsAdd (nodes : List Node) : Prop :=
  ∀ (i : Nat) (n : Node), nodes[i]? = some n → n.kind = .internal →
    n.weight.toNat = weightIn nodes n.left + weightIn nodes n.right

/-- R32, R33 and R34 of a node store and a heap. -/
structure TreeOk (nodes : List Node) (heap : List Nat) : Prop where
  owned : Owned nodes heap
  ordered : HeapOrdered (weightIn nodes) heap
  weights : WeightsAdd nodes

/-- The validity invariant of R35, with R25's value of ROOT. -/
structure State.Valid (s : State) : Prop where
  /-- ROOTV = 1 implies ROOT < NCOUNT (R35). -/
  root : s.rootv = true → s.root < s.ncount
  /-- ROOT is 0 whenever ROOTV = 0 (R25). -/
  noRoot : s.rootv = false → s.root = 0
  /-- CODETV = 1 implies ROOTV = 1 (R35). -/
  tree : s.codetv = true → s.rootv = true
  /-- CODETV = 1 implies that CODE is what GENCODE would compute from ROOT (R35). -/
  table : s.codetv = true → ∃ t, s.walkRoot = .ok t ∧ s.code = t.table

/-- The memories are in canonical form and list only elements that exist; the sizes are in the ranges of R5. -/
structure State.MemOk (s : State) : Prop where
  freqWf : Memory.wf s.freq
  symWf : Memory.wf s.symmem
  wordWf : Memory.wf s.wordmem
  freqIn : ∀ e ∈ s.freq, e.1 < Config.nSym
  symIn : ∀ e ∈ s.symmem, e.1 < s.symSize
  wordIn : ∀ e ∈ s.wordmem, e.1 < s.wordSize
  symRange : 1 ≤ s.symSize ∧ s.symSize ≤ 65536
  wordRange : 2 ≤ s.wordSize ∧ s.wordSize ≤ 65536

/-- The invariant of HUFTB: R32 to R35, the canonical memories, and no reserved error code (R180, V15). -/
structure State.Inv (s : State) : Prop where
  tree : TreeOk s.nodes s.heap
  valid : s.Valid
  mem : s.MemOk
  err : s.errcode.toNat ≤ 11

/-! ### How a command ends -/

/-- The command completes successfully (R183): it leaves what `t` holds, with RESULT and RESULT1, ERRCODE and ERRINFO 0,
DONE = 1 and BUSY = 0. Written with `t` an update of the start state, it says the frame too. -/
def Completes (i : Instr) (s t : State) (result result1 : Nat) : Prop :=
  exec i s = .next { t with
    result := toWord result, result1 := toWord result1, errcode := 0#8, errinfo := 0#32, done := true, busy := false }

/-- The command completes with an error (R182): ERRCODE, ERRINFO, DONE and BUSY are written and nothing else. -/
def Raises (i : Instr) (s : State) (code : BitVec 8) (info : Nat) : Prop :=
  exec i s = .next { s with errcode := code, errinfo := toWord info, done := true, busy := false }

/-! ### Command words -/

/-- The command word `c` makes the engine run command `i` (R87). -/
def Selects (c : Word) (i : Instr) : Prop :=
  ∀ s : State, s.busy = true → s.cmd = c → engineTurn s = exec i s

/-- The command word `c` completes with IllegalCommand, ERRINFO the whole word, and changes nothing else (R86). -/
def IllegalWord (c : Word) : Prop :=
  ∀ s : State, s.busy = true → s.cmd = c →
    engineTurn s = .next { s with errcode := 5#8, errinfo := c, done := true, busy := false }

/-- Every word with opcode `op` in format F0 (R81): CMD[31:8] must be 0. -/
def FormatF0 (op : Nat) (i : Instr) : Prop :=
  ∀ c : Word, c.toNat % 2 ^ 8 = op → if c.toNat / 2 ^ 8 = 0 then Selects c i else IllegalWord c

/-- Every word with opcode `op` in format FS (R82): the symbol is CMD[15:8], and CMD[31:16] must be 0. -/
def FormatFS (op : Nat) (i : Sym → Instr) : Prop :=
  ∀ c : Word, c.toNat % 2 ^ 8 = op →
    if c.toNat / 2 ^ 16 = 0 then Selects c (i (BitVec.ofNat 8 (c.toNat / 2 ^ 8))) else IllegalWord c

/-- Every word with opcode `op` in format FN (R83): the node index is CMD[16:8], and CMD[31:17] must be 0. -/
def FormatFN (op : Nat) (i : Nat → Instr) : Prop :=
  ∀ c : Word, c.toNat % 2 ^ 8 = op →
    if c.toNat / 2 ^ 17 = 0 then Selects c (i (c.toNat / 2 ^ 8)) else IllegalWord c

/-! ### The heap's paths -/

/-- `parent` applied `k` times to index `j`: the indices `Swim(j)` visits (R101). -/
def ancestor (j : Nat) : (k : Nat) → Nat
  | 0 => j
  | k + 1 => parent (ancestor j k)

/-- The child `Sink` compares with at index `i`: the lighter one, the left one on equal weights (R102). -/
def lighterChild (w : Nat → Nat) (h : List Nat) (i : Nat) : Nat :=
  if 2 * i + 2 < h.length ∧ w (heapAt h (2 * i + 2)) < w (heapAt h (2 * i + 1)) then 2 * i + 2 else 2 * i + 1

/-- `lighterChild` taken `k` times from index `j`: the indices `Sink(j)` visits (R102). -/
def lighterPath (w : Nat → Nat) (h : List Nat) (j : Nat) : (k : Nat) → Nat
  | 0 => j
  | k + 1 => lighterChild w h (lighterPath w h j k)

/-! ### The frequency table -/

/-- Every FREQ entry is specified, and `fs` lists them by symbol (R27). -/
structure FreqIs (s : State) (fs : List Word) : Prop where
  length : fs.length = Config.nSym
  entry : ∀ k : Nat, k < Config.nSym → s.freq.read k = fs[k]?

/-- `k`, the number of non-zero FREQ entries (R126). -/
def symbolCount (fs : List Word) : Nat := fs.countP (fun f => f ≠ 0#32)

/-- The symbols with a non-zero frequency and their frequencies, in ascending symbol order (R126). -/
def symbolRows (fs : List Word) : List (Nat × Word) :=
  ((List.range Config.nSym).zip fs).filter (fun e => e.2 ≠ 0#32)

/-! ### Host accesses -/

/-- A host read at word address `a` takes the block from `s` to `t` (R60, R217): the data stands in `t.rdata`. -/
def HostReads (s : State) (a : Nat) (t : State) : Prop :=
  ∀ c : PortCycle, c.rst = false → c.we = false → c.re = true → c.addr.toNat = a → portCycle c s = .next t

/-- A host write of `v` at word address `a` takes the block from `s` to `t` (R60, R217). -/
def HostWrites (s : State) (a : Nat) (v : Word) (t : State) : Prop :=
  ∀ c : PortCycle, c.rst = false → c.we = true → c.re = false → c.addr.toNat = a → c.wdata = v →
    portCycle c s = .next t

/-- A host read at word address `a` returns the value `v` and changes nothing else. -/
def ReadsValue (s : State) (a : Nat) (v : Word) : Prop := HostReads s a { s with rdata := v }

/-- A host read at word address `a` returns a free value (R66): the next draw, which nothing constrains. -/
def ReadsAnything (s : State) (a : Nat) : Prop :=
  HostReads s a { s with rdata := Config.freeWord s.draws, draws := s.draws + 1 }

/-- The reserved word addresses of R61. -/
def ReservedAddress (s : State) (a : Nat) : Prop :=
  (0x00010 ≤ a ∧ a ≤ 0x00FFF) ∨ (0x01100 ≤ a ∧ a ≤ 0x01FFF) ∨ (0x027FC ≤ a ∧ a ≤ 0x02FFF) ∨
    (0x031FF ≤ a ∧ a ≤ 0x03FFF) ∨ (0x05000 ≤ a ∧ a ≤ 0x0FFFF) ∨
    (0x10000 ≤ a ∧ a ≤ 0x1FFFF ∧ s.symSize ≤ a - 0x10000) ∨
    (0x20000 ≤ a ∧ a ≤ 0x2FFFF ∧ s.wordSize ≤ a - 0x20000) ∨ (0x30000 ≤ a ∧ a ≤ 0x3FFFF)

/-- STATUS as the number R23 gives it. -/
def State.statusNumber (s : State) : Nat :=
  s.busy.toNat + 2 * s.done.toNat + 4 * (s.errcode != 0#8).toNat + 8 * s.haz.toNat + 16 * s.rootv.toNat +
    32 * s.codetv.toNat

/-- Every register has the value R210 gives it, every memory is unspecified, and no interrupt is raised. -/
structure AfterReset (s : State) : Prop where
  ctrl : s.ie = false
  status : s.busy = false ∧ s.done = false ∧ s.haz = false ∧ s.rootv = false ∧ s.codetv = false
  operands : s.cmd = 0#32 ∧ s.arg0 = 0#32 ∧ s.arg1 = 0#32 ∧ s.arg2 = 0#32
  results : s.result = 0#32 ∧ s.result1 = 0#32
  error : s.errcode = 0#8 ∧ s.errinfo = 0#32
  counts : s.root = 0 ∧ s.ncount = 0 ∧ s.hsize = 0
  memories : (∀ k, s.freq.read k = none) ∧ (∀ k, s.symmem.read k = none) ∧ ∀ k, s.wordmem.read k = none
  quiet : s.irq = false

/-! ### Which memory elements a command needs (R211) -/

/-- The input elements R211 asks the host to make specified before the command: all of FREQ before BUILD, the symbols
read before ENCODE, the length word and the payload words before DECODE. Elements that do not exist are not meant. -/
def InputsSpecified (i : Instr) (s : State) : Prop :=
  match i with
  | .build => ∀ k, k < Config.nSym → s.freq.read k ≠ none
  | .encode => ∀ k, k < s.arg1.toNat → s.arg0.toNat + k < s.symSize → s.symmem.read (s.arg0.toNat + k) ≠ none
  | .decode => s.arg0.toNat < s.wordSize → ∃ l : Word, s.wordmem.read s.arg0.toNat = some l ∧
      ∀ m, m < (l.toNat + 31) / 32 → s.arg0.toNat + 1 + m < s.wordSize → s.wordmem.read (s.arg0.toNat + 1 + m) ≠ none
  | .nop | .clr | .frqclr | .mkleaf _ | .hins _ | .hpop | .merge | .setroot _ | .gencode => True

/-! ### Codes and streams -/

/-- The bits of the packed stream at WORDMEM[a] are `bits`: every one of its payload words is specified and holds them
as R151 says. -/
def StreamIs (s : State) (a : Nat) (bits : List Bool) : Prop :=
  ∀ p, p < bits.length →
    ∃ v, s.wordmem.read (a + 1 + p / 32) = some v ∧ v.getLsbD (31 - p % 32) = bits.getD p false

/-- The symbols SYMMEM[a .. a + xs.length − 1] are specified and are `xs`. -/
def SymsAre (s : State) (a : Nat) (xs : List Sym) : Prop :=
  ∀ k (h : k < xs.length), s.symmem.read (a + k) = some xs[k]

/-- The codes of the symbols `xs` in the CODE table, in order: each has CODEV = 1 (R152). -/
def CodesAre (s : State) (xs : List Sym) (codes : List (List Bool)) : Prop :=
  List.Forall₂ (fun x p => s.code[x.toNat]? = some { codev := true, path := p }) xs codes

/-- The tree under ROOT in `u` is the one in `s`: same ROOT and ROOTV, and every node of `s` has its fields but OWN
(R28, R145). -/
structure SameTree (s u : State) : Prop where
  root : u.root = s.root
  rootv : u.rootv = s.rootv
  nodes : ∀ (i : Nat) (n : Node), s.nodes[i]? = some n → ∃ m, u.nodes[i]? = some m ∧ m.shape = n.shape

end Sys2Proof.Machine
end

