-- ==== Sys2Proof/Certificates/Slice0/Obligations.lean ====
section
/-! DEFINITION. The statements for the provers. -/

open Sys2Proof Sys2Proof.Machine

/-! ### Command words (spec/30_encoding.md) -/

/-- Decoding and encoding agree (R80 to R87): the word of every well-formed command decodes to it with every operand,
and every word that decodes is the word of the command it decodes to, so no bit of a word is dropped. -/
def Obligations.DecodeAndEncodeAgree : Prop :=
  (∀ i : Instr, i.WellFormed → decode (encode i) = .ok i) ∧
    ∀ (c : Word) (i : Instr), decode c = .ok i → i.WellFormed ∧ encode i = c

/-- R86, R87: every command word either selects exactly the command of its opcode and format, or completes with
IllegalCommand, ERRINFO the whole word, nothing else changed. -/
def Obligations.EveryWordSelectsOrIsIllegal : Prop :=
  FormatF0 0x00 .nop ∧ FormatF0 0x01 .clr ∧ FormatF0 0x02 .frqclr ∧ FormatFS 0x03 .mkleaf ∧ FormatFN 0x04 .hins ∧
    FormatF0 0x05 .hpop ∧ FormatF0 0x06 .merge ∧ FormatFN 0x07 .setroot ∧ FormatF0 0x08 .build ∧
    FormatF0 0x09 .gencode ∧ FormatF0 0x0A .encode ∧ FormatF0 0x0B .decode ∧
    ∀ c : Word, 0x0C ≤ c.toNat % 2 ^ 8 → IllegalWord c

/-- Words written out in the spec's examples decode to the commands they stand for. -/
def Obligations.WrittenOutWordsDecode : Prop :=
  decode 0x00000000#32 = .ok .nop ∧ decode 0x00000001#32 = .ok .clr ∧ decode 0x00000002#32 = .ok .frqclr ∧
    decode 0x00006103#32 = .ok (.mkleaf 0x61#8) ∧ decode 0x00000904#32 = .ok (.hins 9) ∧
    decode 0x0001FF04#32 = .ok (.hins 511) ∧ decode 0x00000005#32 = .ok .hpop ∧ decode 0x00000006#32 = .ok .merge ∧
    decode 0x00000407#32 = .ok (.setroot 4) ∧ decode 0x00000008#32 = .ok .build ∧
    decode 0x00000009#32 = .ok .gencode ∧ decode 0x0000000A#32 = .ok .encode ∧ decode 0x0000000B#32 = .ok .decode

/-! ### Steps and turns (spec/10_state.md R20, R24) -/

/-- R20: the engine's step executes the command in CMD; while BUSY = 0 the engine takes no step. The turn at the head of
`turns` (the model's own schedule, log 5) is used up. -/
def Obligations.EngineStepRunsTheDecodedCommand : Prop :=
  ∀ (s : State) (ts : List Turn),
    (∀ i, s.busy = true → decode s.cmd = .ok i →
      (s.turns = [] → step s = exec i s) ∧ (s.turns = .engine :: ts → step s = exec i { s with turns := ts })) ∧
    (s.busy = false →
      (s.turns = [] → step s = .next s) ∧ (s.turns = .engine :: ts → step s = .next { s with turns := ts }))

/-- A step whose turn is the host port's is that port cycle (R73, R217; the schedule is the model's, log 5). -/
def Obligations.PortTurnIsOnePortCycle : Prop :=
  ∀ (s : State) (c : PortCycle) (ts : List Turn), s.turns = .port c :: ts →
    step s = portCycle c { s with turns := ts }

/-- R217: both strobes in one cycle are refused, and the machine refuses nothing else. -/
def Obligations.OnlyBothStrobesAreRefused : Prop :=
  (∀ (s : State) (c : PortCycle), c.rst = false → c.we = true → c.re = true →
    portCycle c s = .refused .portConflict) ∧
  ∀ (s : State) (r : Refusal), step s = .refused r →
    r = .portConflict ∧ ∃ c ts, s.turns = .port c :: ts ∧ c.rst = false ∧ c.we = true ∧ c.re = true

/-! ### Reset (spec/70_reset_and_hazards.md) -/

/-- R210 (and R216, for BUSY = 1): reset, of a block with any memory sizes, gives every register its reset value, makes
every memory unspecified and raises no interrupt; ID, SYMCAP and WORDCAP are constants. -/
def Obligations.ResetGivesEveryRegisterItsValue : Prop :=
  (∀ symcap wordcap : Word, AfterReset (State.resetSized symcap wordcap) ∧
    (State.resetSized symcap wordcap).symcap = symcap ∧ (State.resetSized symcap wordcap).wordcap = wordcap ∧
    ReadsValue (State.resetSized symcap wordcap) 0x000 0x48554631#32) ∧
  ∀ (s : State) (c : PortCycle), c.rst = true → c.we = false → c.re = false →
    ∃ t, portCycle c s = .next t ∧ AfterReset t ∧ t.symcap = s.symcap ∧ t.wordcap = s.wordcap ∧
      ReadsValue t 0x000 0x48554631#32

/-- The model's choices where the spec leaves reset open: the sizes are at R5's default in `State.reset` (log 1), `rst`
wins over the strobes of the same cycle (log 7), and a reset leaves the turns to come and the draw counter alone
(log 8). -/
def Obligations.ResetWinsOverStrobes : Prop :=
  State.reset = State.resetSized 65536#32 65536#32 ∧
  ∀ (s : State) (c : PortCycle), c.rst = true →
    ∃ t, portCycle c s = .next t ∧ AfterReset t ∧ t.turns = s.turns ∧ t.draws = s.draws

/-! ### Completion and errors (spec/60_exceptions.md) -/

/-- R182: after an error the state is the start state but for ERRCODE, ERRINFO, DONE = 1 and BUSY = 0. -/
def Obligations.ErrorsChangeNothingElse : Prop :=
  ∀ (i : Instr) (s t : State), exec i s = .next t → t.errcode ≠ 0#8 →
    t = { s with errcode := t.errcode, errinfo := t.errinfo, done := true, busy := false }

/-- The inference of R184 ("re-issuing the same command on the same state raises the same error with the same ERRINFO"):
the same command started again after its error ends in the same state. -/
def Obligations.ReissuedErrorRepeats : Prop :=
  ∀ (i : Instr) (s t : State) (v : Word), exec i s = .next t → t.errcode ≠ 0#8 →
    exec i (t.startCommand v) = .next { t with cmd := v }

/-- R183, R85: a successful completion writes ERRCODE 0, ERRINFO 0, DONE 1, BUSY 0, and results 0 where R85 gives
none. -/
def Obligations.SuccessWritesTheCompletionFields : Prop :=
  ∀ (i : Instr) (s t : State), exec i s = .next t → t.errcode = 0#8 →
    t.errinfo = 0#32 ∧ t.done = true ∧ t.busy = false ∧
      (i = .nop ∨ i = .clr ∨ i = .frqclr → t.result = 0#32 ∧ t.result1 = 0#32) ∧
      ((∃ x, i = .mkleaf x) ∨ (∃ k, i = .setroot k) → t.result1 = 0#32)

/-- R180: which error codes a command's completion can carry. -/
def Obligations.ErrorCodesByCommand : Prop :=
  ∀ (i : Instr) (s t : State), exec i s = .next t →
    t.errcode.toNat ∈ (match i with
      | .nop => [0]
      | .clr => [0]
      | .frqclr => [0]
      | .mkleaf _ => [0, 6]
      | .hins _ => [0, 7, 8]
      | .hpop => [0, 4]
      | .merge => [0, 4, 6, 9]
      | .setroot _ => [0, 7]
      | .build => [0, 1, 9]
      | .gencode => [0, 2]
      | .encode => [0, 2, 3, 10]
      | .decode => [0, 2, 10, 11] : List Nat)

/-- R21, R22, R23, R77: no command writes ARG0 to ARG2, CMD, CTRL, STATUS.HAZ or the capacities. The last three clauses
are the model's choice, not the spec's: `rdata` is held between reads (log 6), and a command leaves the model's own draw
counter (log 4) and turns (log 5) alone. -/
def Obligations.CommandsLeaveTheHostRegisters : Prop :=
  ∀ (i : Instr) (s t : State), exec i s = .next t →
    t.arg0 = s.arg0 ∧ t.arg1 = s.arg1 ∧ t.arg2 = s.arg2 ∧ t.cmd = s.cmd ∧ t.ie = s.ie ∧ t.haz = s.haz ∧
      t.symcap = s.symcap ∧ t.wordcap = s.wordcap ∧ t.rdata = s.rdata ∧ t.draws = s.draws ∧ t.turns = s.turns

/-- R23, R27, R31, R109: which commands write which part of the engine's state. -/
def Obligations.OnlyTheseCommandsWrite : Prop :=
  ∀ (i : Instr) (s t : State), exec i s = .next t →
    (i ≠ .clr → i ≠ .build → (∀ k, i ≠ .setroot k) → t.root = s.root ∧ t.rootv = s.rootv) ∧
    (i ≠ .clr → i ≠ .build → i ≠ .gencode → (∀ k, i ≠ .setroot k) → t.codetv = s.codetv) ∧
    (i ≠ .gencode → t.code = s.code) ∧
    (i ≠ .frqclr → t.freq = s.freq) ∧ (i ≠ .encode → t.wordmem = s.wordmem) ∧ (i ≠ .decode → t.symmem = s.symmem) ∧
    (i ≠ .clr → i ≠ .build → i ≠ .merge → i ≠ .hpop → (∀ k, i ≠ .hins k) → t.heap = s.heap) ∧
    (i ≠ .clr → i ≠ .build → i ≠ .merge → i ≠ .hpop → (∀ k, i ≠ .hins k) → (∀ x, i ≠ .mkleaf x) → t.nodes = s.nodes)

/-- R28: every field of a node but OWN keeps its value until CLR or BUILD frees all nodes. -/
def Obligations.AllocatedNodesAreImmutable : Prop :=
  ∀ (i : Instr) (s t : State), i ≠ .clr → i ≠ .build → exec i s = .next t →
    ∀ (k : Nat) (n : Node), s.nodes[k]? = some n → ∃ m, t.nodes[k]? = some m ∧
      m.kind = n.kind ∧ m.sym = n.sym ∧ m.weight = n.weight ∧ m.left = n.left ∧ m.right = n.right

/-- R190, R191: `irq` is CTRL.IE AND STATUS.DONE: every completion asserts it if it is enabled, masking deasserts it and
keeps DONE, and a STATUS write with bit 1 = 1 or a new command clears it. -/
def Obligations.InterruptFollowsDoneAndEnable : Prop :=
  (∀ s : State, s.irq = (s.ie && s.done)) ∧
  (∀ (i : Instr) (s t : State), exec i s = .next t → t.irq = s.ie) ∧
  (∀ (s t : State) (v : Word), HostWrites s 0x001 v t → t.irq = (v.getLsbD 0 && s.done) ∧ t.done = s.done) ∧
  (∀ (s t : State) (v : Word), HostWrites s 0x002 v t → t.irq = (s.irq && !v.getLsbD 1)) ∧
  ∀ (s t : State) (v : Word), s.busy = false → HostWrites s 0x003 v t → t.irq = false

/-! ### Control commands (spec/45_control.md) -/

/-- R170: NOP. -/
def Obligations.NopOnlyCompletes : Prop :=
  FormatF0 0x00 .nop ∧ ∀ s : State, Completes .nop s s 0 0

/-- R171: CLR. -/
def Obligations.ClrDiscardsTheTree : Prop :=
  FormatF0 0x01 .clr ∧ ∀ s : State,
    Completes .clr s { s with nodes := [], heap := [], root := 0, rootv := false, codetv := false } 0 0

/-- R172: FRQCLR. -/
def Obligations.FrqclrZeroesEveryFrequency : Prop :=
  FormatF0 0x02 .frqclr ∧ ∀ s : State, ∃ freq, Completes .frqclr s { s with freq := freq } 0 0 ∧
    ∀ k, freq.read k = if k < 256 then some 0#32 else s.freq.read k

/-! ### The heap (spec/41_queue.md) -/

/-- R101: `Swim(j)` climbs while the parent is strictly heavier: the elements it passes move down one place, the moved
element ends at the index returned, every other element stays. -/
def Obligations.SwimClimbsPastHeavierParents : Prop :=
  ∀ (w : Nat → Nat) (h : List Nat) (j fuel : Nat), j < h.length → j ≤ fuel →
    ∃ k, (swim w fuel h j).2 = ancestor j k ∧ (swim w fuel h j).1.length = h.length ∧
      heapAt (swim w fuel h j).1 (ancestor j k) = heapAt h j ∧
      (∀ m, m < k → 0 < ancestor j m ∧ w (heapAt h (ancestor j (m + 1))) > w (heapAt h j) ∧
        heapAt (swim w fuel h j).1 (ancestor j m) = heapAt h (ancestor j (m + 1))) ∧
      (ancestor j k = 0 ∨ w (heapAt h (ancestor j (k + 1))) ≤ w (heapAt h j)) ∧
      ∀ q, q < h.length → (∀ m, m ≤ k → q ≠ ancestor j m) → heapAt (swim w fuel h j).1 q = heapAt h q

/-- R102: `Sink(j)` descends to the lighter child, the left one on a tie, while that child is strictly lighter: the
children it passes move up one place, the moved element ends at the index returned, every other element stays. -/
def Obligations.SinkDescendsToTheLighterChild : Prop :=
  ∀ (w : Nat → Nat) (h : List Nat) (j fuel : Nat), j < h.length → h.length ≤ fuel + j →
    ∃ k, (sink w fuel h j).2 = lighterPath w h j k ∧ (sink w fuel h j).1.length = h.length ∧
      heapAt (sink w fuel h j).1 (lighterPath w h j k) = heapAt h j ∧
      (∀ m, m < k → 2 * lighterPath w h j m + 1 < h.length ∧
        w (heapAt h (lighterPath w h j (m + 1))) < w (heapAt h j) ∧
        heapAt (sink w fuel h j).1 (lighterPath w h j m) = heapAt h (lighterPath w h j (m + 1))) ∧
      (h.length ≤ 2 * lighterPath w h j k + 1 ∨ w (heapAt h j) ≤ w (heapAt h (lighterPath w h j (k + 1)))) ∧
      ∀ q, q < h.length → (∀ m, m ≤ k → q ≠ lighterPath w h j m) → heapAt (sink w fuel h j).1 q = heapAt h q

/-- R107: ties. A node stays below an equal-weight parent, a sink stops at an equal-weight child, equal children send it
left, and four inserts of weights 2, 1, 2, 2 come out as B, D, C, A. -/
def Obligations.TiesAreBrokenByTheHeapRules : Prop :=
  (∀ (w : Nat → Nat) (fuel : Nat) (h : List Nat) (j : Nat),
    w (heapAt h (parent j)) = w (heapAt h j) → swim w fuel h j = (h, j)) ∧
  (∀ (w : Nat → Nat) (fuel : Nat) (h : List Nat) (j : Nat),
    w (heapAt h (lighterChild w h j)) = w (heapAt h j) → sink w fuel h j = (h, j)) ∧
  (∀ (w : Nat → Nat) (h : List Nat) (j : Nat),
    w (heapAt h (2 * j + 2)) = w (heapAt h (2 * j + 1)) → lighterChild w h j = 2 * j + 1) ∧
  ∀ (w : Nat → Nat) (a b c d : Nat), w a = 2 → w b = 1 → w c = 2 → w d = 2 →
    ∃ h1 h2 h3 h4 : List Nat,
      h1 = (heapPush w (heapPush w (heapPush w (heapPush w [] a).1 b).1 c).1 d).1 ∧ h2 = heapDrop w h1 ∧
      h3 = heapDrop w h2 ∧ h4 = heapDrop w h3 ∧ heapDrop w h4 = [] ∧
      heapAt h1 0 = b ∧ heapAt h2 0 = d ∧ heapAt h3 0 = c ∧ heapAt h4 0 = a

/-- R108: the heap never overflows. -/
def Obligations.HeapNeverOverflows : Prop :=
  ∀ s : State, TreeOk s.nodes s.heap →
    s.hsize ≤ s.ncount ∧ s.ncount ≤ 511 ∧
      ∀ (i : Nat) (n : Node), s.nodes[i]? = some n → n.own = .free → s.hsize + 1 ≤ s.ncount ∧ s.hsize < 511

/-- R105 with R103: HINS. The node is appended, marked INHEAP and swum up; RESULT is the new size and RESULT1 the node's
final heap index. -/
def Obligations.HinsInsertsAFreeNode : Prop :=
  FormatFN 0x04 .hins ∧ ∀ (s : State) (i : Nat),
    (s.ncount ≤ i → Raises (.hins i) s 7#8 i) ∧
    ∀ n : Node, s.nodes[i]? = some n →
      (n.own ≠ .free → Raises (.hins i) s 8#8 i) ∧
      (n.own = .free → TreeOk s.nodes s.heap →
        Completes (.hins i) s
          { s with
            nodes := s.nodes.set i { n with own := .inHeap }
            heap := (swim s.W s.hsize (s.heap ++ [i]) s.hsize).1 }
          (s.hsize + 1) (swim s.W s.hsize (s.heap ++ [i]) s.hsize).2)

/-- R106 with R104: HPOP. The root element leaves the heap and becomes FREE; no element is lighter; the last element
moves to the root and sinks. -/
def Obligations.HpopReturnsTheMinimum : Prop :=
  FormatF0 0x05 .hpop ∧ ∀ s : State,
    (s.hsize = 0 → Raises .hpop s 4#8 0) ∧
    (s.hsize ≠ 0 → TreeOk s.nodes s.heap →
      ∃ (r : Nat) (n : Node) (heap : List Nat), s.heap[0]? = some r ∧ s.nodes[r]? = some n ∧
        Completes .hpop s { s with nodes := s.nodes.set r { n with own := .free }, heap := heap } r (s.W r) ∧
        (∀ i ∈ s.heap, s.W r ≤ s.W i) ∧ (r :: heap).Perm s.heap ∧
        heap = if s.hsize = 1 then []
          else (sink s.W (s.hsize - 1) (s.heap.dropLast.set 0 (heapAt s.heap (s.hsize - 1))) 0).1)

/-! ### The tree builder (spec/42_tree.md) -/

/-- R123 with R120: MKLEAF. -/
def Obligations.MkleafAllocatesAFreeLeaf : Prop :=
  FormatFS 0x03 .mkleaf ∧ ∀ (s : State) (x : Sym),
    (s.ncount = 511 → Raises (.mkleaf x) s 6#8 511) ∧
    (s.ncount ≠ 511 → Completes (.mkleaf x) s
      { s with nodes := s.nodes ++ [⟨.leaf, x, s.arg0, 0, 0, .free⟩] } s.ncount 0)

/-- R124 with R121, R122: MERGE. The two lightest nodes become the children of a new internal node, the first popped on
the left, and the new node goes into the heap; the checks come in order and an error undoes the pops. -/
def Obligations.MergeCombinesTheTwoMinima : Prop :=
  FormatF0 0x06 .merge ∧ ∀ s : State, TreeOk s.nodes s.heap →
    (s.hsize < 2 → Raises .merge s 4#8 s.hsize) ∧
    (2 ≤ s.hsize → s.ncount = 511 → Raises .merge s 6#8 511) ∧
    (2 ≤ s.hsize → s.ncount ≠ 511 →
      ∃ (l r : Nat) (h1 h2 : List Nat),
        l = heapAt s.heap 0 ∧ h1 = heapDrop s.W s.heap ∧ r = heapAt h1 0 ∧ h2 = heapDrop s.W h1 ∧
        l ≠ r ∧ (l :: r :: h2).Perm s.heap ∧ s.W l ≤ s.W r ∧ (∀ i ∈ h2, s.W r ≤ s.W i) ∧
        (2 ^ 32 - 1 < s.W l + s.W r → Raises .merge s 9#8 (r * 2 ^ 16 + l)) ∧
        (s.W l + s.W r ≤ 2 ^ 32 - 1 →
          Completes .merge s
            { s with
              nodes := setOwn (setOwn s.nodes l .child) r .child ++
                [⟨.internal, 0#8, toWord (s.W l + s.W r), l, r, .inHeap⟩]
              heap := (swim (fun i => if i = s.ncount then s.W l + s.W r else s.W i) h2.length
                (h2 ++ [s.ncount]) h2.length).1 }
            s.ncount (s.W l + s.W r)))

/-- R125: SETROOT. -/
def Obligations.SetrootNamesAnAllocatedNode : Prop :=
  FormatFN 0x07 .setroot ∧ ∀ (s : State) (i : Nat),
    (s.ncount ≤ i → Raises (.setroot i) s 7#8 i) ∧
    (i < s.ncount → Completes (.setroot i) s { s with root := i, rootv := true, codetv := false } i 0)

/-- R126: BUILD, line by line: the two checks, the clearing, the seeding in ascending symbol order, the merge loop while
HSIZE > 1, and the final pop that gives ROOT. -/
def Obligations.BuildFollowsItsProcedure : Prop :=
  FormatF0 0x08 .build ∧ ∀ (s : State) (fs : List Word), FreqIs s fs →
    (symbolCount fs = 0 → Raises .build s 1#8 0) ∧
    (symbolCount fs ≠ 0 → 2 ^ 32 - 1 < freqTotal fs → Raises .build s 9#8 0) ∧
    (symbolCount fs ≠ 0 → freqTotal fs ≤ 2 ^ 32 - 1 →
      ∃ (seed loop : Nat → State) (merges : Nat),
        seed 0 = { s with nodes := [], heap := [], root := 0, rootv := false, codetv := false } ∧
        (∀ (x : Nat) (f : Word), fs[x]? = some f → seed (x + 1) =
          if f = 0#32 then seed x else ((seed x).newLeaf (BitVec.ofNat 8 x) f).heapInsert (seed x).ncount) ∧
        loop 0 = seed 256 ∧
        (∀ m, m < merges → 1 < (loop m).hsize ∧ ∃ n, (loop m).mergeStep = .ok (loop (m + 1), n)) ∧
        (loop merges).hsize = 1 ∧
        Completes .build s
          { (loop merges).heapPop with root := (loop merges).heapMin, rootv := true, codetv := false }
          (loop merges).heapMin (loop merges).ncount)

/-- R127: what BUILD leaves, for `k` non-zero frequencies: 2k − 1 nodes, the root the last of them with the sum of the
frequencies as its weight, an empty heap, every other node a CHILD, a leaf for each symbol in ascending order. -/
def Obligations.BuildLeavesOneFullTree : Prop :=
  ∀ (s : State) (fs : List Word) (k : Nat), FreqIs s fs → k = symbolCount fs → 1 ≤ k → freqTotal fs ≤ 2 ^ 32 - 1 →
    ∃ nodes : List Node,
      Completes .build s
        { s with nodes := nodes, heap := [], root := 2 * k - 2, rootv := true, codetv := false } (2 * k - 2) (2 * k - 1) ∧
      nodes.length = 2 * k - 1 ∧ weightIn nodes (2 * k - 2) = freqTotal fs ∧
      (∀ (i : Nat) (n : Node), nodes[i]? = some n → n.own = if i = 2 * k - 2 then .free else .child) ∧
      TreeOk nodes [] ∧
      (nodes.take k).map (fun n => (n.kind, n.sym.toNat, n.weight)) =
        (symbolRows fs).map (fun e => (Kind.leaf, e.1, e.2)) ∧
      ∀ n ∈ nodes.drop k, n.kind = .internal

/-- R128: the nodes and the root BUILD leaves depend on FREQ alone. -/
def Obligations.BuildDependsOnFrequenciesAlone : Prop :=
  ∀ s u t : State, (∀ k, k < 256 → u.freq.read k = s.freq.read k) → exec .build s = .next t → t.errcode = 0#8 →
    ∃ v, exec .build u = .next v ∧ v.errcode = 0#8 ∧ v.nodes = t.nodes ∧ v.root = t.root

/-! ### Code generation (spec/43_codegen.md) -/

/-- R140, R141, R142: GENCODE. Every leaf under ROOT gives its symbol the steps from ROOT to it, every other symbol has
no code, RESULT counts the leaves and RESULT1 is the greatest length; the first repeated symbol in preorder is an error. -/
def Obligations.GencodeRecordsThePaths : Prop :=
  FormatF0 0x09 .gencode ∧ ∀ s : State,
    (s.rootv = false → Raises .gencode s 2#8 0) ∧
    (s.rootv = true → TreeOk s.nodes s.heap → s.root < s.ncount →
      (∀ x : Sym, FirstDuplicate s.nodes s.root x → Raises .gencode s 2#8 (0x100 + x.toNat)) ∧
      ((∀ x : Sym, ¬ FirstDuplicate s.nodes s.root x) →
        NoDuplicateSymbol s.nodes s.root ∧
        ∃ (code : List CodeEntry) (leaves longest : Nat),
          Completes .gencode s { s with code := code, codetv := true } leaves longest ∧ code.length = 256 ∧
          (∀ (p : List Bool) (x : Sym), LeafAt s.nodes s.root p x →
            code[x.toNat]? = some { codev := true, path := p }) ∧
          (∀ x : Sym, (∀ p, ¬ LeafAt s.nodes s.root p x) → code[x.toNat]? = some { codev := false, path := [] }) ∧
          leaves = code.countP (fun e => e.codev) ∧
          (∀ (p : List Bool) (x : Sym), LeafAt s.nodes s.root p x → p.length ≤ longest) ∧
          ∃ (p : List Bool) (x : Sym), LeafAt s.nodes s.root p x ∧ p.length = longest))

/-- R143: no node lies more than 255 steps below another, so every LEN fits its 8 bits. -/
def Obligations.CodesHaveAtMost255Bits : Prop :=
  ∀ s : State, s.Inv →
    (∀ (n i : Nat) (p : List Bool), follow s.nodes n p = some i → p.length ≤ 255) ∧
      (s.codetv = true → s.code.length = 256 ∧ ∀ e ∈ s.code, e.path.length ≤ 255)

/-- R144: after a successful GENCODE no valid code is a prefix of another symbol's valid code. -/
def Obligations.CodesArePrefixFree : Prop :=
  ∀ (s t : State), exec .gencode s = .next t → t.errcode = 0#8 →
    ∀ (x y : Sym) (p q : List Bool), t.code[x.toNat]? = some { codev := true, path := p } →
      t.code[y.toNat]? = some { codev := true, path := q } → p <+: q → x = y

/-- R145: GENCODE on the same tree gives the same table and results, whatever else changed in between. -/
def Obligations.GencodeIsIdempotent : Prop :=
  ∀ (s t u : State), exec .gencode s = .next t → t.errcode = 0#8 → SameTree t u →
    ∃ v, exec .gencode u = .next v ∧ v.errcode = 0#8 ∧ v.code = t.code ∧ v.result = t.result ∧ v.result1 = t.result1

/-- R146: GENCODE right after BUILD succeeds and gives a code to exactly the symbols with a non-zero frequency. -/
def Obligations.NoDuplicatesAfterBuild : Prop :=
  ∀ (s t : State) (fs : List Word) (w : Word), FreqIs s fs → exec .build s = .next t → t.errcode = 0#8 →
    ∃ u, exec .gencode (t.startCommand w) = .next u ∧ u.errcode = 0#8 ∧
      ∀ (x : Sym) (f : Word), fs[x.toNat]? = some f → ∃ e, u.code[x.toNat]? = some e ∧ (e.codev = true ↔ f ≠ 0#32)

/-! ### The packed-word encoder and decoder (spec/44_packed.md) -/

/-- A successful ENCODE (R152, in the format of R150 and R151). WORDMEM[ARG2] is the total bit count, the payload words
hold the codes in input order, first bit at bit 31, zero padded, and every other element of WORDMEM is as before. That the
loop of R152 leaves this is the spec's own inference (R153, R154, R158). -/
def Obligations.EncodeWritesThePackedBuffer : Prop :=
  ∀ (s : State) (xs : List Sym) (codes : List (List Bool)) (b t wn : Nat),
    xs.length = s.arg1.toNat → (xs ≠ [] → s.codetv = true ∧ s.arg0.toNat + xs.length ≤ s.symSize) →
    SymsAre s s.arg0.toNat xs → CodesAre s xs codes →
    b = s.arg2.toNat → t = codes.flatten.length → wn = max 1 ((t + 31) / 32) → b + wn + 1 ≤ s.wordSize →
    ∃ wordmem : Memory 32,
      Completes .encode s { s with wordmem := wordmem } t wn ∧
      wordmem.read b = some (toWord t) ∧
      (∀ m p, m < wn → p < 32 →
        ∃ v : Word, wordmem.read (b + 1 + m) = some v ∧ v.getLsbD (31 - p) = codes.flatten.getD (32 * m + p) false) ∧
      ∀ j, (j < b ∨ b + wn < j) → wordmem.read j = s.wordmem.read j

/-- R152, R185: the errors of ENCODE in their order, each leaving everything else as it was. -/
def Obligations.EncodeChecksInOrder : Prop :=
  FormatF0 0x0A .encode ∧ ∀ s : State,
    (0 < s.arg1.toNat → s.codetv = false → Raises .encode s 2#8 0) ∧
    (0 < s.arg1.toNat → s.codetv = true → s.symSize < s.arg0.toNat + s.arg1.toNat → Raises .encode s 10#8 0) ∧
    (∀ (xs : List Sym) (codes : List (List Bool)) (x : Sym) (e : CodeEntry),
      s.codetv = true → s.arg0.toNat + s.arg1.toNat ≤ s.symSize → xs.length < s.arg1.toNat →
      SymsAre s s.arg0.toNat (xs ++ [x]) → CodesAre s xs codes → s.code[x.toNat]? = some e → e.codev = false →
      Raises .encode s 3#8 xs.length) ∧
    ∀ (xs : List Sym) (codes : List (List Bool)),
      xs.length = s.arg1.toNat → (xs ≠ [] → s.codetv = true ∧ s.arg0.toNat + xs.length ≤ s.symSize) →
      SymsAre s s.arg0.toNat xs → CodesAre s xs codes →
      s.wordSize < s.arg2.toNat + max 1 ((codes.flatten.length + 31) / 32) + 1 → Raises .encode s 10#8 2

/-- R6: no ENCODE produces more than 16,711,680 bits, so RESULT and the length word are the exact bit count. -/
def Obligations.EncodeBitCountNeverWraps : Prop :=
  ∀ (s t : State), s.Inv → exec .encode s = .next t → t.errcode = 0#8 →
    t.result.toNat ≤ 16711680 ∧ t.wordmem.read s.arg2.toNat = some t.result ∧
      ∃ (xs : List Sym) (codes : List (List Bool)), xs.length = s.arg1.toNat ∧ SymsAre s s.arg0.toNat xs ∧
        CodesAre s xs codes ∧ t.result.toNat = (codes.map List.length).sum

/-- R155, R156: DECODE of a stream that is the codes of `xs` under an internal ROOT emits `xs` at SYMMEM[ARG2], whatever
ARG1 is, and every other element of SYMMEM is as before. -/
def Obligations.DecodeEmitsTheCodedSymbols : Prop :=
  ∀ (s : State) (n : Node) (l : Word) (xs : List Sym) (codes : List (List Bool)),
    s.rootv = true → s.nodes[s.root]? = some n → n.kind = .internal →
    List.Forall₂ (fun x p => LeafAt s.nodes s.root p x) xs codes →
    s.wordmem.read s.arg0.toNat = some l → l.toNat = codes.flatten.length → xs ≠ [] →
    s.arg0.toNat + (l.toNat + 31) / 32 < s.wordSize → StreamIs s s.arg0.toNat codes.flatten →
    s.arg2.toNat + xs.length ≤ s.symSize →
    ∃ symmem : Memory 8,
      Completes .decode s { s with symmem := symmem } xs.length l.toNat ∧
      ∀ j, symmem.read j =
        if s.arg2.toNat ≤ j ∧ j < s.arg2.toNat + xs.length then xs[j - s.arg2.toNat]? else s.symmem.read j

/-- R155: DECODE of an empty stream emits ARG1 copies of a single-leaf ROOT's symbol, and nothing otherwise. -/
def Obligations.DecodeOfNoBitsRepeatsASingleLeaf : Prop :=
  ∀ s : State, s.arg0.toNat < s.wordSize → s.wordmem.read s.arg0.toNat = some 0#32 →
    (s.rootv = false → (s.symSize < s.arg2.toNat → Raises .decode s 10#8 2) ∧
      (s.arg2.toNat ≤ s.symSize → Completes .decode s s 0 0)) ∧
    ∀ n : Node, s.nodes[s.root]? = some n → s.rootv = true →
      (n.kind = .internal → (s.symSize < s.arg2.toNat → Raises .decode s 10#8 2) ∧
        (s.arg2.toNat ≤ s.symSize → Completes .decode s s 0 0)) ∧
      (n.kind = .leaf →
        (s.symSize < s.arg2.toNat + s.arg1.toNat → Raises .decode s 10#8 2) ∧
        (s.arg2.toNat + s.arg1.toNat ≤ s.symSize → ∃ symmem : Memory 8,
          Completes .decode s { s with symmem := symmem } s.arg1.toNat 0 ∧
          ∀ j, symmem.read j =
            if s.arg2.toNat ≤ j ∧ j < s.arg2.toNat + s.arg1.toNat then some n.sym else s.symmem.read j))

/-- R155, R185: the errors of DECODE in their order, each leaving everything else as it was. -/
def Obligations.DecodeChecksInOrder : Prop :=
  FormatF0 0x0B .decode ∧ ∀ s : State,
    (s.wordSize ≤ s.arg0.toNat → Raises .decode s 10#8 0) ∧
    ∀ l : Word, s.arg0.toNat < s.wordSize → s.wordmem.read s.arg0.toNat = some l → l ≠ 0#32 →
      (s.rootv = false → Raises .decode s 2#8 0) ∧
      (s.rootv = true → s.wordSize ≤ s.arg0.toNat + (l.toNat + 31) / 32 → Raises .decode s 10#8 0) ∧
      ∀ n : Node, s.nodes[s.root]? = some n → s.rootv = true → s.arg0.toNat + (l.toNat + 31) / 32 < s.wordSize →
        (n.kind = .leaf → Raises .decode s 11#8 0) ∧
        (n.kind = .internal → ∀ (xs : List Sym) (codes : List (List Bool)) (tail : List Bool),
          List.Forall₂ (fun x p => LeafAt s.nodes s.root p x) xs codes →
          l.toNat = (codes.flatten ++ tail).length → StreamIs s s.arg0.toNat (codes.flatten ++ tail) →
          (∀ (i : Nat) (m : Node), tail ≠ [] → follow s.nodes s.root tail = some i → s.nodes[i]? = some m →
            m.kind = .internal → Raises .decode s 11#8 codes.flatten.length) ∧
          (tail = [] → s.symSize < s.arg2.toNat + xs.length → Raises .decode s 10#8 2))

/-- R157: payload bits at and after the length never affect DECODE. -/
def Obligations.DecodeIgnoresPadding : Prop :=
  ∀ (s t : State) (l : Word) (wordmem : Memory 32),
    s.wordmem.read s.arg0.toNat = some l → wordmem.read s.arg0.toNat = some l →
    (∀ p, p < l.toNat →
      (wordmem.read (s.arg0.toNat + 1 + p / 32)).map (fun v => v.getLsbD (31 - p % 32)) =
        (s.wordmem.read (s.arg0.toNat + 1 + p / 32)).map (fun v => v.getLsbD (31 - p % 32))) →
    exec .decode s = .next t → exec .decode { s with wordmem := wordmem } = .next { t with wordmem := wordmem }

/-- R159: the round trip. After a successful ENCODE of N symbols at `b`, a later DECODE of the buffer at `b` with repeat
count N, with the tree and the buffer as they were, gives the N symbols back. -/
def Obligations.DecodeInvertsEncode : Prop :=
  ∀ (s t u : State) (xs : List Sym), s.Inv → s.codetv = true → exec .encode s = .next t → t.errcode = 0#8 →
    xs.length = s.arg1.toNat → SymsAre s s.arg0.toNat xs →
    SameTree t u → u.wordcap = t.wordcap → u.arg0 = s.arg2 → u.arg1 = s.arg1 →
    (∀ j, s.arg2.toNat ≤ j → j ≤ s.arg2.toNat + t.result1.toNat → u.wordmem.read j = t.wordmem.read j) →
    u.arg2.toNat + xs.length ≤ u.symSize →
    ∃ symmem : Memory 8, Completes .decode u { u with symmem := symmem } xs.length t.result.toNat ∧
      ∀ j, symmem.read j =
        if u.arg2.toNat ≤ j ∧ j < u.arg2.toNat + xs.length then xs[j - u.arg2.toNat]? else u.symmem.read j

/-! ### Engine reads (spec/20_memory.md R66, spec/70_reset_and_hazards.md R211, R214) -/

/-- R66, R189: an engine read of unspecified contents is the model fault UnspecifiedRead, at the first element the
command reads that has no contents. -/
def Obligations.UnspecifiedInputsFault : Prop :=
  (∀ (s : State) (k : Nat), k < 256 → s.freq.read k = none → (∀ j, j < k → s.freq.read j ≠ none) →
    exec .build s = .fault (.unspecifiedRead .freq k)) ∧
  (∀ (s : State) (xs : List Sym) (codes : List (List Bool)), s.codetv = true →
    s.arg0.toNat + s.arg1.toNat ≤ s.symSize → xs.length < s.arg1.toNat → SymsAre s s.arg0.toNat xs →
    CodesAre s xs codes → s.symmem.read (s.arg0.toNat + xs.length) = none →
    exec .encode s = .fault (.unspecifiedRead .symmem (s.arg0.toNat + xs.length))) ∧
  (∀ s : State, s.arg0.toNat < s.wordSize → s.wordmem.read s.arg0.toNat = none →
    exec .decode s = .fault (.unspecifiedRead .wordmem s.arg0.toNat)) ∧
  ∀ (s : State) (n : Node) (l : Word) (bits : List Bool) (m : Nat), TreeOk s.nodes s.heap → s.rootv = true →
    s.nodes[s.root]? = some n → n.kind = .internal → s.wordmem.read s.arg0.toNat = some l →
    s.arg0.toNat + (l.toNat + 31) / 32 < s.wordSize → StreamIs s s.arg0.toNat bits → bits.length = 32 * m →
    32 * m < l.toNat → s.wordmem.read (s.arg0.toNat + 1 + m) = none →
    exec .decode s = .fault (.unspecifiedRead .wordmem (s.arg0.toNat + 1 + m))

/-- R66: from a state that keeps the invariants, a step faults only by reading an element of FREQ, SYMMEM or WORDMEM that
has no contents. -/
def Obligations.OnlyInputMemoriesFault : Prop :=
  ∀ (s : State) (f : Fault), s.Inv → step s = .fault f →
    (∃ k, k < 256 ∧ s.freq.read k = none ∧ f = .unspecifiedRead .freq k) ∨
    (∃ k, k < s.symSize ∧ s.symmem.read k = none ∧ f = .unspecifiedRead .symmem k) ∨
    ∃ k, k < s.wordSize ∧ s.wordmem.read k = none ∧ f = .unspecifiedRead .wordmem k

/-- R211, R214: from a state that keeps the invariants, with the inputs R211 lists specified, every command completes in
its one engine step, and BUSY returns to 0. -/
def Obligations.EveryCommandCompletes : Prop :=
  ∀ (i : Instr) (s : State), s.Inv → InputsSpecified i s →
    ∃ t, exec i s = .next t ∧ t.busy = false ∧ t.done = true

/-! ### Invariants (spec/10_state.md R32 to R35, spec/41_queue.md R109) -/

/-- The invariants hold after reset, for every memory size R5 allows. -/
def Obligations.InvariantsHoldAfterReset : Prop :=
  ∀ symcap wordcap : Word, 1 ≤ symcap.toNat → symcap.toNat ≤ 65536 → 2 ≤ wordcap.toNat → wordcap.toNat ≤ 65536 →
    (State.resetSized symcap wordcap).Inv

/-- R32, R33, R34, R35, R109: every step keeps the invariants. -/
def Obligations.EveryStepKeepsTheInvariants : Prop :=
  ∀ s t : State, s.Inv → step s = .next t → t.Inv

/-! ### The host port (spec/10_state.md, spec/20_memory.md) -/

/-- The register table of spec/10_state.md as the host reads it while BUSY = 0 (R22, R23, R25). -/
def Obligations.RegistersReadAsTheTableSays : Prop :=
  ∀ s : State, s.busy = false →
    ReadsValue s 0x000 0x48554631#32 ∧ ReadsValue s 0x001 (toWord s.ie.toNat) ∧
    ReadsValue s 0x002 (toWord s.statusNumber) ∧ ReadsValue s 0x003 s.cmd ∧ ReadsValue s 0x004 s.arg0 ∧
    ReadsValue s 0x005 s.arg1 ∧ ReadsValue s 0x006 s.arg2 ∧ ReadsValue s 0x007 s.result ∧
    ReadsValue s 0x008 s.result1 ∧ ReadsValue s 0x009 (toWord s.errcode.toNat) ∧ ReadsValue s 0x00A s.errinfo ∧
    ReadsValue s 0x00B (toWord s.root) ∧ ReadsValue s 0x00C (toWord s.ncount) ∧ ReadsValue s 0x00D (toWord s.hsize) ∧
    ReadsValue s 0x00E s.symcap ∧ ReadsValue s 0x00F s.wordcap

/-- R21, R22, R23, R24: what a host write to a writable register does. -/
def Obligations.RegisterWrites : Prop :=
  ∀ (s : State) (v : Word),
    HostWrites s 0x001 v { s with ie := v.getLsbD 0 } ∧
    HostWrites s 0x002 v { s with done := s.done && !v.getLsbD 1, haz := s.haz && !v.getLsbD 3 } ∧
    (s.busy = false →
      HostWrites s 0x003 v { s with cmd := v, done := false, busy := true } ∧
      HostWrites s 0x004 v { s with arg0 := v } ∧ HostWrites s 0x005 v { s with arg1 := v } ∧
      HostWrites s 0x006 v { s with arg2 := v })

/-- R62 with R66: the windows while BUSY = 0. A read of FREQ, HEAP, SYMMEM or WORDMEM returns the element, or a free value
where it is unspecified; a write sets the one element; writes to NODE, HEAP and CODE are ignored. -/
def Obligations.MemoryWindows : Prop :=
  ∀ (s : State) (k : Nat), s.busy = false →
    (k < 256 →
      (∀ f, s.freq.read k = some f → ReadsValue s (0x01000 + k) f) ∧
      (s.freq.read k = none → ReadsAnything s (0x01000 + k)) ∧
      ∀ v, ∃ freq : Memory 32, HostWrites s (0x01000 + k) v { s with freq := freq } ∧
        ∀ j, freq.read j = if j = k then some v else s.freq.read j) ∧
    (k < 511 →
      (∀ i, s.heap[k]? = some i → ReadsValue s (0x03000 + k) (toWord i)) ∧
      (s.hsize ≤ k → ReadsAnything s (0x03000 + k)) ∧ ∀ v, HostWrites s (0x03000 + k) v s) ∧
    (k < 0x7FC → ∀ v, HostWrites s (0x02000 + k) v s) ∧ (k < 0x1000 → ∀ v, HostWrites s (0x04000 + k) v s) ∧
    (k < s.symSize → k < 65536 →
      (∀ x : Sym, s.symmem.read k = some x → ReadsValue s (0x10000 + k) (toWord x.toNat)) ∧
      (s.symmem.read k = none → ReadsAnything s (0x10000 + k)) ∧
      ∀ v : Word, ∃ symmem : Memory 8, HostWrites s (0x10000 + k) v { s with symmem := symmem } ∧
        ∀ j, symmem.read j = if j = k then some (BitVec.ofNat 8 v.toNat) else s.symmem.read j) ∧
    (k < s.wordSize → k < 65536 →
      (∀ v, s.wordmem.read k = some v → ReadsValue s (0x20000 + k) v) ∧
      (s.wordmem.read k = none → ReadsAnything s (0x20000 + k)) ∧
      ∀ v, ∃ wordmem : Memory 32, HostWrites s (0x20000 + k) v { s with wordmem := wordmem } ∧
        ∀ j, wordmem.read j = if j = k then some v else s.wordmem.read j)

/-- R63: the node window while BUSY = 0. -/
def Obligations.NodeWindowLayout : Prop :=
  ∀ (s : State) (i : Nat), s.busy = false → i < 511 →
    (∀ n : Node, s.nodes[i]? = some n → n.left < 512 → n.right < 512 →
      ReadsValue s (0x02000 + 4 * i) (toWord
        ((match n.kind with | .leaf => 0 | .internal => 1) * 2 ^ 31 +
          (match n.own with | .free => 0 | .inHeap => 1 | .child => 2) * 2 ^ 29 + n.sym.toNat)) ∧
      ReadsValue s (0x02000 + 4 * i + 1) n.weight ∧
      ReadsValue s (0x02000 + 4 * i + 2) (toWord (n.right * 2 ^ 16 + n.left)) ∧
      ReadsValue s (0x02000 + 4 * i + 3) 0#32) ∧
    (s.ncount ≤ i → ∀ w, w < 4 → ReadsAnything s (0x02000 + 4 * i + w))

/-- R64: the code window while BUSY = 0. -/
def Obligations.CodeWindowLayout : Prop :=
  ∀ (s : State) (x : Nat), s.busy = false → x < 256 →
    (s.codetv = false → ∀ w, w < 16 → ReadsAnything s (0x04000 + 16 * x + w)) ∧
    (s.codetv = true → ∀ e : CodeEntry, s.code[x]? = some e → e.path.length ≤ 255 →
      ReadsValue s (0x04000 + 16 * x) (toWord (e.codev.toNat * 2 ^ 31 + e.path.length)) ∧
      (∀ w, 1 ≤ w → w ≤ 8 → ∃ v : Word, ReadsValue s (0x04000 + 16 * x + w) v ∧
        ∀ t, t < 32 → v.getLsbD (31 - t) = e.path.getD (32 * (w - 1) + t) false) ∧
      ∀ w, 9 ≤ w → w ≤ 15 → ReadsValue s (0x04000 + 16 * x + w) 0#32)

/-- R65: reserved addresses read 0 and ignore writes, reserved register bits read 0, and writes to read-only registers
and windows change nothing. -/
def Obligations.ReservedAndReadOnlyLocations : Prop :=
  ∀ (s : State) (a : Nat) (v : Word), s.busy = false →
    (ReservedAddress s a → ReadsValue s a 0#32 ∧ HostWrites s a v s) ∧
    (a = 0x000 ∨ (0x007 ≤ a ∧ a ≤ 0x00F) ∨ (0x02000 ≤ a ∧ a < 0x027FC) ∨ (0x03000 ≤ a ∧ a < 0x031FF) ∨
      (0x04000 ≤ a ∧ a < 0x05000) → HostWrites s a v s) ∧
    (s.Inv → ∀ t : State,
      (HostReads s 0x001 t → t.rdata.toNat < 2) ∧ (HostReads s 0x002 t → t.rdata.toNat < 64) ∧
      (HostReads s 0x009 t → t.rdata.toNat < 256) ∧ (HostReads s 0x00B t → t.rdata.toNat < 512) ∧
      (HostReads s 0x00C t → t.rdata.toNat < 1024) ∧ (HostReads s 0x00D t → t.rdata.toNat < 1024))

/-- R70: a host read changes nothing but the read data (and the model's draw counter), except that a forbidden read while
BUSY = 1 sets HAZ. -/
def Obligations.HostReadsHaveNoOtherEffect : Prop :=
  ∀ (s : State) (c : PortCycle), c.rst = false → c.we = false → c.re = true →
    ∃ (v : Word) (n : Nat), portCycle c s =
      .next { s with rdata := v, draws := n, haz := s.haz || (s.busy && decide (2 < c.addr.toNat)) }

/-- R212: the busy hazard. While BUSY = 1 the host may read ID, CTRL and STATUS and write CTRL and STATUS; any other access
only sets HAZ (a read returns a free value), and the command in progress completes as it would have. -/
def Obligations.BusyAccessesOnlySetHaz : Prop :=
  ∀ s : State, s.busy = true →
    (ReadsValue s 0x000 0x48554631#32 ∧ ReadsValue s 0x001 (toWord s.ie.toNat) ∧
      ReadsValue s 0x002 (toWord s.statusNumber)) ∧
    (∀ v : Word, HostWrites s 0x001 v { s with ie := v.getLsbD 0 } ∧
      HostWrites s 0x002 v { s with done := s.done && !v.getLsbD 1, haz := s.haz && !v.getLsbD 3 }) ∧
    (∀ a, 2 < a → HostReads s a { s with rdata := Config.freeWord s.draws, draws := s.draws + 1, haz := true }) ∧
    (∀ (a : Nat) (v : Word), a ≠ 1 → a ≠ 2 → HostWrites s a v { s with haz := true }) ∧
    ∀ (i : Instr) (t : State) (ie done haz : Bool) (rdata : Word) (draws : Nat), exec i s = .next t →
      exec i { s with ie := ie, done := done, haz := haz, rdata := rdata, draws := draws } =
        .next { t with ie := ie, haz := haz, rdata := rdata, draws := draws }
end

