-- ==== Sys2Proof/Laws/Heap.lean ====
section
/-! SUPPORT. The heap procedures of R100 to R104: they permute the heap and keep it ordered (R33, R109). -/

namespace Sys2Proof.Machine

/-! ### Indices and swaps -/

theorem parent_lt {j : Nat} (h : 0 < j) : parent j < j := by unfold parent; omega

theorem parent_eq_iff {j k : Nat} (h : 0 < k) : parent k = j ↔ k = lchild j ∨ k = rchild j := by
  unfold parent lchild rchild; omega

theorem lt_lchild (j : Nat) : j < lchild j := by unfold lchild; omega

theorem lchild_lt_rchild (j : Nat) : lchild j < rchild j := by unfold lchild rchild; omega

theorem parent_lchild (j : Nat) : parent (lchild j) = j := by unfold parent lchild; omega

theorem parent_rchild (j : Nat) : parent (rchild j) = j := by unfold parent rchild; omega

theorem heapAt_eq_getElem {h : List Nat} {j : Nat} (hj : j < h.length) : heapAt h j = h[j] := by
  simp [heapAt, hj]

theorem heapAt_mem {h : List Nat} {j : Nat} (hj : j < h.length) : heapAt h j ∈ h := by
  rw [heapAt_eq_getElem hj]; exact List.getElem_mem hj

@[simp] theorem heapSwap_length (h : List Nat) (a b : Nat) : (heapSwap h a b).length = h.length := by
  simp [heapSwap]

theorem heapAt_heapSwap {h : List Nat} {a b : Nat} (ha : a < h.length) (hb : b < h.length) (k : Nat) :
    heapAt (heapSwap h a b) k = if k = b then heapAt h a else if k = a then heapAt h b else heapAt h k := by
  unfold heapSwap heapAt
  by_cases h1 : k = b
  · subst h1; simp [hb]
  · by_cases h2 : k = a
    · subst h2; simp [h1, ha, Ne.symm h1]
    · simp [h1, h2, Ne.symm h1, Ne.symm h2]

theorem heapSwap_perm {h : List Nat} {a b : Nat} (ha : a < h.length) (hb : b < h.length) :
    (heapSwap h a b).Perm h := by
  unfold heapSwap
  rw [heapAt_eq_getElem ha, heapAt_eq_getElem hb]
  exact List.set_set_perm ha hb

/-! ### Swim (R101) -/

theorem swim_length (w : Nat → Nat) (fuel : Nat) (h : List Nat) (j : Nat) :
    (swim w fuel h j).1.length = h.length := by
  induction fuel generalizing h j with
  | zero => rfl
  | succ fuel ih => simp only [swim]; split <;> simp [ih]

theorem swim_perm (w : Nat → Nat) (fuel : Nat) {h : List Nat} {j : Nat} (hj : j < h.length) :
    (swim w fuel h j).1.Perm h := by
  induction fuel generalizing h j with
  | zero => exact .refl _
  | succ fuel ih =>
    simp only [swim]
    split
    · next hc =>
      have hp := parent_lt hc.1
      exact (ih (by simp; omega)).trans (heapSwap_perm (by omega) hj)
    · exact .refl _

/-- The swimming element ends at the index `Swim` returns, inside the heap and not below where it began. -/
theorem swim_pos (w : Nat → Nat) (fuel : Nat) {h : List Nat} {j : Nat} (hj : j < h.length) :
    (swim w fuel h j).2 ≤ j ∧ heapAt (swim w fuel h j).1 (swim w fuel h j).2 = heapAt h j := by
  induction fuel generalizing h j with
  | zero => exact ⟨Nat.le_refl _, rfl⟩
  | succ fuel ih =>
    simp only [swim]
    split
    · next hc =>
      have hp := parent_lt hc.1
      have := ih (h := heapSwap h (parent j) j) (j := parent j) (by simp; omega)
      refine ⟨by omega, this.2.trans ?_⟩
      rw [heapAt_heapSwap (by omega) hj, if_neg (by omega), if_pos rfl]
    · exact ⟨Nat.le_refl _, rfl⟩

/-- Ordered but for the edge from `j` up to its parent, and ordered across `j`. -/
structure OrderedBelow (w : Nat → Nat) (h : List Nat) (j : Nat) : Prop where
  edge : ∀ k, 0 < k → k < h.length → k ≠ j → w (heapAt h (parent k)) ≤ w (heapAt h k)
  across : ∀ k, 0 < k → k < h.length → parent k = j → 0 < j → w (heapAt h (parent j)) ≤ w (heapAt h k)

theorem swim_ordered (w : Nat → Nat) {fuel : Nat} {h : List Nat} {j : Nat} (hj : j < h.length)
    (hf : j ≤ fuel) (ho : OrderedBelow w h j) : HeapOrdered w (swim w fuel h j).1 := by
  induction fuel generalizing h j with
  | zero => exact fun k hk hl => ho.edge k hk hl (by omega)
  | succ fuel ih =>
    simp only [swim]
    split
    · next hc =>
      have hp := parent_lt hc.1
      have hpl : parent j < h.length := by omega
      refine ih (by simpa using hpl) (by omega) ⟨fun k hk hl hne => ?_, fun k hk hl hpk h0 => ?_⟩
      · rw [heapSwap_length] at hl
        have hpk := parent_lt hk
        rw [heapAt_heapSwap hpl hj, heapAt_heapSwap hpl hj]
        by_cases hkj : k = j
        · subst hkj
          rw [if_neg (by omega), if_pos rfl, if_pos rfl]
          exact Nat.le_of_lt hc.2
        · rw [if_neg hkj, if_neg hne]
          by_cases h1 : parent k = j
          · rw [if_pos h1]; exact ho.across k hk hl h1 hc.1
          · rw [if_neg h1]
            by_cases h2 : parent k = parent j
            · rw [if_pos h2]
              have := ho.edge k hk hl hkj
              rw [h2] at this
              have := hc.2
              omega
            · rw [if_neg h2]; exact ho.edge k hk hl hkj
      · rw [heapSwap_length] at hl
        have hpp := parent_lt h0
        have hk' := parent_lt hk
        rw [heapAt_heapSwap hpl hj, heapAt_heapSwap hpl hj, if_neg (by omega), if_neg (by omega)]
        have hup := ho.edge (parent j) h0 hpl (by omega)
        by_cases hkj : k = j
        · rw [if_pos hkj]; exact hup
        · rw [if_neg hkj, if_neg (by omega)]
          have := ho.edge k hk hl hkj
          rw [hpk] at this
          omega
    · next hc =>
      intro k hk hl
      by_cases hkj : k = j
      · subst hkj
        have : ¬ w (heapAt h (parent k)) > w (heapAt h k) := fun hgt => hc ⟨hk, hgt⟩
        dsimp only
        omega
      · exact ho.edge k hk hl hkj

/-! ### Sink (R102) -/

theorem sinkChild_cases (w : Nat → Nat) (h : List Nat) (j : Nat) (hl : lchild j < h.length) :
    (sinkChild w h j = lchild j ∨ sinkChild w h j = rchild j) ∧ sinkChild w h j < h.length ∧
      ∀ k, 0 < k → k < h.length → parent k = j → w (heapAt h (sinkChild w h j)) ≤ w (heapAt h k) := by
  unfold sinkChild
  split
  · next hc =>
    refine ⟨.inr rfl, hc.1, fun k hk _ hp => ?_⟩
    rcases (parent_eq_iff hk).1 hp with rfl | rfl
    · exact Nat.le_of_lt hc.2
    · exact Nat.le_refl _
  · next hc =>
    refine ⟨.inl rfl, hl, fun k hk hkl hp => ?_⟩
    rcases (parent_eq_iff hk).1 hp with rfl | rfl
    · exact Nat.le_refl _
    · exact Nat.le_of_not_lt fun hlt => hc ⟨hkl, hlt⟩

theorem sink_length (w : Nat → Nat) (fuel : Nat) (h : List Nat) (j : Nat) :
    (sink w fuel h j).1.length = h.length := by
  induction fuel generalizing h j with
  | zero => rfl
  | succ fuel ih =>
    simp only [sink]
    split
    · rfl
    · split
      · rfl
      · simp [ih]

theorem sink_perm (w : Nat → Nat) (fuel : Nat) {h : List Nat} {j : Nat} (hj : j < h.length) :
    (sink w fuel h j).1.Perm h := by
  induction fuel generalizing h j with
  | zero => exact .refl _
  | succ fuel ih =>
    simp only [sink]
    split
    · exact .refl _
    · next hl =>
      have hc := sinkChild_cases w h j (by omega)
      split
      · exact .refl _
      · exact (ih (by simpa using hc.2.1)).trans (heapSwap_perm hj hc.2.1)

/-- Ordered but for the edges from `j` down to its children, and ordered across `j`. -/
structure OrderedAbove (w : Nat → Nat) (h : List Nat) (j : Nat) : Prop where
  edge : ∀ k, 0 < k → k < h.length → parent k ≠ j → w (heapAt h (parent k)) ≤ w (heapAt h k)
  across : ∀ k, 0 < k → k < h.length → parent k = j → 0 < j → w (heapAt h (parent j)) ≤ w (heapAt h k)

theorem sink_ordered (w : Nat → Nat) {fuel : Nat} {h : List Nat} {j : Nat} (hj : j < h.length)
    (hf : h.length ≤ fuel + j) (ho : OrderedAbove w h j) : HeapOrdered w (sink w fuel h j).1 := by
  induction fuel generalizing h j with
  | zero => omega
  | succ fuel ih =>
    simp only [sink]
    split
    · next hl =>
      intro k hk hkl
      refine ho.edge k hk hkl fun hp => ?_
      have := (parent_eq_iff hk).1 hp
      have := lchild_lt_rchild j
      dsimp only at hkl
      omega
    · next hl =>
      obtain ⟨hlr, hcl, hmin⟩ := sinkChild_cases w h j (by omega)
      generalize sinkChild w h j = c at hlr hcl hmin
      have hjc : j < c := by have := lt_lchild j; have := lchild_lt_rchild j; omega
      have hpc : parent c = j := by rcases hlr with rfl | rfl <;> simp [parent_lchild, parent_rchild]
      split
      · next hle =>
        intro k hk hkl
        by_cases hp : parent k = j
        · have := hmin k hk hkl hp
          dsimp only at *
          rw [hp]; omega
        · exact ho.edge k hk hkl hp
      · next hgt =>
        refine ih (by simpa using hcl) (by simp; omega) ⟨fun k hk hkl hp => ?_, fun k hk hkl hp h0 => ?_⟩
        · rw [heapSwap_length] at hkl
          have hpk := parent_lt hk
          rw [heapAt_heapSwap hj hcl, heapAt_heapSwap hj hcl, if_neg hp]
          by_cases hpj : parent k = j
          · rw [if_pos hpj]
            by_cases hkc : k = c
            · rw [if_pos hkc]; omega
            · rw [if_neg hkc, if_neg (by omega)]; exact hmin k hk hkl hpj
          · rw [if_neg hpj]
            have hkc : k ≠ c := fun e => hpj (e ▸ hpc)
            rw [if_neg hkc]
            by_cases hkj : k = j
            · subst hkj
              rw [if_pos rfl]
              exact ho.across c (by omega) hcl hpc hk
            · rw [if_neg hkj]; exact ho.edge k hk hkl hpj
        · rw [heapSwap_length] at hkl
          have hpk := parent_lt hk
          rw [heapAt_heapSwap hj hcl, heapAt_heapSwap hj hcl, hpc, if_neg (by omega), if_pos rfl,
            if_neg (by omega), if_neg (by omega)]
          have := ho.edge k hk hkl (by omega)
          rwa [hp] at this

/-! ### Insert and pop (R103, R104) -/

theorem heapPush_length (w : Nat → Nat) (h : List Nat) (i : Nat) :
    (heapPush w h i).1.length = h.length + 1 := by simp [heapPush, swim_length]

theorem heapPush_perm (w : Nat → Nat) (h : List Nat) (i : Nat) :
    (heapPush w h i).1.Perm (i :: h) :=
  (swim_perm w _ (by simp)).trans (List.perm_append_comm (l₁ := h) (l₂ := [i]))

theorem heapPush_pos (w : Nat → Nat) (h : List Nat) (i : Nat) :
    (heapPush w h i).2 ≤ h.length ∧ heapAt (heapPush w h i).1 (heapPush w h i).2 = i := by
  have := swim_pos w h.length (h := h ++ [i]) (j := h.length) (by simp)
  refine ⟨this.1, this.2.trans ?_⟩
  simp [heapAt]

theorem heapAt_append_left {h : List Nat} (i : Nat) {k : Nat} (hk : k < h.length) :
    heapAt (h ++ [i]) k = heapAt h k := by
  simp [heapAt, List.getElem?_append_left hk]

theorem heapPush_ordered (w : Nat → Nat) {h : List Nat} (i : Nat) (ho : HeapOrdered w h) :
    HeapOrdered w (heapPush w h i).1 := by
  refine swim_ordered w (by simp) (Nat.le_refl _) ⟨fun k hk hl hne => ?_, fun k hk hl hp _ => ?_⟩
  · have hl' : k < h.length := by simp at hl; omega
    have := parent_lt hk
    rw [heapAt_append_left i hl', heapAt_append_left i (by omega)]
    exact ho k hk hl'
  · have := parent_lt hk
    simp at hl
    omega

/-- The root of an ordered heap is a minimum (R106). -/
theorem heapOrdered_root_le {w : Nat → Nat} {h : List Nat} (ho : HeapOrdered w h) {j : Nat}
    (hj : j < h.length) : w (heapAt h 0) ≤ w (heapAt h j) := by
  induction j using Nat.strongRecOn with
  | ind j ih =>
    rcases Nat.eq_zero_or_pos j with rfl | h0
    · exact Nat.le_refl _
    · have hp := parent_lt h0
      exact (ih _ hp (by omega)).trans (ho j h0 hj)

theorem heapOrdered_root_min {w : Nat → Nat} {h : List Nat} (ho : HeapOrdered w h) {i : Nat}
    (hi : i ∈ h) : w (heapAt h 0) ≤ w i := by
  obtain ⟨j, hj, rfl⟩ := List.getElem_of_mem hi
  rw [← heapAt_eq_getElem hj]
  exact heapOrdered_root_le ho hj

theorem heapDrop_length (w : Nat → Nat) (h : List Nat) : (heapDrop w h).length = h.length - 1 := by
  unfold heapDrop
  dsimp only
  split <;> simp [sink_length]

/-- Moving the last element to the root and dropping the last slot. -/
theorem cons_set_dropLast_perm {h : List Nat} (hl : 1 < h.length) :
    (heapAt h 0 :: (h.dropLast.set 0 (heapAt h (h.length - 1)))).Perm h := by
  cases h with
  | nil => simp at hl
  | cons a t =>
    have ht : t ≠ [] := by rintro rfl; simp at hl
    have hlast : heapAt (a :: t) ((a :: t).length - 1) = t.getLast ht := by
      rw [heapAt_eq_getElem (by simp), List.getLast_eq_getElem]
      simp only [List.length_cons, Nat.add_sub_cancel]
      rw [List.getElem_cons]
      have : t.length ≠ 0 := by simpa using ht
      simp [this]
    rw [hlast, List.dropLast_cons_of_ne_nil ht]
    simp only [List.set_cons_zero, heapAt, List.getD_cons_zero]
    refine List.Perm.cons a ?_
    refine (List.perm_append_comm (l₁ := [t.getLast ht]) (l₂ := t.dropLast)).trans ?_
    rw [List.dropLast_concat_getLast ht]

theorem heapDrop_perm (w : Nat → Nat) {h : List Nat} (hl : 0 < h.length) :
    (heapAt h 0 :: heapDrop w h).Perm h := by
  unfold heapDrop
  dsimp only
  split
  · next hr =>
    have h1 : 1 < h.length := by simp at hr; omega
    exact ((sink_perm w _ (by simpa using hr)).cons _).trans (cons_set_dropLast_perm h1)
  · next hr =>
    have h1 : h.length = 1 := by simp at hr; omega
    obtain ⟨a, rfl⟩ := List.length_eq_one_iff.1 h1
    simp [heapAt]

theorem heapDrop_ordered (w : Nat → Nat) {h : List Nat} (ho : HeapOrdered w h) :
    HeapOrdered w (heapDrop w h) := by
  unfold heapDrop
  dsimp only
  split
  · next hr =>
    have hat : ∀ k, 0 < k → k < h.dropLast.length →
        heapAt (h.dropLast.set 0 (heapAt h (h.length - 1))) k = heapAt h k := by
      intro k hk hkl
      have hk' : k < h.length := by simp at hkl; omega
      rw [heapAt_eq_getElem (by simpa using hkl), List.getElem_set_ne (by omega), List.getElem_dropLast,
        heapAt_eq_getElem hk']
    refine sink_ordered w (by simpa using hr) (by simp) ⟨fun k hk hkl hp => ?_, fun k _ _ _ h0 => absurd h0 (by omega)⟩
    have hkl' : k < h.dropLast.length := by simpa using hkl
    have := parent_lt hk
    rw [hat k hk hkl', hat (parent k) (by omega) (by omega)]
    exact ho k hk (by simp at hkl'; omega)
  · next hr => intro k _ hk; omega

/-- The order of a heap depends on the weights of its elements only. -/
theorem heapOrdered_congr {w w' : Nat → Nat} {h : List Nat} (hw : ∀ i ∈ h, w' i = w i)
    (ho : HeapOrdered w h) : HeapOrdered w' h := by
  intro j hj hl
  have := parent_lt hj
  rw [hw _ (heapAt_mem (by omega)), hw _ (heapAt_mem hl)]
  exact ho j hj hl

@[simp] theorem heapOrdered_nil (w : Nat → Nat) : HeapOrdered w [] := fun _ _ h => absurd h (by simp)

end Sys2Proof.Machine
end

