-- ==== Sys2Proof/Laws/State.lean ====
section
/-! SUPPORT. One lemma per field per update of State, each true by rfl, and the sizes and counts they leave. -/

namespace Sys2Proof.Machine.State

variable (s : State)

/-! ### completeError -/

@[simp] theorem completeError_ie (e : ErrorKind) (info : Word) : (s.completeError e info).ie = s.ie := rfl
@[simp] theorem completeError_busy (e : ErrorKind) (info : Word) : (s.completeError e info).busy = false := rfl
@[simp] theorem completeError_done (e : ErrorKind) (info : Word) : (s.completeError e info).done = true := rfl
@[simp] theorem completeError_haz (e : ErrorKind) (info : Word) : (s.completeError e info).haz = s.haz := rfl
@[simp] theorem completeError_rootv (e : ErrorKind) (info : Word) : (s.completeError e info).rootv = s.rootv := rfl
@[simp] theorem completeError_codetv (e : ErrorKind) (info : Word) : (s.completeError e info).codetv = s.codetv := rfl
@[simp] theorem completeError_cmd (e : ErrorKind) (info : Word) : (s.completeError e info).cmd = s.cmd := rfl
@[simp] theorem completeError_arg0 (e : ErrorKind) (info : Word) : (s.completeError e info).arg0 = s.arg0 := rfl
@[simp] theorem completeError_arg1 (e : ErrorKind) (info : Word) : (s.completeError e info).arg1 = s.arg1 := rfl
@[simp] theorem completeError_arg2 (e : ErrorKind) (info : Word) : (s.completeError e info).arg2 = s.arg2 := rfl
@[simp] theorem completeError_result (e : ErrorKind) (info : Word) : (s.completeError e info).result = s.result := rfl
@[simp] theorem completeError_result1 (e : ErrorKind) (info : Word) : (s.completeError e info).result1 = s.result1 := rfl
@[simp] theorem completeError_errcode (e : ErrorKind) (info : Word) : (s.completeError e info).errcode = e.code := rfl
@[simp] theorem completeError_errinfo (e : ErrorKind) (info : Word) : (s.completeError e info).errinfo = info := rfl
@[simp] theorem completeError_root (e : ErrorKind) (info : Word) : (s.completeError e info).root = s.root := rfl
@[simp] theorem completeError_symcap (e : ErrorKind) (info : Word) : (s.completeError e info).symcap = s.symcap := rfl
@[simp] theorem completeError_wordcap (e : ErrorKind) (info : Word) : (s.completeError e info).wordcap = s.wordcap := rfl
@[simp] theorem completeError_freq (e : ErrorKind) (info : Word) : (s.completeError e info).freq = s.freq := rfl
@[simp] theorem completeError_nodes (e : ErrorKind) (info : Word) : (s.completeError e info).nodes = s.nodes := rfl
@[simp] theorem completeError_heap (e : ErrorKind) (info : Word) : (s.completeError e info).heap = s.heap := rfl
@[simp] theorem completeError_code (e : ErrorKind) (info : Word) : (s.completeError e info).code = s.code := rfl
@[simp] theorem completeError_symmem (e : ErrorKind) (info : Word) : (s.completeError e info).symmem = s.symmem := rfl
@[simp] theorem completeError_wordmem (e : ErrorKind) (info : Word) : (s.completeError e info).wordmem = s.wordmem := rfl
@[simp] theorem completeError_rdata (e : ErrorKind) (info : Word) : (s.completeError e info).rdata = s.rdata := rfl
@[simp] theorem completeError_draws (e : ErrorKind) (info : Word) : (s.completeError e info).draws = s.draws := rfl
@[simp] theorem completeError_turns (e : ErrorKind) (info : Word) : (s.completeError e info).turns = s.turns := rfl
@[simp] theorem completeError_symSize (e : ErrorKind) (info : Word) : (s.completeError e info).symSize = s.symSize := rfl
@[simp] theorem completeError_wordSize (e : ErrorKind) (info : Word) : (s.completeError e info).wordSize = s.wordSize := rfl

/-! ### completeOk -/

@[simp] theorem completeOk_ie (r r1 : Word) : (s.completeOk r r1).ie = s.ie := rfl
@[simp] theorem completeOk_busy (r r1 : Word) : (s.completeOk r r1).busy = false := rfl
@[simp] theorem completeOk_done (r r1 : Word) : (s.completeOk r r1).done = true := rfl
@[simp] theorem completeOk_haz (r r1 : Word) : (s.completeOk r r1).haz = s.haz := rfl
@[simp] theorem completeOk_rootv (r r1 : Word) : (s.completeOk r r1).rootv = s.rootv := rfl
@[simp] theorem completeOk_codetv (r r1 : Word) : (s.completeOk r r1).codetv = s.codetv := rfl
@[simp] theorem completeOk_cmd (r r1 : Word) : (s.completeOk r r1).cmd = s.cmd := rfl
@[simp] theorem completeOk_arg0 (r r1 : Word) : (s.completeOk r r1).arg0 = s.arg0 := rfl
@[simp] theorem completeOk_arg1 (r r1 : Word) : (s.completeOk r r1).arg1 = s.arg1 := rfl
@[simp] theorem completeOk_arg2 (r r1 : Word) : (s.completeOk r r1).arg2 = s.arg2 := rfl
@[simp] theorem completeOk_result (r r1 : Word) : (s.completeOk r r1).result = r := rfl
@[simp] theorem completeOk_result1 (r r1 : Word) : (s.completeOk r r1).result1 = r1 := rfl
@[simp] theorem completeOk_errcode (r r1 : Word) : (s.completeOk r r1).errcode = 0#8 := rfl
@[simp] theorem completeOk_errinfo (r r1 : Word) : (s.completeOk r r1).errinfo = 0#32 := rfl
@[simp] theorem completeOk_root (r r1 : Word) : (s.completeOk r r1).root = s.root := rfl
@[simp] theorem completeOk_symcap (r r1 : Word) : (s.completeOk r r1).symcap = s.symcap := rfl
@[simp] theorem completeOk_wordcap (r r1 : Word) : (s.completeOk r r1).wordcap = s.wordcap := rfl
@[simp] theorem completeOk_freq (r r1 : Word) : (s.completeOk r r1).freq = s.freq := rfl
@[simp] theorem completeOk_nodes (r r1 : Word) : (s.completeOk r r1).nodes = s.nodes := rfl
@[simp] theorem completeOk_heap (r r1 : Word) : (s.completeOk r r1).heap = s.heap := rfl
@[simp] theorem completeOk_code (r r1 : Word) : (s.completeOk r r1).code = s.code := rfl
@[simp] theorem completeOk_symmem (r r1 : Word) : (s.completeOk r r1).symmem = s.symmem := rfl
@[simp] theorem completeOk_wordmem (r r1 : Word) : (s.completeOk r r1).wordmem = s.wordmem := rfl
@[simp] theorem completeOk_rdata (r r1 : Word) : (s.completeOk r r1).rdata = s.rdata := rfl
@[simp] theorem completeOk_draws (r r1 : Word) : (s.completeOk r r1).draws = s.draws := rfl
@[simp] theorem completeOk_turns (r r1 : Word) : (s.completeOk r r1).turns = s.turns := rfl
@[simp] theorem completeOk_symSize (r r1 : Word) : (s.completeOk r r1).symSize = s.symSize := rfl
@[simp] theorem completeOk_wordSize (r r1 : Word) : (s.completeOk r r1).wordSize = s.wordSize := rfl

/-! ### startCommand -/

@[simp] theorem startCommand_ie (v : Word) : (s.startCommand v).ie = s.ie := rfl
@[simp] theorem startCommand_busy (v : Word) : (s.startCommand v).busy = true := rfl
@[simp] theorem startCommand_done (v : Word) : (s.startCommand v).done = false := rfl
@[simp] theorem startCommand_haz (v : Word) : (s.startCommand v).haz = s.haz := rfl
@[simp] theorem startCommand_rootv (v : Word) : (s.startCommand v).rootv = s.rootv := rfl
@[simp] theorem startCommand_codetv (v : Word) : (s.startCommand v).codetv = s.codetv := rfl
@[simp] theorem startCommand_cmd (v : Word) : (s.startCommand v).cmd = v := rfl
@[simp] theorem startCommand_arg0 (v : Word) : (s.startCommand v).arg0 = s.arg0 := rfl
@[simp] theorem startCommand_arg1 (v : Word) : (s.startCommand v).arg1 = s.arg1 := rfl
@[simp] theorem startCommand_arg2 (v : Word) : (s.startCommand v).arg2 = s.arg2 := rfl
@[simp] theorem startCommand_result (v : Word) : (s.startCommand v).result = s.result := rfl
@[simp] theorem startCommand_result1 (v : Word) : (s.startCommand v).result1 = s.result1 := rfl
@[simp] theorem startCommand_errcode (v : Word) : (s.startCommand v).errcode = s.errcode := rfl
@[simp] theorem startCommand_errinfo (v : Word) : (s.startCommand v).errinfo = s.errinfo := rfl
@[simp] theorem startCommand_root (v : Word) : (s.startCommand v).root = s.root := rfl
@[simp] theorem startCommand_symcap (v : Word) : (s.startCommand v).symcap = s.symcap := rfl
@[simp] theorem startCommand_wordcap (v : Word) : (s.startCommand v).wordcap = s.wordcap := rfl
@[simp] theorem startCommand_freq (v : Word) : (s.startCommand v).freq = s.freq := rfl
@[simp] theorem startCommand_nodes (v : Word) : (s.startCommand v).nodes = s.nodes := rfl
@[simp] theorem startCommand_heap (v : Word) : (s.startCommand v).heap = s.heap := rfl
@[simp] theorem startCommand_code (v : Word) : (s.startCommand v).code = s.code := rfl
@[simp] theorem startCommand_symmem (v : Word) : (s.startCommand v).symmem = s.symmem := rfl
@[simp] theorem startCommand_wordmem (v : Word) : (s.startCommand v).wordmem = s.wordmem := rfl
@[simp] theorem startCommand_rdata (v : Word) : (s.startCommand v).rdata = s.rdata := rfl
@[simp] theorem startCommand_draws (v : Word) : (s.startCommand v).draws = s.draws := rfl
@[simp] theorem startCommand_turns (v : Word) : (s.startCommand v).turns = s.turns := rfl
@[simp] theorem startCommand_symSize (v : Word) : (s.startCommand v).symSize = s.symSize := rfl
@[simp] theorem startCommand_wordSize (v : Word) : (s.startCommand v).wordSize = s.wordSize := rfl

/-! ### newLeaf -/

@[simp] theorem newLeaf_ie (x : Sym) (v : Word) : (s.newLeaf x v).ie = s.ie := rfl
@[simp] theorem newLeaf_busy (x : Sym) (v : Word) : (s.newLeaf x v).busy = s.busy := rfl
@[simp] theorem newLeaf_done (x : Sym) (v : Word) : (s.newLeaf x v).done = s.done := rfl
@[simp] theorem newLeaf_haz (x : Sym) (v : Word) : (s.newLeaf x v).haz = s.haz := rfl
@[simp] theorem newLeaf_rootv (x : Sym) (v : Word) : (s.newLeaf x v).rootv = s.rootv := rfl
@[simp] theorem newLeaf_codetv (x : Sym) (v : Word) : (s.newLeaf x v).codetv = s.codetv := rfl
@[simp] theorem newLeaf_cmd (x : Sym) (v : Word) : (s.newLeaf x v).cmd = s.cmd := rfl
@[simp] theorem newLeaf_arg0 (x : Sym) (v : Word) : (s.newLeaf x v).arg0 = s.arg0 := rfl
@[simp] theorem newLeaf_arg1 (x : Sym) (v : Word) : (s.newLeaf x v).arg1 = s.arg1 := rfl
@[simp] theorem newLeaf_arg2 (x : Sym) (v : Word) : (s.newLeaf x v).arg2 = s.arg2 := rfl
@[simp] theorem newLeaf_result (x : Sym) (v : Word) : (s.newLeaf x v).result = s.result := rfl
@[simp] theorem newLeaf_result1 (x : Sym) (v : Word) : (s.newLeaf x v).result1 = s.result1 := rfl
@[simp] theorem newLeaf_errcode (x : Sym) (v : Word) : (s.newLeaf x v).errcode = s.errcode := rfl
@[simp] theorem newLeaf_errinfo (x : Sym) (v : Word) : (s.newLeaf x v).errinfo = s.errinfo := rfl
@[simp] theorem newLeaf_root (x : Sym) (v : Word) : (s.newLeaf x v).root = s.root := rfl
@[simp] theorem newLeaf_symcap (x : Sym) (v : Word) : (s.newLeaf x v).symcap = s.symcap := rfl
@[simp] theorem newLeaf_wordcap (x : Sym) (v : Word) : (s.newLeaf x v).wordcap = s.wordcap := rfl
@[simp] theorem newLeaf_freq (x : Sym) (v : Word) : (s.newLeaf x v).freq = s.freq := rfl
@[simp] theorem newLeaf_nodes (x : Sym) (v : Word) : (s.newLeaf x v).nodes = s.nodes ++ [leafNode x v] := rfl
@[simp] theorem newLeaf_heap (x : Sym) (v : Word) : (s.newLeaf x v).heap = s.heap := rfl
@[simp] theorem newLeaf_code (x : Sym) (v : Word) : (s.newLeaf x v).code = s.code := rfl
@[simp] theorem newLeaf_symmem (x : Sym) (v : Word) : (s.newLeaf x v).symmem = s.symmem := rfl
@[simp] theorem newLeaf_wordmem (x : Sym) (v : Word) : (s.newLeaf x v).wordmem = s.wordmem := rfl
@[simp] theorem newLeaf_rdata (x : Sym) (v : Word) : (s.newLeaf x v).rdata = s.rdata := rfl
@[simp] theorem newLeaf_draws (x : Sym) (v : Word) : (s.newLeaf x v).draws = s.draws := rfl
@[simp] theorem newLeaf_turns (x : Sym) (v : Word) : (s.newLeaf x v).turns = s.turns := rfl
@[simp] theorem newLeaf_symSize (x : Sym) (v : Word) : (s.newLeaf x v).symSize = s.symSize := rfl
@[simp] theorem newLeaf_wordSize (x : Sym) (v : Word) : (s.newLeaf x v).wordSize = s.wordSize := rfl

/-! ### newInternal -/

@[simp] theorem newInternal_ie (l r : Nat) : (s.newInternal l r).ie = s.ie := rfl
@[simp] theorem newInternal_busy (l r : Nat) : (s.newInternal l r).busy = s.busy := rfl
@[simp] theorem newInternal_done (l r : Nat) : (s.newInternal l r).done = s.done := rfl
@[simp] theorem newInternal_haz (l r : Nat) : (s.newInternal l r).haz = s.haz := rfl
@[simp] theorem newInternal_rootv (l r : Nat) : (s.newInternal l r).rootv = s.rootv := rfl
@[simp] theorem newInternal_codetv (l r : Nat) : (s.newInternal l r).codetv = s.codetv := rfl
@[simp] theorem newInternal_cmd (l r : Nat) : (s.newInternal l r).cmd = s.cmd := rfl
@[simp] theorem newInternal_arg0 (l r : Nat) : (s.newInternal l r).arg0 = s.arg0 := rfl
@[simp] theorem newInternal_arg1 (l r : Nat) : (s.newInternal l r).arg1 = s.arg1 := rfl
@[simp] theorem newInternal_arg2 (l r : Nat) : (s.newInternal l r).arg2 = s.arg2 := rfl
@[simp] theorem newInternal_result (l r : Nat) : (s.newInternal l r).result = s.result := rfl
@[simp] theorem newInternal_result1 (l r : Nat) : (s.newInternal l r).result1 = s.result1 := rfl
@[simp] theorem newInternal_errcode (l r : Nat) : (s.newInternal l r).errcode = s.errcode := rfl
@[simp] theorem newInternal_errinfo (l r : Nat) : (s.newInternal l r).errinfo = s.errinfo := rfl
@[simp] theorem newInternal_root (l r : Nat) : (s.newInternal l r).root = s.root := rfl
@[simp] theorem newInternal_symcap (l r : Nat) : (s.newInternal l r).symcap = s.symcap := rfl
@[simp] theorem newInternal_wordcap (l r : Nat) : (s.newInternal l r).wordcap = s.wordcap := rfl
@[simp] theorem newInternal_freq (l r : Nat) : (s.newInternal l r).freq = s.freq := rfl
@[simp] theorem newInternal_nodes (l r : Nat) : (s.newInternal l r).nodes = setOwn (setOwn s.nodes l .child) r .child ++ [internalNode l r (s.W l + s.W r)] := rfl
@[simp] theorem newInternal_heap (l r : Nat) : (s.newInternal l r).heap = s.heap := rfl
@[simp] theorem newInternal_code (l r : Nat) : (s.newInternal l r).code = s.code := rfl
@[simp] theorem newInternal_symmem (l r : Nat) : (s.newInternal l r).symmem = s.symmem := rfl
@[simp] theorem newInternal_wordmem (l r : Nat) : (s.newInternal l r).wordmem = s.wordmem := rfl
@[simp] theorem newInternal_rdata (l r : Nat) : (s.newInternal l r).rdata = s.rdata := rfl
@[simp] theorem newInternal_draws (l r : Nat) : (s.newInternal l r).draws = s.draws := rfl
@[simp] theorem newInternal_turns (l r : Nat) : (s.newInternal l r).turns = s.turns := rfl
@[simp] theorem newInternal_symSize (l r : Nat) : (s.newInternal l r).symSize = s.symSize := rfl
@[simp] theorem newInternal_wordSize (l r : Nat) : (s.newInternal l r).wordSize = s.wordSize := rfl

/-! ### heapInsert -/

@[simp] theorem heapInsert_ie (i : Nat) : (s.heapInsert i).ie = s.ie := rfl
@[simp] theorem heapInsert_busy (i : Nat) : (s.heapInsert i).busy = s.busy := rfl
@[simp] theorem heapInsert_done (i : Nat) : (s.heapInsert i).done = s.done := rfl
@[simp] theorem heapInsert_haz (i : Nat) : (s.heapInsert i).haz = s.haz := rfl
@[simp] theorem heapInsert_rootv (i : Nat) : (s.heapInsert i).rootv = s.rootv := rfl
@[simp] theorem heapInsert_codetv (i : Nat) : (s.heapInsert i).codetv = s.codetv := rfl
@[simp] theorem heapInsert_cmd (i : Nat) : (s.heapInsert i).cmd = s.cmd := rfl
@[simp] theorem heapInsert_arg0 (i : Nat) : (s.heapInsert i).arg0 = s.arg0 := rfl
@[simp] theorem heapInsert_arg1 (i : Nat) : (s.heapInsert i).arg1 = s.arg1 := rfl
@[simp] theorem heapInsert_arg2 (i : Nat) : (s.heapInsert i).arg2 = s.arg2 := rfl
@[simp] theorem heapInsert_result (i : Nat) : (s.heapInsert i).result = s.result := rfl
@[simp] theorem heapInsert_result1 (i : Nat) : (s.heapInsert i).result1 = s.result1 := rfl
@[simp] theorem heapInsert_errcode (i : Nat) : (s.heapInsert i).errcode = s.errcode := rfl
@[simp] theorem heapInsert_errinfo (i : Nat) : (s.heapInsert i).errinfo = s.errinfo := rfl
@[simp] theorem heapInsert_root (i : Nat) : (s.heapInsert i).root = s.root := rfl
@[simp] theorem heapInsert_symcap (i : Nat) : (s.heapInsert i).symcap = s.symcap := rfl
@[simp] theorem heapInsert_wordcap (i : Nat) : (s.heapInsert i).wordcap = s.wordcap := rfl
@[simp] theorem heapInsert_freq (i : Nat) : (s.heapInsert i).freq = s.freq := rfl
@[simp] theorem heapInsert_nodes (i : Nat) : (s.heapInsert i).nodes = setOwn s.nodes i .inHeap := rfl
@[simp] theorem heapInsert_heap (i : Nat) : (s.heapInsert i).heap = (heapPush s.W s.heap i).1 := rfl
@[simp] theorem heapInsert_code (i : Nat) : (s.heapInsert i).code = s.code := rfl
@[simp] theorem heapInsert_symmem (i : Nat) : (s.heapInsert i).symmem = s.symmem := rfl
@[simp] theorem heapInsert_wordmem (i : Nat) : (s.heapInsert i).wordmem = s.wordmem := rfl
@[simp] theorem heapInsert_rdata (i : Nat) : (s.heapInsert i).rdata = s.rdata := rfl
@[simp] theorem heapInsert_draws (i : Nat) : (s.heapInsert i).draws = s.draws := rfl
@[simp] theorem heapInsert_turns (i : Nat) : (s.heapInsert i).turns = s.turns := rfl
@[simp] theorem heapInsert_symSize (i : Nat) : (s.heapInsert i).symSize = s.symSize := rfl
@[simp] theorem heapInsert_wordSize (i : Nat) : (s.heapInsert i).wordSize = s.wordSize := rfl

/-! ### heapPop -/

@[simp] theorem heapPop_ie : s.heapPop.ie = s.ie := rfl
@[simp] theorem heapPop_busy : s.heapPop.busy = s.busy := rfl
@[simp] theorem heapPop_done : s.heapPop.done = s.done := rfl
@[simp] theorem heapPop_haz : s.heapPop.haz = s.haz := rfl
@[simp] theorem heapPop_rootv : s.heapPop.rootv = s.rootv := rfl
@[simp] theorem heapPop_codetv : s.heapPop.codetv = s.codetv := rfl
@[simp] theorem heapPop_cmd : s.heapPop.cmd = s.cmd := rfl
@[simp] theorem heapPop_arg0 : s.heapPop.arg0 = s.arg0 := rfl
@[simp] theorem heapPop_arg1 : s.heapPop.arg1 = s.arg1 := rfl
@[simp] theorem heapPop_arg2 : s.heapPop.arg2 = s.arg2 := rfl
@[simp] theorem heapPop_result : s.heapPop.result = s.result := rfl
@[simp] theorem heapPop_result1 : s.heapPop.result1 = s.result1 := rfl
@[simp] theorem heapPop_errcode : s.heapPop.errcode = s.errcode := rfl
@[simp] theorem heapPop_errinfo : s.heapPop.errinfo = s.errinfo := rfl
@[simp] theorem heapPop_root : s.heapPop.root = s.root := rfl
@[simp] theorem heapPop_symcap : s.heapPop.symcap = s.symcap := rfl
@[simp] theorem heapPop_wordcap : s.heapPop.wordcap = s.wordcap := rfl
@[simp] theorem heapPop_freq : s.heapPop.freq = s.freq := rfl
@[simp] theorem heapPop_nodes : s.heapPop.nodes = setOwn s.nodes s.heapMin .free := rfl
@[simp] theorem heapPop_heap : s.heapPop.heap = heapDrop s.W s.heap := rfl
@[simp] theorem heapPop_code : s.heapPop.code = s.code := rfl
@[simp] theorem heapPop_symmem : s.heapPop.symmem = s.symmem := rfl
@[simp] theorem heapPop_wordmem : s.heapPop.wordmem = s.wordmem := rfl
@[simp] theorem heapPop_rdata : s.heapPop.rdata = s.rdata := rfl
@[simp] theorem heapPop_draws : s.heapPop.draws = s.draws := rfl
@[simp] theorem heapPop_turns : s.heapPop.turns = s.turns := rfl
@[simp] theorem heapPop_symSize : s.heapPop.symSize = s.symSize := rfl
@[simp] theorem heapPop_wordSize : s.heapPop.wordSize = s.wordSize := rfl

/-! ### writeCtrl -/

@[simp] theorem writeCtrl_ie (v : Word) : (s.writeCtrl v).ie = v.getLsbD 0 := rfl
@[simp] theorem writeCtrl_busy (v : Word) : (s.writeCtrl v).busy = s.busy := rfl
@[simp] theorem writeCtrl_done (v : Word) : (s.writeCtrl v).done = s.done := rfl
@[simp] theorem writeCtrl_haz (v : Word) : (s.writeCtrl v).haz = s.haz := rfl
@[simp] theorem writeCtrl_rootv (v : Word) : (s.writeCtrl v).rootv = s.rootv := rfl
@[simp] theorem writeCtrl_codetv (v : Word) : (s.writeCtrl v).codetv = s.codetv := rfl
@[simp] theorem writeCtrl_cmd (v : Word) : (s.writeCtrl v).cmd = s.cmd := rfl
@[simp] theorem writeCtrl_arg0 (v : Word) : (s.writeCtrl v).arg0 = s.arg0 := rfl
@[simp] theorem writeCtrl_arg1 (v : Word) : (s.writeCtrl v).arg1 = s.arg1 := rfl
@[simp] theorem writeCtrl_arg2 (v : Word) : (s.writeCtrl v).arg2 = s.arg2 := rfl
@[simp] theorem writeCtrl_result (v : Word) : (s.writeCtrl v).result = s.result := rfl
@[simp] theorem writeCtrl_result1 (v : Word) : (s.writeCtrl v).result1 = s.result1 := rfl
@[simp] theorem writeCtrl_errcode (v : Word) : (s.writeCtrl v).errcode = s.errcode := rfl
@[simp] theorem writeCtrl_errinfo (v : Word) : (s.writeCtrl v).errinfo = s.errinfo := rfl
@[simp] theorem writeCtrl_root (v : Word) : (s.writeCtrl v).root = s.root := rfl
@[simp] theorem writeCtrl_symcap (v : Word) : (s.writeCtrl v).symcap = s.symcap := rfl
@[simp] theorem writeCtrl_wordcap (v : Word) : (s.writeCtrl v).wordcap = s.wordcap := rfl
@[simp] theorem writeCtrl_freq (v : Word) : (s.writeCtrl v).freq = s.freq := rfl
@[simp] theorem writeCtrl_nodes (v : Word) : (s.writeCtrl v).nodes = s.nodes := rfl
@[simp] theorem writeCtrl_heap (v : Word) : (s.writeCtrl v).heap = s.heap := rfl
@[simp] theorem writeCtrl_code (v : Word) : (s.writeCtrl v).code = s.code := rfl
@[simp] theorem writeCtrl_symmem (v : Word) : (s.writeCtrl v).symmem = s.symmem := rfl
@[simp] theorem writeCtrl_wordmem (v : Word) : (s.writeCtrl v).wordmem = s.wordmem := rfl
@[simp] theorem writeCtrl_rdata (v : Word) : (s.writeCtrl v).rdata = s.rdata := rfl
@[simp] theorem writeCtrl_draws (v : Word) : (s.writeCtrl v).draws = s.draws := rfl
@[simp] theorem writeCtrl_turns (v : Word) : (s.writeCtrl v).turns = s.turns := rfl
@[simp] theorem writeCtrl_symSize (v : Word) : (s.writeCtrl v).symSize = s.symSize := rfl
@[simp] theorem writeCtrl_wordSize (v : Word) : (s.writeCtrl v).wordSize = s.wordSize := rfl

/-! ### writeStatus -/

@[simp] theorem writeStatus_ie (v : Word) : (s.writeStatus v).ie = s.ie := rfl
@[simp] theorem writeStatus_busy (v : Word) : (s.writeStatus v).busy = s.busy := rfl
@[simp] theorem writeStatus_done (v : Word) : (s.writeStatus v).done = (s.done && !v.getLsbD 1) := rfl
@[simp] theorem writeStatus_haz (v : Word) : (s.writeStatus v).haz = (s.haz && !v.getLsbD 3) := rfl
@[simp] theorem writeStatus_rootv (v : Word) : (s.writeStatus v).rootv = s.rootv := rfl
@[simp] theorem writeStatus_codetv (v : Word) : (s.writeStatus v).codetv = s.codetv := rfl
@[simp] theorem writeStatus_cmd (v : Word) : (s.writeStatus v).cmd = s.cmd := rfl
@[simp] theorem writeStatus_arg0 (v : Word) : (s.writeStatus v).arg0 = s.arg0 := rfl
@[simp] theorem writeStatus_arg1 (v : Word) : (s.writeStatus v).arg1 = s.arg1 := rfl
@[simp] theorem writeStatus_arg2 (v : Word) : (s.writeStatus v).arg2 = s.arg2 := rfl
@[simp] theorem writeStatus_result (v : Word) : (s.writeStatus v).result = s.result := rfl
@[simp] theorem writeStatus_result1 (v : Word) : (s.writeStatus v).result1 = s.result1 := rfl
@[simp] theorem writeStatus_errcode (v : Word) : (s.writeStatus v).errcode = s.errcode := rfl
@[simp] theorem writeStatus_errinfo (v : Word) : (s.writeStatus v).errinfo = s.errinfo := rfl
@[simp] theorem writeStatus_root (v : Word) : (s.writeStatus v).root = s.root := rfl
@[simp] theorem writeStatus_symcap (v : Word) : (s.writeStatus v).symcap = s.symcap := rfl
@[simp] theorem writeStatus_wordcap (v : Word) : (s.writeStatus v).wordcap = s.wordcap := rfl
@[simp] theorem writeStatus_freq (v : Word) : (s.writeStatus v).freq = s.freq := rfl
@[simp] theorem writeStatus_nodes (v : Word) : (s.writeStatus v).nodes = s.nodes := rfl
@[simp] theorem writeStatus_heap (v : Word) : (s.writeStatus v).heap = s.heap := rfl
@[simp] theorem writeStatus_code (v : Word) : (s.writeStatus v).code = s.code := rfl
@[simp] theorem writeStatus_symmem (v : Word) : (s.writeStatus v).symmem = s.symmem := rfl
@[simp] theorem writeStatus_wordmem (v : Word) : (s.writeStatus v).wordmem = s.wordmem := rfl
@[simp] theorem writeStatus_rdata (v : Word) : (s.writeStatus v).rdata = s.rdata := rfl
@[simp] theorem writeStatus_draws (v : Word) : (s.writeStatus v).draws = s.draws := rfl
@[simp] theorem writeStatus_turns (v : Word) : (s.writeStatus v).turns = s.turns := rfl
@[simp] theorem writeStatus_symSize (v : Word) : (s.writeStatus v).symSize = s.symSize := rfl
@[simp] theorem writeStatus_wordSize (v : Word) : (s.writeStatus v).wordSize = s.wordSize := rfl

/-! ### setHaz -/

@[simp] theorem setHaz_ie : s.setHaz.ie = s.ie := rfl
@[simp] theorem setHaz_busy : s.setHaz.busy = s.busy := rfl
@[simp] theorem setHaz_done : s.setHaz.done = s.done := rfl
@[simp] theorem setHaz_haz : s.setHaz.haz = true := rfl
@[simp] theorem setHaz_rootv : s.setHaz.rootv = s.rootv := rfl
@[simp] theorem setHaz_codetv : s.setHaz.codetv = s.codetv := rfl
@[simp] theorem setHaz_cmd : s.setHaz.cmd = s.cmd := rfl
@[simp] theorem setHaz_arg0 : s.setHaz.arg0 = s.arg0 := rfl
@[simp] theorem setHaz_arg1 : s.setHaz.arg1 = s.arg1 := rfl
@[simp] theorem setHaz_arg2 : s.setHaz.arg2 = s.arg2 := rfl
@[simp] theorem setHaz_result : s.setHaz.result = s.result := rfl
@[simp] theorem setHaz_result1 : s.setHaz.result1 = s.result1 := rfl
@[simp] theorem setHaz_errcode : s.setHaz.errcode = s.errcode := rfl
@[simp] theorem setHaz_errinfo : s.setHaz.errinfo = s.errinfo := rfl
@[simp] theorem setHaz_root : s.setHaz.root = s.root := rfl
@[simp] theorem setHaz_symcap : s.setHaz.symcap = s.symcap := rfl
@[simp] theorem setHaz_wordcap : s.setHaz.wordcap = s.wordcap := rfl
@[simp] theorem setHaz_freq : s.setHaz.freq = s.freq := rfl
@[simp] theorem setHaz_nodes : s.setHaz.nodes = s.nodes := rfl
@[simp] theorem setHaz_heap : s.setHaz.heap = s.heap := rfl
@[simp] theorem setHaz_code : s.setHaz.code = s.code := rfl
@[simp] theorem setHaz_symmem : s.setHaz.symmem = s.symmem := rfl
@[simp] theorem setHaz_wordmem : s.setHaz.wordmem = s.wordmem := rfl
@[simp] theorem setHaz_rdata : s.setHaz.rdata = s.rdata := rfl
@[simp] theorem setHaz_draws : s.setHaz.draws = s.draws := rfl
@[simp] theorem setHaz_turns : s.setHaz.turns = s.turns := rfl
@[simp] theorem setHaz_symSize : s.setHaz.symSize = s.symSize := rfl
@[simp] theorem setHaz_wordSize : s.setHaz.wordSize = s.wordSize := rfl

/-! ### setRoot -/

@[simp] theorem setRoot_ie (r : Nat) : (s.setRoot r).ie = s.ie := rfl
@[simp] theorem setRoot_busy (r : Nat) : (s.setRoot r).busy = s.busy := rfl
@[simp] theorem setRoot_done (r : Nat) : (s.setRoot r).done = s.done := rfl
@[simp] theorem setRoot_haz (r : Nat) : (s.setRoot r).haz = s.haz := rfl
@[simp] theorem setRoot_rootv (r : Nat) : (s.setRoot r).rootv = true := rfl
@[simp] theorem setRoot_codetv (r : Nat) : (s.setRoot r).codetv = false := rfl
@[simp] theorem setRoot_cmd (r : Nat) : (s.setRoot r).cmd = s.cmd := rfl
@[simp] theorem setRoot_arg0 (r : Nat) : (s.setRoot r).arg0 = s.arg0 := rfl
@[simp] theorem setRoot_arg1 (r : Nat) : (s.setRoot r).arg1 = s.arg1 := rfl
@[simp] theorem setRoot_arg2 (r : Nat) : (s.setRoot r).arg2 = s.arg2 := rfl
@[simp] theorem setRoot_result (r : Nat) : (s.setRoot r).result = s.result := rfl
@[simp] theorem setRoot_result1 (r : Nat) : (s.setRoot r).result1 = s.result1 := rfl
@[simp] theorem setRoot_errcode (r : Nat) : (s.setRoot r).errcode = s.errcode := rfl
@[simp] theorem setRoot_errinfo (r : Nat) : (s.setRoot r).errinfo = s.errinfo := rfl
@[simp] theorem setRoot_root (r : Nat) : (s.setRoot r).root = r := rfl
@[simp] theorem setRoot_symcap (r : Nat) : (s.setRoot r).symcap = s.symcap := rfl
@[simp] theorem setRoot_wordcap (r : Nat) : (s.setRoot r).wordcap = s.wordcap := rfl
@[simp] theorem setRoot_freq (r : Nat) : (s.setRoot r).freq = s.freq := rfl
@[simp] theorem setRoot_nodes (r : Nat) : (s.setRoot r).nodes = s.nodes := rfl
@[simp] theorem setRoot_heap (r : Nat) : (s.setRoot r).heap = s.heap := rfl
@[simp] theorem setRoot_code (r : Nat) : (s.setRoot r).code = s.code := rfl
@[simp] theorem setRoot_symmem (r : Nat) : (s.setRoot r).symmem = s.symmem := rfl
@[simp] theorem setRoot_wordmem (r : Nat) : (s.setRoot r).wordmem = s.wordmem := rfl
@[simp] theorem setRoot_rdata (r : Nat) : (s.setRoot r).rdata = s.rdata := rfl
@[simp] theorem setRoot_draws (r : Nat) : (s.setRoot r).draws = s.draws := rfl
@[simp] theorem setRoot_turns (r : Nat) : (s.setRoot r).turns = s.turns := rfl
@[simp] theorem setRoot_symSize (r : Nat) : (s.setRoot r).symSize = s.symSize := rfl
@[simp] theorem setRoot_wordSize (r : Nat) : (s.setRoot r).wordSize = s.wordSize := rfl

/-! ### clearTree -/

@[simp] theorem clearTree_ie : s.clearTree.ie = s.ie := rfl
@[simp] theorem clearTree_busy : s.clearTree.busy = s.busy := rfl
@[simp] theorem clearTree_done : s.clearTree.done = s.done := rfl
@[simp] theorem clearTree_haz : s.clearTree.haz = s.haz := rfl
@[simp] theorem clearTree_rootv : s.clearTree.rootv = false := rfl
@[simp] theorem clearTree_codetv : s.clearTree.codetv = false := rfl
@[simp] theorem clearTree_cmd : s.clearTree.cmd = s.cmd := rfl
@[simp] theorem clearTree_arg0 : s.clearTree.arg0 = s.arg0 := rfl
@[simp] theorem clearTree_arg1 : s.clearTree.arg1 = s.arg1 := rfl
@[simp] theorem clearTree_arg2 : s.clearTree.arg2 = s.arg2 := rfl
@[simp] theorem clearTree_result : s.clearTree.result = s.result := rfl
@[simp] theorem clearTree_result1 : s.clearTree.result1 = s.result1 := rfl
@[simp] theorem clearTree_errcode : s.clearTree.errcode = s.errcode := rfl
@[simp] theorem clearTree_errinfo : s.clearTree.errinfo = s.errinfo := rfl
@[simp] theorem clearTree_root : s.clearTree.root = 0 := rfl
@[simp] theorem clearTree_symcap : s.clearTree.symcap = s.symcap := rfl
@[simp] theorem clearTree_wordcap : s.clearTree.wordcap = s.wordcap := rfl
@[simp] theorem clearTree_freq : s.clearTree.freq = s.freq := rfl
@[simp] theorem clearTree_nodes : s.clearTree.nodes = [] := rfl
@[simp] theorem clearTree_heap : s.clearTree.heap = [] := rfl
@[simp] theorem clearTree_code : s.clearTree.code = s.code := rfl
@[simp] theorem clearTree_symmem : s.clearTree.symmem = s.symmem := rfl
@[simp] theorem clearTree_wordmem : s.clearTree.wordmem = s.wordmem := rfl
@[simp] theorem clearTree_rdata : s.clearTree.rdata = s.rdata := rfl
@[simp] theorem clearTree_draws : s.clearTree.draws = s.draws := rfl
@[simp] theorem clearTree_turns : s.clearTree.turns = s.turns := rfl
@[simp] theorem clearTree_symSize : s.clearTree.symSize = s.symSize := rfl
@[simp] theorem clearTree_wordSize : s.clearTree.wordSize = s.wordSize := rfl

/-! ### zeroFreq -/

@[simp] theorem zeroFreq_ie : s.zeroFreq.ie = s.ie := by rw [zeroFreq]
@[simp] theorem zeroFreq_busy : s.zeroFreq.busy = s.busy := by rw [zeroFreq]
@[simp] theorem zeroFreq_done : s.zeroFreq.done = s.done := by rw [zeroFreq]
@[simp] theorem zeroFreq_haz : s.zeroFreq.haz = s.haz := by rw [zeroFreq]
@[simp] theorem zeroFreq_rootv : s.zeroFreq.rootv = s.rootv := by rw [zeroFreq]
@[simp] theorem zeroFreq_codetv : s.zeroFreq.codetv = s.codetv := by rw [zeroFreq]
@[simp] theorem zeroFreq_cmd : s.zeroFreq.cmd = s.cmd := by rw [zeroFreq]
@[simp] theorem zeroFreq_arg0 : s.zeroFreq.arg0 = s.arg0 := by rw [zeroFreq]
@[simp] theorem zeroFreq_arg1 : s.zeroFreq.arg1 = s.arg1 := by rw [zeroFreq]
@[simp] theorem zeroFreq_arg2 : s.zeroFreq.arg2 = s.arg2 := by rw [zeroFreq]
@[simp] theorem zeroFreq_result : s.zeroFreq.result = s.result := by rw [zeroFreq]
@[simp] theorem zeroFreq_result1 : s.zeroFreq.result1 = s.result1 := by rw [zeroFreq]
@[simp] theorem zeroFreq_errcode : s.zeroFreq.errcode = s.errcode := by rw [zeroFreq]
@[simp] theorem zeroFreq_errinfo : s.zeroFreq.errinfo = s.errinfo := by rw [zeroFreq]
@[simp] theorem zeroFreq_root : s.zeroFreq.root = s.root := by rw [zeroFreq]
@[simp] theorem zeroFreq_symcap : s.zeroFreq.symcap = s.symcap := by rw [zeroFreq]
@[simp] theorem zeroFreq_wordcap : s.zeroFreq.wordcap = s.wordcap := by rw [zeroFreq]
@[simp] theorem zeroFreq_freq : s.zeroFreq.freq = s.freq.writeList 0 (List.replicate Config.nSym 0#32) := by rw [zeroFreq]
@[simp] theorem zeroFreq_nodes : s.zeroFreq.nodes = s.nodes := by rw [zeroFreq]
@[simp] theorem zeroFreq_heap : s.zeroFreq.heap = s.heap := by rw [zeroFreq]
@[simp] theorem zeroFreq_code : s.zeroFreq.code = s.code := by rw [zeroFreq]
@[simp] theorem zeroFreq_symmem : s.zeroFreq.symmem = s.symmem := by rw [zeroFreq]
@[simp] theorem zeroFreq_wordmem : s.zeroFreq.wordmem = s.wordmem := by rw [zeroFreq]
@[simp] theorem zeroFreq_rdata : s.zeroFreq.rdata = s.rdata := by rw [zeroFreq]
@[simp] theorem zeroFreq_draws : s.zeroFreq.draws = s.draws := by rw [zeroFreq]
@[simp] theorem zeroFreq_turns : s.zeroFreq.turns = s.turns := by rw [zeroFreq]
@[simp] theorem zeroFreq_symSize : s.zeroFreq.symSize = s.symSize := by simp only [State.symSize, zeroFreq_symcap]
@[simp] theorem zeroFreq_wordSize : s.zeroFreq.wordSize = s.wordSize := by simp only [State.wordSize, zeroFreq_wordcap]

/-! ### setCode -/

@[simp] theorem setCode_ie (t : List CodeEntry) : (s.setCode t).ie = s.ie := rfl
@[simp] theorem setCode_busy (t : List CodeEntry) : (s.setCode t).busy = s.busy := rfl
@[simp] theorem setCode_done (t : List CodeEntry) : (s.setCode t).done = s.done := rfl
@[simp] theorem setCode_haz (t : List CodeEntry) : (s.setCode t).haz = s.haz := rfl
@[simp] theorem setCode_rootv (t : List CodeEntry) : (s.setCode t).rootv = s.rootv := rfl
@[simp] theorem setCode_codetv (t : List CodeEntry) : (s.setCode t).codetv = true := rfl
@[simp] theorem setCode_cmd (t : List CodeEntry) : (s.setCode t).cmd = s.cmd := rfl
@[simp] theorem setCode_arg0 (t : List CodeEntry) : (s.setCode t).arg0 = s.arg0 := rfl
@[simp] theorem setCode_arg1 (t : List CodeEntry) : (s.setCode t).arg1 = s.arg1 := rfl
@[simp] theorem setCode_arg2 (t : List CodeEntry) : (s.setCode t).arg2 = s.arg2 := rfl
@[simp] theorem setCode_result (t : List CodeEntry) : (s.setCode t).result = s.result := rfl
@[simp] theorem setCode_result1 (t : List CodeEntry) : (s.setCode t).result1 = s.result1 := rfl
@[simp] theorem setCode_errcode (t : List CodeEntry) : (s.setCode t).errcode = s.errcode := rfl
@[simp] theorem setCode_errinfo (t : List CodeEntry) : (s.setCode t).errinfo = s.errinfo := rfl
@[simp] theorem setCode_root (t : List CodeEntry) : (s.setCode t).root = s.root := rfl
@[simp] theorem setCode_symcap (t : List CodeEntry) : (s.setCode t).symcap = s.symcap := rfl
@[simp] theorem setCode_wordcap (t : List CodeEntry) : (s.setCode t).wordcap = s.wordcap := rfl
@[simp] theorem setCode_freq (t : List CodeEntry) : (s.setCode t).freq = s.freq := rfl
@[simp] theorem setCode_nodes (t : List CodeEntry) : (s.setCode t).nodes = s.nodes := rfl
@[simp] theorem setCode_heap (t : List CodeEntry) : (s.setCode t).heap = s.heap := rfl
@[simp] theorem setCode_code (t : List CodeEntry) : (s.setCode t).code = t := rfl
@[simp] theorem setCode_symmem (t : List CodeEntry) : (s.setCode t).symmem = s.symmem := rfl
@[simp] theorem setCode_wordmem (t : List CodeEntry) : (s.setCode t).wordmem = s.wordmem := rfl
@[simp] theorem setCode_rdata (t : List CodeEntry) : (s.setCode t).rdata = s.rdata := rfl
@[simp] theorem setCode_draws (t : List CodeEntry) : (s.setCode t).draws = s.draws := rfl
@[simp] theorem setCode_turns (t : List CodeEntry) : (s.setCode t).turns = s.turns := rfl
@[simp] theorem setCode_symSize (t : List CodeEntry) : (s.setCode t).symSize = s.symSize := rfl
@[simp] theorem setCode_wordSize (t : List CodeEntry) : (s.setCode t).wordSize = s.wordSize := rfl

/-! ### storeWords -/

@[simp] theorem storeWords_ie (b : Nat) (vs : List Word) : (s.storeWords b vs).ie = s.ie := rfl
@[simp] theorem storeWords_busy (b : Nat) (vs : List Word) : (s.storeWords b vs).busy = s.busy := rfl
@[simp] theorem storeWords_done (b : Nat) (vs : List Word) : (s.storeWords b vs).done = s.done := rfl
@[simp] theorem storeWords_haz (b : Nat) (vs : List Word) : (s.storeWords b vs).haz = s.haz := rfl
@[simp] theorem storeWords_rootv (b : Nat) (vs : List Word) : (s.storeWords b vs).rootv = s.rootv := rfl
@[simp] theorem storeWords_codetv (b : Nat) (vs : List Word) : (s.storeWords b vs).codetv = s.codetv := rfl
@[simp] theorem storeWords_cmd (b : Nat) (vs : List Word) : (s.storeWords b vs).cmd = s.cmd := rfl
@[simp] theorem storeWords_arg0 (b : Nat) (vs : List Word) : (s.storeWords b vs).arg0 = s.arg0 := rfl
@[simp] theorem storeWords_arg1 (b : Nat) (vs : List Word) : (s.storeWords b vs).arg1 = s.arg1 := rfl
@[simp] theorem storeWords_arg2 (b : Nat) (vs : List Word) : (s.storeWords b vs).arg2 = s.arg2 := rfl
@[simp] theorem storeWords_result (b : Nat) (vs : List Word) : (s.storeWords b vs).result = s.result := rfl
@[simp] theorem storeWords_result1 (b : Nat) (vs : List Word) : (s.storeWords b vs).result1 = s.result1 := rfl
@[simp] theorem storeWords_errcode (b : Nat) (vs : List Word) : (s.storeWords b vs).errcode = s.errcode := rfl
@[simp] theorem storeWords_errinfo (b : Nat) (vs : List Word) : (s.storeWords b vs).errinfo = s.errinfo := rfl
@[simp] theorem storeWords_root (b : Nat) (vs : List Word) : (s.storeWords b vs).root = s.root := rfl
@[simp] theorem storeWords_symcap (b : Nat) (vs : List Word) : (s.storeWords b vs).symcap = s.symcap := rfl
@[simp] theorem storeWords_wordcap (b : Nat) (vs : List Word) : (s.storeWords b vs).wordcap = s.wordcap := rfl
@[simp] theorem storeWords_freq (b : Nat) (vs : List Word) : (s.storeWords b vs).freq = s.freq := rfl
@[simp] theorem storeWords_nodes (b : Nat) (vs : List Word) : (s.storeWords b vs).nodes = s.nodes := rfl
@[simp] theorem storeWords_heap (b : Nat) (vs : List Word) : (s.storeWords b vs).heap = s.heap := rfl
@[simp] theorem storeWords_code (b : Nat) (vs : List Word) : (s.storeWords b vs).code = s.code := rfl
@[simp] theorem storeWords_symmem (b : Nat) (vs : List Word) : (s.storeWords b vs).symmem = s.symmem := rfl
@[simp] theorem storeWords_wordmem (b : Nat) (vs : List Word) : (s.storeWords b vs).wordmem = s.wordmem.writeList b vs := rfl
@[simp] theorem storeWords_rdata (b : Nat) (vs : List Word) : (s.storeWords b vs).rdata = s.rdata := rfl
@[simp] theorem storeWords_draws (b : Nat) (vs : List Word) : (s.storeWords b vs).draws = s.draws := rfl
@[simp] theorem storeWords_turns (b : Nat) (vs : List Word) : (s.storeWords b vs).turns = s.turns := rfl
@[simp] theorem storeWords_symSize (b : Nat) (vs : List Word) : (s.storeWords b vs).symSize = s.symSize := rfl
@[simp] theorem storeWords_wordSize (b : Nat) (vs : List Word) : (s.storeWords b vs).wordSize = s.wordSize := rfl

/-! ### storeSyms -/

@[simp] theorem storeSyms_ie (b : Nat) (xs : List Sym) : (s.storeSyms b xs).ie = s.ie := rfl
@[simp] theorem storeSyms_busy (b : Nat) (xs : List Sym) : (s.storeSyms b xs).busy = s.busy := rfl
@[simp] theorem storeSyms_done (b : Nat) (xs : List Sym) : (s.storeSyms b xs).done = s.done := rfl
@[simp] theorem storeSyms_haz (b : Nat) (xs : List Sym) : (s.storeSyms b xs).haz = s.haz := rfl
@[simp] theorem storeSyms_rootv (b : Nat) (xs : List Sym) : (s.storeSyms b xs).rootv = s.rootv := rfl
@[simp] theorem storeSyms_codetv (b : Nat) (xs : List Sym) : (s.storeSyms b xs).codetv = s.codetv := rfl
@[simp] theorem storeSyms_cmd (b : Nat) (xs : List Sym) : (s.storeSyms b xs).cmd = s.cmd := rfl
@[simp] theorem storeSyms_arg0 (b : Nat) (xs : List Sym) : (s.storeSyms b xs).arg0 = s.arg0 := rfl
@[simp] theorem storeSyms_arg1 (b : Nat) (xs : List Sym) : (s.storeSyms b xs).arg1 = s.arg1 := rfl
@[simp] theorem storeSyms_arg2 (b : Nat) (xs : List Sym) : (s.storeSyms b xs).arg2 = s.arg2 := rfl
@[simp] theorem storeSyms_result (b : Nat) (xs : List Sym) : (s.storeSyms b xs).result = s.result := rfl
@[simp] theorem storeSyms_result1 (b : Nat) (xs : List Sym) : (s.storeSyms b xs).result1 = s.result1 := rfl
@[simp] theorem storeSyms_errcode (b : Nat) (xs : List Sym) : (s.storeSyms b xs).errcode = s.errcode := rfl
@[simp] theorem storeSyms_errinfo (b : Nat) (xs : List Sym) : (s.storeSyms b xs).errinfo = s.errinfo := rfl
@[simp] theorem storeSyms_root (b : Nat) (xs : List Sym) : (s.storeSyms b xs).root = s.root := rfl
@[simp] theorem storeSyms_symcap (b : Nat) (xs : List Sym) : (s.storeSyms b xs).symcap = s.symcap := rfl
@[simp] theorem storeSyms_wordcap (b : Nat) (xs : List Sym) : (s.storeSyms b xs).wordcap = s.wordcap := rfl
@[simp] theorem storeSyms_freq (b : Nat) (xs : List Sym) : (s.storeSyms b xs).freq = s.freq := rfl
@[simp] theorem storeSyms_nodes (b : Nat) (xs : List Sym) : (s.storeSyms b xs).nodes = s.nodes := rfl
@[simp] theorem storeSyms_heap (b : Nat) (xs : List Sym) : (s.storeSyms b xs).heap = s.heap := rfl
@[simp] theorem storeSyms_code (b : Nat) (xs : List Sym) : (s.storeSyms b xs).code = s.code := rfl
@[simp] theorem storeSyms_symmem (b : Nat) (xs : List Sym) : (s.storeSyms b xs).symmem = s.symmem.writeList b xs := rfl
@[simp] theorem storeSyms_wordmem (b : Nat) (xs : List Sym) : (s.storeSyms b xs).wordmem = s.wordmem := rfl
@[simp] theorem storeSyms_rdata (b : Nat) (xs : List Sym) : (s.storeSyms b xs).rdata = s.rdata := rfl
@[simp] theorem storeSyms_draws (b : Nat) (xs : List Sym) : (s.storeSyms b xs).draws = s.draws := rfl
@[simp] theorem storeSyms_turns (b : Nat) (xs : List Sym) : (s.storeSyms b xs).turns = s.turns := rfl
@[simp] theorem storeSyms_symSize (b : Nat) (xs : List Sym) : (s.storeSyms b xs).symSize = s.symSize := rfl
@[simp] theorem storeSyms_wordSize (b : Nat) (xs : List Sym) : (s.storeSyms b xs).wordSize = s.wordSize := rfl

/-! ### drawRead -/

@[simp] theorem drawRead_ie : s.drawRead.ie = s.ie := rfl
@[simp] theorem drawRead_busy : s.drawRead.busy = s.busy := rfl
@[simp] theorem drawRead_done : s.drawRead.done = s.done := rfl
@[simp] theorem drawRead_haz : s.drawRead.haz = s.haz := rfl
@[simp] theorem drawRead_rootv : s.drawRead.rootv = s.rootv := rfl
@[simp] theorem drawRead_codetv : s.drawRead.codetv = s.codetv := rfl
@[simp] theorem drawRead_cmd : s.drawRead.cmd = s.cmd := rfl
@[simp] theorem drawRead_arg0 : s.drawRead.arg0 = s.arg0 := rfl
@[simp] theorem drawRead_arg1 : s.drawRead.arg1 = s.arg1 := rfl
@[simp] theorem drawRead_arg2 : s.drawRead.arg2 = s.arg2 := rfl
@[simp] theorem drawRead_result : s.drawRead.result = s.result := rfl
@[simp] theorem drawRead_result1 : s.drawRead.result1 = s.result1 := rfl
@[simp] theorem drawRead_errcode : s.drawRead.errcode = s.errcode := rfl
@[simp] theorem drawRead_errinfo : s.drawRead.errinfo = s.errinfo := rfl
@[simp] theorem drawRead_root : s.drawRead.root = s.root := rfl
@[simp] theorem drawRead_symcap : s.drawRead.symcap = s.symcap := rfl
@[simp] theorem drawRead_wordcap : s.drawRead.wordcap = s.wordcap := rfl
@[simp] theorem drawRead_freq : s.drawRead.freq = s.freq := rfl
@[simp] theorem drawRead_nodes : s.drawRead.nodes = s.nodes := rfl
@[simp] theorem drawRead_heap : s.drawRead.heap = s.heap := rfl
@[simp] theorem drawRead_code : s.drawRead.code = s.code := rfl
@[simp] theorem drawRead_symmem : s.drawRead.symmem = s.symmem := rfl
@[simp] theorem drawRead_wordmem : s.drawRead.wordmem = s.wordmem := rfl
@[simp] theorem drawRead_rdata : s.drawRead.rdata = Config.freeWord s.draws := rfl
@[simp] theorem drawRead_draws : s.drawRead.draws = s.draws + 1 := rfl
@[simp] theorem drawRead_turns : s.drawRead.turns = s.turns := rfl
@[simp] theorem drawRead_symSize : s.drawRead.symSize = s.symSize := rfl
@[simp] theorem drawRead_wordSize : s.drawRead.wordSize = s.wordSize := rfl

/-! ### applyReset -/

@[simp] theorem applyReset_ie : s.applyReset.ie = State.reset.ie := rfl
@[simp] theorem applyReset_busy : s.applyReset.busy = State.reset.busy := rfl
@[simp] theorem applyReset_done : s.applyReset.done = State.reset.done := rfl
@[simp] theorem applyReset_haz : s.applyReset.haz = State.reset.haz := rfl
@[simp] theorem applyReset_rootv : s.applyReset.rootv = State.reset.rootv := rfl
@[simp] theorem applyReset_codetv : s.applyReset.codetv = State.reset.codetv := rfl
@[simp] theorem applyReset_cmd : s.applyReset.cmd = State.reset.cmd := rfl
@[simp] theorem applyReset_arg0 : s.applyReset.arg0 = State.reset.arg0 := rfl
@[simp] theorem applyReset_arg1 : s.applyReset.arg1 = State.reset.arg1 := rfl
@[simp] theorem applyReset_arg2 : s.applyReset.arg2 = State.reset.arg2 := rfl
@[simp] theorem applyReset_result : s.applyReset.result = State.reset.result := rfl
@[simp] theorem applyReset_result1 : s.applyReset.result1 = State.reset.result1 := rfl
@[simp] theorem applyReset_errcode : s.applyReset.errcode = State.reset.errcode := rfl
@[simp] theorem applyReset_errinfo : s.applyReset.errinfo = State.reset.errinfo := rfl
@[simp] theorem applyReset_root : s.applyReset.root = State.reset.root := rfl
@[simp] theorem applyReset_symcap : s.applyReset.symcap = s.symcap := rfl
@[simp] theorem applyReset_wordcap : s.applyReset.wordcap = s.wordcap := rfl
@[simp] theorem applyReset_freq : s.applyReset.freq = State.reset.freq := rfl
@[simp] theorem applyReset_nodes : s.applyReset.nodes = State.reset.nodes := rfl
@[simp] theorem applyReset_heap : s.applyReset.heap = State.reset.heap := rfl
@[simp] theorem applyReset_code : s.applyReset.code = State.reset.code := rfl
@[simp] theorem applyReset_symmem : s.applyReset.symmem = State.reset.symmem := rfl
@[simp] theorem applyReset_wordmem : s.applyReset.wordmem = State.reset.wordmem := rfl
@[simp] theorem applyReset_rdata : s.applyReset.rdata = State.reset.rdata := rfl
@[simp] theorem applyReset_draws : s.applyReset.draws = s.draws := rfl
@[simp] theorem applyReset_turns : s.applyReset.turns = s.turns := rfl

/-! ### The turn list alone -/

@[simp] theorem withTurns_ie (ts : List Turn) : (({ s with turns := ts } : State)).ie = s.ie := rfl
@[simp] theorem withTurns_busy (ts : List Turn) : (({ s with turns := ts } : State)).busy = s.busy := rfl
@[simp] theorem withTurns_done (ts : List Turn) : (({ s with turns := ts } : State)).done = s.done := rfl
@[simp] theorem withTurns_haz (ts : List Turn) : (({ s with turns := ts } : State)).haz = s.haz := rfl
@[simp] theorem withTurns_rootv (ts : List Turn) : (({ s with turns := ts } : State)).rootv = s.rootv := rfl
@[simp] theorem withTurns_codetv (ts : List Turn) : (({ s with turns := ts } : State)).codetv = s.codetv := rfl
@[simp] theorem withTurns_cmd (ts : List Turn) : (({ s with turns := ts } : State)).cmd = s.cmd := rfl
@[simp] theorem withTurns_arg0 (ts : List Turn) : (({ s with turns := ts } : State)).arg0 = s.arg0 := rfl
@[simp] theorem withTurns_arg1 (ts : List Turn) : (({ s with turns := ts } : State)).arg1 = s.arg1 := rfl
@[simp] theorem withTurns_arg2 (ts : List Turn) : (({ s with turns := ts } : State)).arg2 = s.arg2 := rfl
@[simp] theorem withTurns_result (ts : List Turn) : (({ s with turns := ts } : State)).result = s.result := rfl
@[simp] theorem withTurns_result1 (ts : List Turn) : (({ s with turns := ts } : State)).result1 = s.result1 := rfl
@[simp] theorem withTurns_errcode (ts : List Turn) : (({ s with turns := ts } : State)).errcode = s.errcode := rfl
@[simp] theorem withTurns_errinfo (ts : List Turn) : (({ s with turns := ts } : State)).errinfo = s.errinfo := rfl
@[simp] theorem withTurns_root (ts : List Turn) : (({ s with turns := ts } : State)).root = s.root := rfl
@[simp] theorem withTurns_symcap (ts : List Turn) : (({ s with turns := ts } : State)).symcap = s.symcap := rfl
@[simp] theorem withTurns_wordcap (ts : List Turn) : (({ s with turns := ts } : State)).wordcap = s.wordcap := rfl
@[simp] theorem withTurns_freq (ts : List Turn) : (({ s with turns := ts } : State)).freq = s.freq := rfl
@[simp] theorem withTurns_nodes (ts : List Turn) : (({ s with turns := ts } : State)).nodes = s.nodes := rfl
@[simp] theorem withTurns_heap (ts : List Turn) : (({ s with turns := ts } : State)).heap = s.heap := rfl
@[simp] theorem withTurns_code (ts : List Turn) : (({ s with turns := ts } : State)).code = s.code := rfl
@[simp] theorem withTurns_symmem (ts : List Turn) : (({ s with turns := ts } : State)).symmem = s.symmem := rfl
@[simp] theorem withTurns_wordmem (ts : List Turn) : (({ s with turns := ts } : State)).wordmem = s.wordmem := rfl
@[simp] theorem withTurns_rdata (ts : List Turn) : (({ s with turns := ts } : State)).rdata = s.rdata := rfl
@[simp] theorem withTurns_draws (ts : List Turn) : (({ s with turns := ts } : State)).draws = s.draws := rfl

end Sys2Proof.Machine.State
end

