-- ==== Sys2Proof/Laws/Nodes.lean ====
section
/-! SUPPORT. The node store: OWN writes, allocation, and that each operation keeps R32 to R34. -/

namespace Sys2Proof.Machine

/-! ### Shapes -/

/-- Every node of `a` is a node of `b` with the same fields but OWN: the store has only grown (R28). -/
def Extends (a b : List Node) : Prop :=
  ∀ (i : Nat) (n : Node), a[i]? = some n → ∃ m, b[i]? = some m ∧ m.shape = n.shape

theorem Node.shape_eq_iff {m n : Node} : m.shape = n.shape ↔
    m.kind = n.kind ∧ m.sym = n.sym ∧ m.weight = n.weight ∧ m.left = n.left ∧ m.right = n.right := by
  cases m; cases n; simp [Node.shape]

theorem Extends.refl (a : List Node) : Extends a a := fun _ n h => ⟨n, h, rfl⟩

theorem Extends.trans {a b c : List Node} (h1 : Extends a b) (h2 : Extends b c) : Extends a c := by
  intro i n hn
  obtain ⟨m, hm, hs⟩ := h1 i n hn
  obtain ⟨k, hk, ht⟩ := h2 i m hm
  exact ⟨k, hk, ht.trans hs⟩

theorem extends_append (a b : List Node) : Extends a (a ++ b) := by
  intro i n hn
  have hi : i < a.length := by
    by_contra hc
    simp [List.getElem?_eq_none (Nat.le_of_not_lt hc)] at hn
  exact ⟨n, by rw [List.getElem?_append_left hi, hn], rfl⟩

@[simp] theorem setOwn_length (nodes : List Node) (i : Nat) (o : Own) :
    (setOwn nodes i o).length = nodes.length := by simp [setOwn]

theorem getElem?_setOwn (nodes : List Node) (i : Nat) (o : Own) (j : Nat) :
    (setOwn nodes i o)[j]? = nodes[j]?.map (fun n => if i = j then { n with own := o } else n) := by
  rw [setOwn, List.getElem?_modify]
  cases nodes[j]? <;> simp

theorem extends_setOwn (nodes : List Node) (i : Nat) (o : Own) : Extends nodes (setOwn nodes i o) := by
  intro j n hn
  refine ⟨_, by rw [getElem?_setOwn, hn]; rfl, ?_⟩
  split <;> rfl

theorem setOwn_extends (nodes : List Node) (i : Nat) (o : Own) : Extends (setOwn nodes i o) nodes := by
  intro j n hn
  rw [getElem?_setOwn] at hn
  obtain ⟨m, hm, rfl⟩ := Option.map_eq_some_iff.1 hn
  refine ⟨m, hm, ?_⟩
  split <;> rfl

theorem Extends.isParent {a b : List Node} (h : Extends a b) {p c : Nat} (hp : IsParent a p c) :
    IsParent b p c := by
  obtain ⟨m, hm, hk, hc⟩ := hp
  obtain ⟨k, hk', hs⟩ := h p m hm
  obtain ⟨h1, -, -, h4, h5⟩ := Node.shape_eq_iff.1 hs
  exact ⟨k, hk', h1.trans hk, by rwa [h4, h5]⟩

theorem isParent_setOwn {nodes : List Node} {i : Nat} {o : Own} {p c : Nat} :
    IsParent (setOwn nodes i o) p c ↔ IsParent nodes p c :=
  ⟨(setOwn_extends nodes i o).isParent, (extends_setOwn nodes i o).isParent⟩

theorem Extends.weightIn {a b : List Node} (h : Extends a b) {i : Nat} (hi : i < a.length) :
    weightIn b i = weightIn a i := by
  obtain ⟨m, hm, hs⟩ := h i a[i] (by simp [hi])
  simp [Machine.weightIn, hm, hi, (Node.shape_eq_iff.1 hs).2.2.1]

@[simp] theorem weightIn_setOwn (nodes : List Node) (i : Nat) (o : Own) :
    weightIn (setOwn nodes i o) = weightIn nodes := by
  funext j
  simp only [weightIn, getElem?_setOwn]
  cases nodes[j]? with
  | none => rfl
  | some n => simp only [Option.map_some]; split <;> rfl

theorem weightIn_append_left (nodes : List Node) (n : Node) {j : Nat} (hj : j < nodes.length) :
    weightIn (nodes ++ [n]) j = weightIn nodes j := (extends_append nodes [n]).weightIn hj

theorem weightIn_append_self (nodes : List Node) (n : Node) :
    weightIn (nodes ++ [n]) nodes.length = n.weight.toNat := by simp [weightIn]

theorem weightIn_lt (nodes : List Node) (i : Nat) : weightIn nodes i < 2 ^ 32 := by
  unfold weightIn
  split
  · exact BitVec.isLt _
  · omega

theorem lt_length_of_getElem? {α : Type} {l : List α} {i : Nat} {a : α} (h : l[i]? = some a) : i < l.length := by
  by_contra hc
  simp [List.getElem?_eq_none (Nat.le_of_not_lt hc)] at h

theorem getElem?_append_one {α : Type} {l : List α} {a b : α} {i : Nat} (h : (l ++ [a])[i]? = some b) :
    l[i]? = some b ∨ (i = l.length ∧ b = a) := by
  by_cases hi : i < l.length
  · left; rwa [List.getElem?_append_left hi] at h
  · right
    rw [List.getElem?_append_right (by omega)] at h
    have : i - l.length = 0 := by
      by_contra hc
      have := lt_length_of_getElem? h
      simp at this
      omega
    rw [this] at h
    exact ⟨by omega, by simpa using h.symm⟩

theorem isParent_append_leaf {nodes : List Node} {x : Sym} {v : Word} {p c : Nat} :
    IsParent (nodes ++ [leafNode x v]) p c ↔ IsParent nodes p c := by
  refine ⟨fun ⟨m, hm, hk, hc⟩ => ?_, (extends_append _ _).isParent⟩
  rcases getElem?_append_one hm with h | ⟨-, rfl⟩
  · exact ⟨m, h, hk, hc⟩
  · simp [leafNode] at hk

theorem isParent_append_internal {nodes : List Node} {l r : Nat} {v : Nat} {p c : Nat} :
    IsParent (nodes ++ [internalNode l r v]) p c ↔
      IsParent nodes p c ∨ (p = nodes.length ∧ (c = l ∨ c = r)) := by
  constructor
  · rintro ⟨m, hm, hk, hc⟩
    rcases getElem?_append_one hm with h | ⟨rfl, rfl⟩
    · exact .inl ⟨m, h, hk, hc⟩
    · exact .inr ⟨rfl, by simpa [internalNode, eq_comm] using hc⟩
  · rintro (h | ⟨rfl, hc⟩)
    · exact (extends_append _ _).isParent h
    · exact ⟨internalNode l r v, by simp, rfl, by simpa [internalNode, eq_comm] using hc⟩

/-! ### Ownership (R32) -/

theorem owned_nil : Owned [] [] where
  fields := by simp
  cap := by simp
  nodup := List.nodup_nil
  listed := by simp
  below := by simp
  owned := by rintro p c ⟨m, hm, -⟩; simp at hm
  one := by simp

/-- An allocated node that is the child of none is not CHILD. -/
theorem Owned.not_child {nodes : List Node} {heap : List Nat} (h : Owned nodes heap) {i : Nat} {n : Node}
    (hn : nodes[i]? = some n) (ho : n.own ≠ .child) (p : Nat) : ¬ IsParent nodes p i := fun hp => by
  obtain ⟨m, hm, hc⟩ := h.owned p i hp
  rw [hn] at hm
  cases hm
  exact ho hc

/-- Changing OWN of a node that is not a child, to a value that is not CHILD. -/
theorem Owned.setOwn {nodes : List Node} {heap heap' : List Nat} (h : Owned nodes heap) {i : Nat} {n : Node}
    (hn : nodes[i]? = some n) (ho : n.own ≠ .child) {o : Own} (ho' : o ≠ .child) (hd : heap'.Nodup)
    (hl : ∀ j : Nat, j ∈ heap' ↔ (j = i ∧ o = .inHeap) ∨ (j ≠ i ∧ j ∈ heap)) :
    Owned (Machine.setOwn nodes i o) heap' where
  fields := by
    intro m hm
    obtain ⟨j, hj⟩ := List.getElem?_of_mem hm
    rw [getElem?_setOwn] at hj
    obtain ⟨k, hk, rfl⟩ := Option.map_eq_some_iff.1 hj
    have := h.fields k (List.mem_of_getElem? hk)
    split <;> exact this
  cap := by simpa using h.cap
  nodup := hd
  listed := by
    intro j
    rw [hl, getElem?_setOwn]
    by_cases hj : i = j
    · subst hj
      simp [hn]
    · have := h.listed j
      simp only [ne_eq, Ne.symm hj, not_false_eq_true, true_and, false_and, false_or, this]
      simp [hj]
  below := by
    intro j m hm hk
    rw [getElem?_setOwn] at hm
    obtain ⟨k, hk', rfl⟩ := Option.map_eq_some_iff.1 hm
    have := h.below j k hk' (by revert hk; split <;> exact id)
    split <;> exact this
  owned := by
    intro p c hp
    obtain ⟨m, hm, hc⟩ := h.owned p c (isParent_setOwn.1 hp)
    have hci : i ≠ c := fun e => h.not_child hn ho p (e ▸ isParent_setOwn.1 hp)
    exact ⟨m, by simp [getElem?_setOwn, hm, hci], hc⟩
  one := by
    intro c m hm hc
    rw [getElem?_setOwn] at hm
    obtain ⟨k, hk, rfl⟩ := Option.map_eq_some_iff.1 hm
    have hci : i ≠ c := fun e => by rw [if_pos e] at hc; exact ho' hc
    rw [if_neg hci] at hc
    obtain ⟨p, hp, hu⟩ := h.one c k hk hc
    exact ⟨p, isParent_setOwn.2 hp, fun q hq => hu q (isParent_setOwn.1 hq)⟩

/-- Allocating a leaf (R120). -/
theorem Owned.newLeaf {nodes : List Node} {heap : List Nat} (h : Owned nodes heap) (x : Sym) (v : Word)
    (hc : nodes.length < Config.nodeCap) : Owned (nodes ++ [leafNode x v]) heap where
  fields := by
    intro m hm
    rcases List.mem_append.1 hm with hm | hm
    · exact h.fields m hm
    · obtain rfl := List.mem_singleton.1 hm
      simp [leafNode]
  cap := by simp at *; omega
  nodup := h.nodup
  listed := by
    intro j
    rw [h.listed]
    constructor
    · rintro ⟨n, hn, ho⟩
      exact ⟨n, by rw [List.getElem?_append_left (lt_length_of_getElem? hn), hn], ho⟩
    · rintro ⟨n, hn, ho⟩
      rcases getElem?_append_one hn with hn | ⟨-, rfl⟩
      · exact ⟨n, hn, ho⟩
      · simp [leafNode] at ho
  below := by
    intro j m hm hk
    rcases getElem?_append_one hm with hm | ⟨-, rfl⟩
    · exact h.below j m hm hk
    · simp [leafNode] at hk
  owned := by
    intro p c hp
    obtain ⟨m, hm, ho⟩ := h.owned p c (isParent_append_leaf.1 hp)
    exact ⟨m, by rw [List.getElem?_append_left (lt_length_of_getElem? hm), hm], ho⟩
  one := by
    intro c m hm ho
    rcases getElem?_append_one hm with hm | ⟨-, rfl⟩
    · obtain ⟨p, hp, hu⟩ := h.one c m hm ho
      exact ⟨p, isParent_append_leaf.2 hp, fun q hq => hu q (isParent_append_leaf.1 hq)⟩
    · simp [leafNode] at ho

/-- Allocating an internal node over two distinct FREE nodes (R121). -/
theorem Owned.newInternal {nodes : List Node} {heap : List Nat} (h : Owned nodes heap) {l r : Nat} {nl nr : Node}
    (hl : nodes[l]? = some nl) (hr : nodes[r]? = some nr) (hol : nl.own = .free) (hor : nr.own = .free)
    (hne : l ≠ r) (v : Nat) (hc : nodes.length < Config.nodeCap) :
    Owned (Machine.setOwn (Machine.setOwn nodes l .child) r .child ++ [internalNode l r v]) heap := by
  have hll := lt_length_of_getElem? hl
  have hrl := lt_length_of_getElem? hr
  have hget : ∀ j : Nat, (Machine.setOwn (Machine.setOwn nodes l .child) r .child)[j]? =
      nodes[j]?.map (fun n => if j = l ∨ j = r then { n with own := .child } else n) := by
    intro j
    rw [getElem?_setOwn, getElem?_setOwn, Option.map_map]
    congr 1
    funext n
    by_cases h1 : j = l
    · subst h1
      have h2 : ¬ r = j := Ne.symm hne
      simp [h2]
    · by_cases h2 : j = r
      · subst h2; simp [hne]
      · simp [h1, h2, Ne.symm h1, Ne.symm h2]
  have hpar : ∀ p c, IsParent (Machine.setOwn (Machine.setOwn nodes l .child) r .child ++ [internalNode l r v]) p c ↔
      IsParent nodes p c ∨ (p = nodes.length ∧ (c = l ∨ c = r)) := by
    intro p c
    rw [isParent_append_internal, isParent_setOwn, isParent_setOwn, setOwn_length, setOwn_length]
  have hfl : ∀ p, ¬ IsParent nodes p l := h.not_child hl (by simp [hol])
  have hfr : ∀ p, ¬ IsParent nodes p r := h.not_child hr (by simp [hor])
  refine ⟨?_, by simp at *; omega, h.nodup, ?_, ?_, ?_, ?_⟩
  · intro m hm
    rcases List.mem_append.1 hm with hm | hm
    · obtain ⟨j, hj⟩ := List.getElem?_of_mem hm
      rw [hget] at hj
      obtain ⟨k, hk, rfl⟩ := Option.map_eq_some_iff.1 hj
      have := h.fields k (List.mem_of_getElem? hk)
      split <;> exact this
    · obtain rfl := List.mem_singleton.1 hm
      simp [internalNode]
  · intro j
    rw [h.listed]
    constructor
    · rintro ⟨n, hn, ho⟩
      have hj := lt_length_of_getElem? hn
      have hjl : j ≠ l := by rintro rfl; rw [hl] at hn; cases hn; simp [hol] at ho
      have hjr : j ≠ r := by rintro rfl; rw [hr] at hn; cases hn; simp [hor] at ho
      exact ⟨n, by rw [List.getElem?_append_left (by simpa using hj), hget, hn]; simp [hjl, hjr], ho⟩
    · rintro ⟨n, hn, ho⟩
      rcases getElem?_append_one hn with hn | ⟨-, rfl⟩
      · rw [hget] at hn
        obtain ⟨k, hk, rfl⟩ := Option.map_eq_some_iff.1 hn
        split at ho
        · simp at ho
        · exact ⟨k, hk, ho⟩
      · simp [internalNode] at ho
  · intro j m hm hk
    rcases getElem?_append_one hm with hm | ⟨rfl, rfl⟩
    · rw [hget] at hm
      obtain ⟨k, hk', rfl⟩ := Option.map_eq_some_iff.1 hm
      have := h.below j k hk' (by revert hk; split <;> exact id)
      split <;> exact this
    · simpa [internalNode] using ⟨hll, hrl, hne⟩
  · intro p c hp
    have key : ∀ n, nodes[c]? = some n → ∃ m,
        (Machine.setOwn (Machine.setOwn nodes l .child) r .child ++ [internalNode l r v])[c]? = some m ∧
          m = if c = l ∨ c = r then { n with own := .child } else n := by
      intro n hn
      exact ⟨_, by rw [List.getElem?_append_left (by simpa using lt_length_of_getElem? hn), hget, hn]; rfl, rfl⟩
    rcases (hpar p c).1 hp with hp | ⟨-, hc⟩
    · obtain ⟨n, hn, ho⟩ := h.owned p c hp
      obtain ⟨m, hm, rfl⟩ := key n hn
      exact ⟨_, hm, by split <;> simp [ho]⟩
    · rcases hc with rfl | rfl
      · obtain ⟨m, hm, rfl⟩ := key nl hl; exact ⟨_, hm, by simp⟩
      · obtain ⟨m, hm, rfl⟩ := key nr hr; exact ⟨_, hm, by simp⟩
  · intro c m hm ho
    rcases getElem?_append_one hm with hm | ⟨-, rfl⟩
    · rw [hget] at hm
      obtain ⟨k, hk, rfl⟩ := Option.map_eq_some_iff.1 hm
      by_cases hcc : c = l ∨ c = r
      · refine ⟨nodes.length, (hpar _ _).2 (.inr ⟨rfl, hcc⟩), fun q hq => ?_⟩
        rcases (hpar _ _).1 hq with hq' | ⟨hq', -⟩
        · rcases hcc with rfl | rfl
          · exact absurd hq' (hfl q)
          · exact absurd hq' (hfr q)
        · exact hq'
      · rw [if_neg hcc] at ho
        obtain ⟨p, hp, hu⟩ := h.one c k hk ho
        refine ⟨p, (hpar _ _).2 (.inl hp), fun q hq => ?_⟩
        rcases (hpar _ _).1 hq with hq | ⟨-, hq⟩
        · exact hu q hq
        · exact absurd hq hcc
    · simp [internalNode] at ho

/-! ### R32 to R34 together -/

theorem treeOk_nil : TreeOk [] [] :=
  ⟨owned_nil, heapOrdered_nil _, by intro i n hn; simp at hn⟩

/-- Every queued node is allocated (R32 (a)). -/
theorem Owned.heap_lt {nodes : List Node} {heap : List Nat} (h : Owned nodes heap) {i : Nat}
    (hi : i ∈ heap) : i < nodes.length := by
  obtain ⟨n, hn, -⟩ := (h.listed i).1 hi
  exact lt_length_of_getElem? hn

theorem Owned.readable {s : State} (h : Owned s.nodes s.heap) : s.heapReadable = true := by
  simp only [State.heapReadable, List.all_eq_true, decide_eq_true_eq]
  exact fun i hi => h.heap_lt hi

/-- The heap is no larger than the store (R108). -/
theorem Owned.hsize_le {nodes : List Node} {heap : List Nat} (h : Owned nodes heap) :
    heap.length ≤ nodes.length := by
  have : heap ⊆ List.range nodes.length := fun i hi => List.mem_range.2 (h.heap_lt hi)
  simpa using (h.nodup.subperm this).length_le

/-- A FREE node leaves room in the heap (R108). -/
theorem Owned.hsize_lt {nodes : List Node} {heap : List Nat} (h : Owned nodes heap) {i : Nat} {n : Node}
    (hn : nodes[i]? = some n) (ho : n.own = .free) : heap.length < nodes.length := by
  have hi : i ∉ heap := fun hi => by
    obtain ⟨m, hm, hm'⟩ := (h.listed i).1 hi
    rw [hn] at hm; cases hm; simp [ho] at hm'
  have : (i :: heap) ⊆ List.range nodes.length := by
    intro j hj
    rcases List.mem_cons.1 hj with rfl | hj
    · exact List.mem_range.2 (lt_length_of_getElem? hn)
    · exact List.mem_range.2 (h.heap_lt hj)
  simpa using ((List.nodup_cons.2 ⟨hi, h.nodup⟩).subperm this).length_le

theorem weightsAdd_of_extends {a b : List Node} (h : Extends a b) (hb : Extends b a)
    (hw : WeightsAdd a) (hlen : ∀ (i : Nat) (n : Node), a[i]? = some n → n.kind = .internal →
      n.left < a.length ∧ n.right < a.length) : WeightsAdd b := by
  intro i n hn hk
  obtain ⟨m, hm, hs⟩ := hb i n hn
  obtain ⟨h1, -, h3, h4, h5⟩ := Node.shape_eq_iff.1 hs
  have hmk := h1.trans hk
  have hb' := hlen i m hm hmk
  rw [← h3, ← h4, ← h5, h.weightIn hb'.1, h.weightIn hb'.2]
  exact hw i m hm hmk

theorem Owned.children_lt {nodes : List Node} {heap : List Nat} (h : Owned nodes heap) (i : Nat) (n : Node)
    (hn : nodes[i]? = some n) (hk : n.kind = .internal) : n.left < nodes.length ∧ n.right < nodes.length := by
  have := h.below i n hn hk
  have := lt_length_of_getElem? hn
  omega

/-- `HeapInsert(i)` of a FREE node keeps R32 to R34. -/
theorem TreeOk.heapInsert {s : State} (h : TreeOk s.nodes s.heap) {i : Nat} {n : Node}
    (hn : s.nodes[i]? = some n) (ho : n.own = .free) :
    TreeOk (s.heapInsert i).nodes (s.heapInsert i).heap := by
  have hperm := heapPush_perm s.W s.heap i
  have hi : i ∉ s.heap := fun hi => by
    obtain ⟨m, hm, hm'⟩ := (h.owned.listed i).1 hi
    rw [hn] at hm; cases hm; simp [ho] at hm'
  refine ⟨h.owned.setOwn hn (by simp [ho]) (by simp) (hperm.nodup_iff.2 (List.nodup_cons.2 ⟨hi, h.owned.nodup⟩))
    fun j => ?_, ?_, ?_⟩
  · rw [State.heapInsert_heap, hperm.mem_iff, List.mem_cons]
    by_cases hj : j = i <;> simp [hj]
  · show HeapOrdered (weightIn (Machine.setOwn s.nodes i .inHeap)) _
    rw [weightIn_setOwn]
    exact heapPush_ordered _ i h.ordered
  · exact weightsAdd_of_extends (extends_setOwn _ _ _) (setOwn_extends _ _ _) h.weights h.owned.children_lt

/-- `HeapPop()` of a heap that is not empty keeps R32 to R34. -/
theorem TreeOk.heapPop {s : State} (h : TreeOk s.nodes s.heap) (hs : 0 < s.hsize) :
    TreeOk s.heapPop.nodes s.heapPop.heap := by
  have hperm := heapDrop_perm s.W hs
  have hmem : s.heapMin ∈ s.heap := heapAt_mem hs
  obtain ⟨n, hn, ho⟩ := (h.owned.listed _).1 hmem
  have hnd := List.nodup_cons.1 (hperm.nodup_iff.2 h.owned.nodup)
  refine ⟨h.owned.setOwn hn (by simp [ho]) (by simp) hnd.2 fun j => ?_, ?_, ?_⟩
  · have := hperm.mem_iff (a := j)
    rw [List.mem_cons] at this
    constructor
    · intro hj
      exact .inr ⟨fun e => hnd.1 (by subst e; exact hj), this.1 (.inr hj)⟩
    · rintro (⟨-, h'⟩ | ⟨hne, hj⟩)
      · simp at h'
      · exact (this.2 hj).resolve_left hne
  · show HeapOrdered (weightIn (Machine.setOwn s.nodes s.heapMin .free)) _
    rw [weightIn_setOwn]
    exact heapDrop_ordered _ h.ordered
  · exact weightsAdd_of_extends (extends_setOwn _ _ _) (setOwn_extends _ _ _) h.weights h.owned.children_lt

theorem TreeOk.newLeaf {s : State} (h : TreeOk s.nodes s.heap) (x : Sym) (v : Word)
    (hc : s.ncount < Config.nodeCap) : TreeOk (s.newLeaf x v).nodes (s.newLeaf x v).heap := by
  refine ⟨h.owned.newLeaf x v hc, ?_, ?_⟩
  · exact heapOrdered_congr (fun i hi => weightIn_append_left _ _ (h.owned.heap_lt hi)) h.ordered
  · intro i n hn hk
    rcases getElem?_append_one hn with hn | ⟨-, rfl⟩
    · have := h.owned.children_lt i n hn hk
      simp only [State.newLeaf]
      rw [weightIn_append_left _ _ this.1, weightIn_append_left _ _ this.2]
      exact h.weights i n hn hk
    · simp [leafNode] at hk

theorem TreeOk.newInternal {s : State} (h : TreeOk s.nodes s.heap) {l r : Nat} {nl nr : Node}
    (hl : s.nodes[l]? = some nl) (hr : s.nodes[r]? = some nr) (hol : nl.own = .free) (hor : nr.own = .free)
    (hne : l ≠ r) (hc : s.ncount < Config.nodeCap) (hw : s.W l + s.W r ≤ Config.maxWeight) :
    TreeOk (s.newInternal l r).nodes (s.newInternal l r).heap := by
  have hlen : (Machine.setOwn (Machine.setOwn s.nodes l .child) r .child).length = s.nodes.length := by simp
  have hweq : ∀ j, j < s.nodes.length → weightIn (s.newInternal l r).nodes j = weightIn s.nodes j := by
    intro j hj
    rw [State.newInternal_nodes, weightIn_append_left _ _ (by rwa [hlen]), weightIn_setOwn, weightIn_setOwn]
  refine ⟨h.owned.newInternal hl hr hol hor hne _ hc, ?_, ?_⟩
  · exact heapOrdered_congr (fun i hi => hweq i (h.owned.heap_lt hi)) h.ordered
  · intro i n hn hk
    rcases getElem?_append_one hn with hn' | ⟨rfl, rfl⟩
    · obtain ⟨m, hm, hs⟩ := ((setOwn_extends _ _ _).trans (setOwn_extends s.nodes l .child)) i n hn'
      obtain ⟨h1, -, h3, h4, h5⟩ := Node.shape_eq_iff.1 hs
      have := h.owned.children_lt i m hm (h1.trans hk)
      rw [← h3, ← h4, ← h5, hweq _ this.1, hweq _ this.2]
      exact h.weights i m hm (h1.trans hk)
    · have h1 : s.W l + s.W r < 2 ^ 32 := by simp at hw; omega
      rw [show (internalNode l r (s.W l + s.W r)).left = l from rfl,
        show (internalNode l r (s.W l + s.W r)).right = r from rfl, hweq _ (lt_length_of_getElem? hl),
        hweq _ (lt_length_of_getElem? hr)]
      exact toWord_toNat_of_lt h1

end Sys2Proof.Machine
end

