-- ==== Sys2Proof/Laws/Tree.lean ====
section
/-! SUPPORT. What the shared tree operations do: insert and pop on a state, MergeStep (R122) and the loops of BUILD (R126). -/

namespace Sys2Proof.Machine

variable {s : State}

/-! ### Counts and weights under the operations -/

theorem State.W_eq (s : State) : s.W = weightIn s.nodes := rfl

@[simp] theorem heapInsert_W (s : State) (i : Nat) : (s.heapInsert i).W = s.W := by
  simp [State.W_eq]

@[simp] theorem heapInsert_ncount (s : State) (i : Nat) : (s.heapInsert i).ncount = s.ncount := by
  simp [State.ncount]

@[simp] theorem heapInsert_hsize (s : State) (i : Nat) : (s.heapInsert i).hsize = s.hsize + 1 := by
  simp [State.hsize, heapPush_length]

@[simp] theorem heapPop_W (s : State) : s.heapPop.W = s.W := by simp [State.W_eq]

@[simp] theorem heapPop_ncount (s : State) : s.heapPop.ncount = s.ncount := by simp [State.ncount]

@[simp] theorem heapPop_hsize (s : State) : s.heapPop.hsize = s.hsize - 1 := by
  simp [State.hsize, heapDrop_length]

@[simp] theorem newLeaf_ncount (s : State) (x : Sym) (v : Word) : (s.newLeaf x v).ncount = s.ncount + 1 := by
  simp [State.ncount]

@[simp] theorem newInternal_ncount (s : State) (l r : Nat) : (s.newInternal l r).ncount = s.ncount + 1 := by
  simp [State.ncount]

@[simp] theorem newLeaf_hsize (s : State) (x : Sym) (v : Word) : (s.newLeaf x v).hsize = s.hsize := rfl

@[simp] theorem newInternal_hsize (s : State) (l r : Nat) : (s.newInternal l r).hsize = s.hsize := rfl

theorem newLeaf_W_lt (s : State) (x : Sym) (v : Word) {i : Nat} (hi : i < s.ncount) :
    (s.newLeaf x v).W i = s.W i := weightIn_append_left _ _ hi

theorem newLeaf_W_self (s : State) (x : Sym) (v : Word) : (s.newLeaf x v).W s.ncount = v.toNat :=
  weightIn_append_self _ _

theorem newInternal_W_lt (s : State) (l r : Nat) {i : Nat} (hi : i < s.ncount) :
    (s.newInternal l r).W i = s.W i := by
  rw [State.W_eq, State.newInternal_nodes, weightIn_append_left _ _ (by simpa [State.ncount] using hi)]
  simp [State.W_eq]

theorem newInternal_W_self (s : State) (l r : Nat) (h : s.W l + s.W r ≤ Config.maxWeight) :
    (s.newInternal l r).W s.ncount = s.W l + s.W r := by
  have hl : s.ncount = (setOwn (setOwn s.nodes l .child) r .child).length := by simp [State.ncount]
  rw [State.W_eq, State.newInternal_nodes, hl, weightIn_append_self]
  exact toWord_toNat_of_lt (by simp at h; omega)

/-- The weights queued. -/
def heapWeight (s : State) : Nat := (s.heap.map s.W).sum

theorem heapWeight_heapInsert (s : State) (i : Nat) : heapWeight (s.heapInsert i) = s.W i + heapWeight s := by
  unfold heapWeight
  rw [heapInsert_W, State.heapInsert_heap, ((heapPush_perm s.W s.heap i).map s.W).sum_eq]
  simp

theorem heapWeight_heapPop (h : 0 < s.hsize) : s.W s.heapMin + heapWeight s.heapPop = heapWeight s := by
  unfold heapWeight
  rw [heapPop_W, State.heapPop_heap, ← ((heapDrop_perm s.W h).map s.W).sum_eq]
  simp [State.heapMin]

theorem heapMin_mem (h : 0 < s.hsize) : s.heapMin ∈ s.heap := heapAt_mem h

theorem heapPop_heap_subset (h : 0 < s.hsize) {i : Nat} (hi : i ∈ s.heapPop.heap) : i ∈ s.heap :=
  (heapDrop_perm s.W h).mem_iff.1 (List.mem_cons_of_mem _ hi)

/-! ### MergeStep (R122) -/

/-- The second node a MergeStep pops. -/
def State.heapMin2 (s : State) : Nat := s.heapPop.heapMin

/-- The state after both pops of a MergeStep. -/
def State.heapPop2 (s : State) : State := s.heapPop.heapPop

@[simp] theorem heapPop2_W (s : State) : s.heapPop2.W = s.W := by simp [State.heapPop2]

@[simp] theorem heapPop2_ncount (s : State) : s.heapPop2.ncount = s.ncount := by simp [State.heapPop2]

@[simp] theorem heapPop2_hsize (s : State) : s.heapPop2.hsize = s.hsize - 2 := by
  simp [State.heapPop2]; omega

/-- The state a MergeStep leaves when it does not raise. -/
def State.merged (s : State) : State := (s.heapPop2.newInternal s.heapMin s.heapMin2).heapInsert s.ncount

/-- Everything a MergeStep can do in a state of R32. -/
theorem mergeStep_eq (h : Owned s.nodes s.heap) :
    s.mergeStep =
      if s.hsize < 2 then raise .emptyQueue (toWord s.hsize)
      else if s.ncount = Config.nodeCap then raise .nodeFull (toWord s.ncount)
      else if s.W s.heapMin + s.W s.heapMin2 > Config.maxWeight then
        raise .weightOverflow (overflowInfo s.heapMin s.heapMin2)
      else .ok (s.merged, s.ncount) := by
  unfold State.mergeStep
  simp [h.readable, State.heapMin2, State.merged, State.heapPop2]

/-- The popped pair: allocated, distinct, FREE after the pops, and the two lightest of the heap. -/
theorem popped_pair (h : TreeOk s.nodes s.heap) (h2 : 2 ≤ s.hsize) :
    TreeOk s.heapPop2.nodes s.heapPop2.heap ∧ s.heapMin ≠ s.heapMin2 ∧
      (∃ n, s.heapPop2.nodes[s.heapMin]? = some n ∧ n.own = .free) ∧
      (∃ n, s.heapPop2.nodes[s.heapMin2]? = some n ∧ n.own = .free) := by
  have h0 : 0 < s.hsize := by omega
  have h1 : 0 < s.heapPop.hsize := by simp; omega
  have t1 := h.heapPop h0
  have t2 := t1.heapPop h1
  have hl := h.owned.heap_lt (heapMin_mem h0)
  have hr := h.owned.heap_lt (heapPop_heap_subset h0 (heapMin_mem h1))
  have hnd := List.nodup_cons.1 ((heapDrop_perm s.W h0).nodup_iff.2 h.owned.nodup)
  have hne : s.heapMin ≠ s.heapMin2 := by
    intro e
    refine hnd.1 ?_
    show s.heapMin ∈ heapDrop s.W s.heap
    rw [e]
    exact heapMin_mem h1
  refine ⟨t2, hne, ?_, ?_⟩
  · obtain ⟨n, hn⟩ : ∃ n, s.nodes[s.heapMin]? = some n := ⟨_, List.getElem?_eq_getElem hl⟩
    show ∃ m, (setOwn (setOwn s.nodes s.heapMin .free) s.heapMin2 .free)[s.heapMin]? = some m ∧ m.own = .free
    rw [getElem?_setOwn, getElem?_setOwn, hn]
    exact ⟨_, rfl, by simp [Ne.symm hne]⟩
  · obtain ⟨n, hn⟩ : ∃ n, s.nodes[s.heapMin2]? = some n := ⟨_, List.getElem?_eq_getElem hr⟩
    show ∃ m, (setOwn (setOwn s.nodes s.heapMin .free) s.heapMin2 .free)[s.heapMin2]? = some m ∧ m.own = .free
    rw [getElem?_setOwn, getElem?_setOwn, hn]
    exact ⟨_, rfl, by simp⟩

theorem heapMin_le (h : HeapOrdered s.W s.heap) {i : Nat} (hi : i ∈ s.heap) : s.W s.heapMin ≤ s.W i :=
  heapOrdered_root_min h hi

/-- What the combined state is (R122, R124). -/
structure Merged (s t : State) : Prop where
  tree : TreeOk t.nodes t.heap
  ncount : t.ncount = s.ncount + 1
  hsize : t.hsize + 1 = s.hsize
  node : t.nodes[s.ncount]? =
    some { internalNode s.heapMin s.heapMin2 (s.W s.heapMin + s.W s.heapMin2) with own := .inHeap }
  weight : t.W s.ncount = s.W s.heapMin + s.W s.heapMin2
  old : ∀ (i : Nat) (n : Node), s.nodes[i]? = some n → t.nodes[i]? =
    some (if i = s.heapMin ∨ i = s.heapMin2 then { n with own := .child } else n)
  heap : ∀ i, i ∈ t.heap ↔ i = s.ncount ∨ (i ∈ s.heap ∧ i ≠ s.heapMin ∧ i ≠ s.heapMin2)
  queued : heapWeight t = heapWeight s

theorem merged_spec (h : TreeOk s.nodes s.heap) (h2 : 2 ≤ s.hsize) (hc : s.ncount < Config.nodeCap)
    (hw : s.W s.heapMin + s.W s.heapMin2 ≤ Config.maxWeight) : Merged s s.merged := by
  have h0 : 0 < s.hsize := by omega
  have h1 : 0 < s.heapPop.hsize := by simp; omega
  obtain ⟨t2, hne, ⟨nl, hnl, hol⟩, ⟨nr, hnr, hor⟩⟩ := popped_pair h h2
  have hl : s.heapMin < s.ncount := h.owned.heap_lt (heapMin_mem h0)
  have hr : s.heapMin2 < s.ncount := h.owned.heap_lt (heapPop_heap_subset h0 (heapMin_mem h1))
  have t3 := t2.newInternal hnl hnr hol hor hne (by simpa using hc) (by simpa using hw)
  have hnew : (s.heapPop2.newInternal s.heapMin s.heapMin2).nodes[s.ncount]? =
      some (internalNode s.heapMin s.heapMin2 (s.W s.heapMin + s.W s.heapMin2)) := by
    have : s.ncount = (setOwn (setOwn s.heapPop2.nodes s.heapMin .child) s.heapMin2 .child).length := by
      have := heapPop2_ncount s
      simp only [setOwn_length]
      exact this.symm
    rw [State.newInternal_nodes, this]
    simp
  have t4 := t3.heapInsert hnew rfl
  have hold : ∀ (i : Nat) (n : Node), s.nodes[i]? = some n → s.merged.nodes[i]? =
      some (if i = s.heapMin ∨ i = s.heapMin2 then { n with own := .child } else n) := by
    intro i n hn
    have hi : i < s.ncount := lt_length_of_getElem? hn
    have hi' : i < (setOwn (setOwn s.heapPop2.nodes s.heapMin .child) s.heapMin2 .child).length := by
      simpa [State.heapPop2, State.ncount] using hi
    show (setOwn (setOwn (setOwn s.heapPop2.nodes s.heapMin .child) s.heapMin2 .child ++ [_]) s.ncount .inHeap)[i]? = _
    rw [getElem?_setOwn, List.getElem?_append_left hi']
    show Option.map _ (setOwn (setOwn (setOwn (setOwn s.nodes s.heapMin .free) s.heapMin2 .free) s.heapMin .child)
      s.heapMin2 .child)[i]? = _
    simp only [getElem?_setOwn, hn, Option.map_some, Option.some.injEq]
    rw [if_neg (by omega)]
    by_cases e1 : i = s.heapMin
    · rw [← e1] at hne
      simp [← e1, Ne.symm hne]
    · by_cases e2 : i = s.heapMin2
      · rw [← e2] at hne
        simp [← e2, hne]
      · simp [e1, e2, Ne.symm e1, Ne.symm e2]
  refine ⟨t4, by simp [State.merged], by simp [State.merged]; omega, ?_, ?_, hold, ?_, ?_⟩
  · show (setOwn _ s.ncount .inHeap)[s.ncount]? = _
    rw [getElem?_setOwn, hnew]
    simp
  · have := newInternal_W_self s.heapPop2 s.heapMin s.heapMin2 (by simpa using hw)
    simpa [State.merged] using this
  · intro i
    have p1 := (heapDrop_perm s.W h0)
    have p2 := (heapDrop_perm s.heapPop.W h1)
    have n1 := List.nodup_cons.1 (p1.nodup_iff.2 h.owned.nodup)
    have n2 := List.nodup_cons.1 (p2.nodup_iff.2 n1.2)
    have m1 := p1.mem_iff (a := i)
    have m2 := p2.mem_iff (a := i)
    rw [List.mem_cons] at m1 m2
    show i ∈ (heapPush _ s.heapPop2.heap s.ncount).1 ↔ _
    rw [(heapPush_perm _ _ _).mem_iff, List.mem_cons]
    refine or_congr_right ?_
    show i ∈ heapDrop s.heapPop.W s.heapPop.heap ↔ _
    constructor
    · intro hi
      have hi1 := m2.1 (.inr hi)
      have hi0 := m1.1 (.inr hi1)
      refine ⟨hi0, fun e => n1.1 ?_, fun e => n2.1 ?_⟩
      · have : heapAt s.heap 0 = i := e.symm
        rw [this]; exact hi1
      · have : heapAt s.heapPop.heap 0 = i := e.symm
        rw [this]; exact hi
    · rintro ⟨hi, e1, e2⟩
      exact (m2.2 ((m1.2 hi).resolve_left e1)).resolve_left e2
  · have e1 := heapWeight_heapPop h0
    have e2 := heapWeight_heapPop h1
    rw [heapPop_W] at e2
    have e3 : heapWeight (s.heapPop2.newInternal s.heapMin s.heapMin2) = heapWeight s.heapPop2 := by
      unfold heapWeight
      congr 1
      refine List.map_congr_left fun i hi => newInternal_W_lt _ _ _ ?_
      exact t2.owned.heap_lt hi
    rw [State.merged, heapWeight_heapInsert, e3]
    have e4 := newInternal_W_self s.heapPop2 s.heapMin s.heapMin2 (by simpa using hw)
    rw [heapPop2_ncount, heapPop2_W] at e4
    rw [e4]
    unfold State.heapPop2 State.heapMin2
    omega

/-- The store of a state only grows through a MergeStep. -/
theorem Merged.extends {s t : State} (h : Merged s t) : Extends s.nodes t.nodes := by
  intro i n hn
  refine ⟨_, h.old i n hn, ?_⟩
  split <;> rfl

/-! ### The merge loop of BUILD (R126, R127) -/

/-- What holds at every test of the merge loop: `k` symbols, frequencies that sum to `total`. -/
structure BuildLoop (k total : Nat) (s : State) : Prop where
  tree : TreeOk s.nodes s.heap
  noFree : ∀ (i : Nat) (n : Node), s.nodes[i]? = some n → n.own ≠ .free
  queued : heapWeight s = total
  count : s.ncount + s.hsize = 2 * k
  pos : 1 ≤ s.hsize

theorem pair_le_heapWeight (h2 : 2 ≤ s.hsize) : s.W s.heapMin + s.W s.heapMin2 ≤ heapWeight s := by
  have e1 := heapWeight_heapPop (s := s) (by omega)
  have e2 := heapWeight_heapPop (s := s.heapPop) (by simp; omega)
  rw [heapPop_W] at e2
  unfold State.heapMin2
  omega

theorem BuildLoop.merged {k total : Nat} (h : BuildLoop k total s) (hk : k ≤ 256) (ht : total ≤ Config.maxWeight)
    (h2 : 2 ≤ s.hsize) : s.mergeStep = .ok (s.merged, s.ncount) ∧ Merged s s.merged ∧ BuildLoop k total s.merged := by
  have hc : s.ncount < Config.nodeCap := by have := h.count; simp; omega
  have hw : s.W s.heapMin + s.W s.heapMin2 ≤ Config.maxWeight := by
    have := pair_le_heapWeight h2; have := h.queued; omega
  have m := merged_spec h.tree h2 hc hw
  refine ⟨?_, m, m.tree, ?_, m.queued.trans h.queued, ?_, ?_⟩
  · rw [mergeStep_eq h.tree.owned, if_neg (by omega), if_neg (by omega), if_neg (by omega)]
  · intro i n hn
    by_cases hi : i < s.ncount
    · have hs : s.nodes[i]? = some s.nodes[i] := List.getElem?_eq_getElem hi
      have := m.old i _ hs
      rw [hn] at this
      have hf := h.noFree i _ hs
      cases this
      split
      · simp
      · exact hf
    · have hi' := lt_length_of_getElem? hn
      have hcnt : s.merged.nodes.length = s.ncount + 1 := m.ncount
      have : i = s.ncount := by omega
      subst this
      rw [m.node] at hn
      cases hn
      simp
  · have := m.ncount; have := m.hsize; have := h.count; omega
  · have := m.hsize; omega

/-- The merge loop never raises; it ends with one queued node, the last one allocated if there was a merge (R127). -/
theorem mergeAll_spec {k total : Nat} (hk : k ≤ 256) (ht : total ≤ Config.maxWeight) (fuel : Nat) {s : State}
    (h : BuildLoop k total s) (hf : s.hsize ≤ fuel) :
    ∃ t, State.mergeAll fuel s = .ok t ∧ BuildLoop k total t ∧ t.hsize = 1 ∧ Extends s.nodes t.nodes ∧
      (∀ (i : Nat) (n : Node), t.nodes[i]? = some n → n.kind = .leaf → i < s.ncount) ∧
      (s.hsize = 1 → t = s) ∧ (2 ≤ s.hsize → t.heapMin + 1 = t.ncount) := by
  induction fuel generalizing s with
  | zero => have := h.pos; omega
  | succ fuel ih =>
    simp only [State.mergeAll]
    by_cases h2 : s.hsize > 1
    · obtain ⟨e, m, h'⟩ := h.merged hk ht h2
      rw [if_pos h2, e]
      obtain ⟨t, ht', hb, h1, hx, hleaf, hone, htwo⟩ := ih h' (by have := m.hsize; omega)
      refine ⟨t, ht', hb, h1, m.extends.trans hx, fun i n hn hkd => ?_, by omega, fun _ => ?_⟩
      · have hi := hleaf i n hn hkd
        have := m.ncount
        by_contra hc
        have hie : i = s.ncount := by omega
        subst hie
        obtain ⟨m', hm', hs'⟩ := hx _ _ m.node
        rw [hn] at hm'
        cases hm'
        have := (Node.shape_eq_iff.1 hs').1
        rw [hkd] at this
        simp [internalNode] at this
      · by_cases h3 : s.merged.hsize = 1
        · have := hone h3
          subst this
          have hlen : s.merged.heap.length = 1 := h3
          obtain ⟨a, ha⟩ := List.length_eq_one_iff.1 hlen
          have hm := (m.heap s.ncount).2 (.inl rfl)
          rw [ha, List.mem_singleton] at hm
          have := m.ncount
          simp only [State.heapMin, heapAt, ha, List.getD_cons_zero]
          omega
        · exact htwo (by have := m.hsize; omega)
    · rw [if_neg h2]
      have := h.pos
      refine ⟨s, rfl, h, by omega, Extends.refl _, fun i n hn _ => lt_length_of_getElem? hn, fun _ => rfl, by omega⟩

end Sys2Proof.Machine
end

