-- ==== Sys2Proof/Laws/Build.lean ====
section
/-! SUPPORT. The whole of BUILD (R126): the seeding loop, and the body as one lemma (R127). -/

namespace Sys2Proof.Machine

/-- The leaves BUILD seeds for the symbols `k`, `k + 1`, … : those with a frequency that is not 0 (R126). -/
def seedNodes : Nat → List Word → List Node
  | _, [] => []
  | k, f :: fs => if f ≠ 0#32 then leafNode (BitVec.ofNat 8 k) f :: seedNodes (k + 1) fs else seedNodes (k + 1) fs

theorem seedNodes_length (k : Nat) (fs : List Word) :
    (seedNodes k fs).length = fs.countP (fun f => decide (f ≠ 0#32)) := by
  induction fs generalizing k with
  | nil => rfl
  | cons f fs ih =>
    by_cases h : f = 0#32
    · simp [seedNodes, h, ih]
    · simp [seedNodes, h, ih]

/-- A seeded leaf, by its symbol. -/
theorem mem_seedNodes {k : Nat} {fs : List Word} {n : Node} (hk : k + fs.length ≤ 256) :
    n ∈ seedNodes k fs ↔ ∃ (j : Nat) (f : Word), fs[j]? = some f ∧ f ≠ 0#32 ∧ n = leafNode (BitVec.ofNat 8 (k + j)) f := by
  induction fs generalizing k with
  | nil => simp [seedNodes]
  | cons f fs ih =>
    have ih := ih (k := k + 1) (by simp at hk; omega)
    have hsplit : (∃ (j : Nat) (g : Word), (f :: fs)[j]? = some g ∧ g ≠ 0#32 ∧ n = leafNode (BitVec.ofNat 8 (k + j)) g) ↔
        (f ≠ 0#32 ∧ n = leafNode (BitVec.ofNat 8 k) f) ∨ n ∈ seedNodes (k + 1) fs := by
      rw [ih]
      constructor
      · rintro ⟨j, g, hg, h0, hn⟩
        cases j with
        | zero => simp at hg; subst hg; exact .inl ⟨h0, hn⟩
        | succ j => exact .inr ⟨j, g, by simpa using hg, h0, by rw [hn]; congr 2; omega⟩
      · rintro (⟨h0, hn⟩ | ⟨j, g, hg, h0, hn⟩)
        · exact ⟨0, f, rfl, h0, hn⟩
        · exact ⟨j + 1, g, by simpa using hg, h0, by rw [hn]; congr 2; omega⟩
    rw [hsplit]
    by_cases h : f = 0#32 <;> simp [seedNodes, h]

/-- The symbols of the seeded leaves are distinct. -/
theorem seedNodes_nodup {k : Nat} {fs : List Word} (hk : k + fs.length ≤ 256) :
    ((seedNodes k fs).map Node.sym).Nodup := by
  induction fs generalizing k with
  | nil => simp [seedNodes]
  | cons f fs ih =>
    have hk' : k + 1 + fs.length ≤ 256 := by simp at hk; omega
    have ih := ih hk'
    by_cases h : f = 0#32
    · simpa [seedNodes, h] using ih
    · simp only [seedNodes, ne_eq, h, not_false_eq_true, if_true, List.map_cons]
      refine List.nodup_cons.2 ⟨fun hm => ?_, ih⟩
      obtain ⟨n, hn, hs⟩ := List.mem_map.1 hm
      obtain ⟨j, g, hg, -, rfl⟩ := (mem_seedNodes hk').1 hn
      have hj := lt_length_of_getElem? hg
      have := congrArg BitVec.toNat hs
      simp [leafNode] at this
      omega

/-- What holds between the seedings: the leaves so far are the heap, and none is FREE. -/
structure Seeding (s : State) : Prop where
  tree : TreeOk s.nodes s.heap
  noFree : ∀ (i : Nat) (n : Node), s.nodes[i]? = some n → n.own ≠ .free
  count : s.ncount = s.hsize

theorem seeding_clearTree (s : State) : Seeding s.clearTree :=
  ⟨treeOk_nil, by intro i n hn; simp at hn, rfl⟩

theorem Seeding.seed {s : State} (h : Seeding s) (x : Sym) (f : Word) (hc : s.ncount < Config.nodeCap) :
    Seeding ((s.newLeaf x f).heapInsert s.ncount) ∧
      ((s.newLeaf x f).heapInsert s.ncount).nodes.map Node.shape = s.nodes.map Node.shape ++ [leafNode x f] ∧
      heapWeight ((s.newLeaf x f).heapInsert s.ncount) = heapWeight s + f.toNat := by
  have t1 := h.tree.newLeaf x f hc
  have hn : (s.newLeaf x f).nodes[s.ncount]? = some (leafNode x f) := by simp [State.ncount]
  refine ⟨⟨t1.heapInsert hn rfl, ?_, ?_⟩, ?_, ?_⟩
  · intro i n hi
    rw [State.heapInsert_nodes, getElem?_setOwn] at hi
    obtain ⟨m, hm, rfl⟩ := Option.map_eq_some_iff.1 hi
    split
    · simp
    · next hne =>
      rcases getElem?_append_one hm with hm | ⟨he, -⟩
      · exact h.noFree i m hm
      · exact absurd he.symm hne
  · simpa using h.count
  · refine List.ext_getElem? fun i => ?_
    rw [List.getElem?_map, State.heapInsert_nodes, getElem?_setOwn]
    have : (Option.map Node.shape (Option.map (fun n => if s.ncount = i then { n with own := .inHeap } else n)
        (s.newLeaf x f).nodes[i]?)) = ((s.newLeaf x f).nodes.map Node.shape)[i]? := by
      rw [List.getElem?_map]
      cases (s.newLeaf x f).nodes[i]? with
      | none => rfl
      | some n => simp only [Option.map_some]; split <;> rfl
    rw [this]
    simp [Node.shape, leafNode]
  · rw [heapWeight_heapInsert, newLeaf_W_self]
    have : heapWeight (s.newLeaf x f) = heapWeight s := by
      unfold heapWeight
      congr 1
      exact List.map_congr_left fun i hi => newLeaf_W_lt _ _ _ (h.tree.owned.heap_lt hi)
    omega

/-- The seeding loop of R126. -/
theorem seedLeaves_spec {fs : List Word} {k : Nat} {s : State} (h : Seeding s) (hk : k + fs.length ≤ 256)
    (hc : s.ncount ≤ k) :
    Seeding (s.seedLeaves k fs) ∧
      (s.seedLeaves k fs).nodes.map Node.shape = s.nodes.map Node.shape ++ seedNodes k fs ∧
      heapWeight (s.seedLeaves k fs) = heapWeight s + freqTotal fs := by
  induction fs generalizing k s with
  | nil => exact ⟨h, by simp [State.seedLeaves, seedNodes], by simp [State.seedLeaves, freqTotal]⟩
  | cons f fs ih =>
    simp only [State.seedLeaves]
    have hk' : k + 1 + fs.length ≤ 256 := by simp at hk; omega
    by_cases h0 : f = 0#32
    · have hs : s.seedLeaf k f = s := by simp [State.seedLeaf, h0]
      rw [hs]
      obtain ⟨h1, h2, h3⟩ := ih h hk' (by omega)
      exact ⟨h1, by rw [h2]; simp [seedNodes, h0], by rw [h3]; simp [freqTotal, h0]⟩
    · have hs : s.seedLeaf k f = (s.newLeaf (BitVec.ofNat 8 k) f).heapInsert s.ncount := by simp [State.seedLeaf, h0]
      rw [hs]
      obtain ⟨g1, g2, g3⟩ := h.seed (BitVec.ofNat 8 k) f (by simp; omega)
      obtain ⟨h1, h2, h3⟩ := ih g1 hk' (by simp; omega)
      refine ⟨h1, ?_, ?_⟩
      · rw [h2, g2]; simp [seedNodes, h0]
      · rw [h3, g3]; simp [freqTotal]; omega

/-- Only NODE and HEAP change while seeding. -/
theorem seedLeaves_frame (fs : List Word) (k : Nat) (s : State) :
    s.seedLeaves k fs = { s with nodes := (s.seedLeaves k fs).nodes, heap := (s.seedLeaves k fs).heap } := by
  induction fs generalizing k s with
  | nil => rfl
  | cons f fs ih =>
    simp only [State.seedLeaves]
    rw [ih]
    unfold State.seedLeaf
    split <;> rfl

/-- Only NODE and HEAP change in a MergeStep. -/
theorem mergeStep_frame {s t : State} {n : Nat} (h : s.mergeStep = .ok (t, n)) :
    t = { s with nodes := t.nodes, heap := t.heap } := by
  unfold State.mergeStep raise unspecified at h
  split at h
  · cases h
  · split at h
    · cases h
    · split at h
      · cases h
      · dsimp only at h
        split at h
        · cases h
        · cases h; rfl

/-- Only NODE and HEAP change while merging. -/
theorem mergeAll_frame {fuel : Nat} {s t : State} (h : State.mergeAll fuel s = .ok t) :
    t = { s with nodes := t.nodes, heap := t.heap } := by
  induction fuel generalizing s with
  | zero => cases h; rfl
  | succ fuel ih =>
    simp only [State.mergeAll] at h
    split at h
    · split at h
      · cases h
      · next u _ he =>
        have h1 := mergeStep_frame he
        have h2 := ih h
        rw [h1] at h2
        exact h2
    · cases h; rfl

/-- Reading FREQ succeeds exactly when every element asked for is specified (R66). -/
theorem readFreqs_ok {s : State} {ks : List Nat} {fs : List Word} :
    s.readFreqs ks = .ok fs ↔ ks.map s.freq.read = fs.map some := by
  induction ks generalizing fs with
  | nil => cases fs <;> simp [State.readFreqs]
  | cons k ks ih =>
    simp only [State.readFreqs, State.engineFreq]
    cases hk : s.freq.read k with
    | none =>
      simp only [specified, unspecified, bind, Except.bind]
      cases fs <;> simp [hk]
    | some f =>
      simp only [specified, bind, Except.bind]
      cases he : s.readFreqs ks with
      | error e =>
        cases fs with
        | nil => simp
        | cons g gs =>
          have := (ih (fs := gs)).not.1 (by simp [he])
          simp only [reduceCtorEq, false_iff]
          simpa [hk] using fun _ => this
      | ok gs =>
        have hgs := ih.1 he
        cases fs with
        | nil => simp
        | cons g gs' =>
          simp only [Except.ok.injEq, List.cons.injEq, List.map_cons, hk, hgs, Option.some.injEq]
          refine and_congr_right fun _ => ⟨fun e => by rw [e], fun e => ?_⟩
          exact List.map_injective_iff.2 (Option.some_injective _) e

/-- The first unspecified FREQ element is the fault of a BUILD (R66, R211). -/
theorem readFreqs_error {s : State} {ks : List Nat} {e : Stop} (h : s.readFreqs ks = .error e) :
    ∃ k ∈ ks, s.freq.read k = none ∧ e = .fault (.unspecifiedRead .freq k) := by
  induction ks with
  | nil => simp [State.readFreqs] at h
  | cons k ks ih =>
    simp only [State.readFreqs, State.engineFreq] at h
    cases hk : s.freq.read k with
    | none =>
      simp only [hk, specified, unspecified, bind, Except.bind, Except.error.injEq] at h
      exact ⟨k, by simp, hk, h.symm⟩
    | some f =>
      simp only [hk, specified, bind, Except.bind] at h
      cases he : s.readFreqs ks with
      | error e' =>
        rw [he] at h
        simp only [Except.error.injEq] at h
        obtain ⟨j, hj, h1, h2⟩ := ih (by rw [he, h])
        exact ⟨j, by simp [hj], h1, h2⟩
      | ok gs => rw [he] at h; simp at h

/-- What BUILD leaves (R126, R127) when every FREQ element is specified, some are not 0, and their sum fits. -/
structure Built (fs : List Word) (s t : State) (r : Nat) : Prop where
  frame : t = { s with nodes := t.nodes, heap := t.heap, root := r, rootv := true, codetv := false }
  tree : TreeOk t.nodes t.heap
  ncount : t.ncount + 1 = 2 * (fs.countP (fun f => decide (f ≠ 0#32)))
  hsize : t.heap = []
  rootLast : r + 1 = t.ncount
  weight : t.W r = freqTotal fs
  rootFree : ∃ n, t.nodes[r]? = some n ∧ n.own = .free
  others : ∀ (i : Nat) (n : Node), t.nodes[i]? = some n → i ≠ r → n.own = .child
  leaves : ∀ (i : Nat) (n : Node), t.nodes[i]? = some n → n.kind = .leaf → (seedNodes 0 fs)[i]? = some n.shape
  seeds : ∀ (i : Nat) (n : Node), (seedNodes 0 fs)[i]? = some n → ∃ m, t.nodes[i]? = some m ∧ m.shape = n

theorem countP_pos_of_not_all {fs : List Word} (h : fs.all (fun f => f = 0#32) = false) :
    1 ≤ fs.countP (fun f => decide (f ≠ 0#32)) := by
  rw [Nat.succ_le_iff, List.countP_pos_iff]
  simp only [List.all_eq_false, decide_eq_true_eq] at h
  simpa using h

theorem build_spec {s : State} {fs : List Word} (hlen : fs.length = 256)
    (hne : fs.all (fun f => f = 0#32) = false) (ht : freqTotal fs ≤ Config.maxWeight) :
    ∃ t, (s.clearTree.seedLeaves 0 fs).mergeAll (s.clearTree.seedLeaves 0 fs).hsize = .ok t ∧
      Built fs s (t.heapPop.setRoot t.heapMin) t.heapMin := by
  obtain ⟨h1, h2, h3⟩ := seedLeaves_spec (fs := fs) (k := 0) (seeding_clearTree s) (by omega) (by simp [State.ncount])
  have hpos := countP_pos_of_not_all hne
  have hcount : (s.clearTree.seedLeaves 0 fs).ncount = fs.countP (fun f => decide (f ≠ 0#32)) := by
    have := congrArg List.length h2
    simpa [seedNodes_length, State.ncount] using this
  have hle : fs.countP (fun f => decide (f ≠ 0#32)) ≤ 256 := hlen ▸ List.countP_le_length
  generalize hs0 : s.clearTree.seedLeaves 0 fs = s0 at *
  have hloop : BuildLoop (fs.countP (fun f => decide (f ≠ 0#32))) (freqTotal fs) s0 :=
    ⟨h1.tree, h1.noFree, by rw [h3]; simp [heapWeight], by have := h1.count; omega, by have := h1.count; omega⟩
  obtain ⟨t, he, hb, ht1, hx, hleaf, hone, htwo⟩ := mergeAll_spec hle ht s0.hsize hloop (Nat.le_refl _)
  refine ⟨t, he, ?_⟩
  have hfr : t = { s.clearTree with nodes := t.nodes, heap := t.heap } := by
    have e1 := mergeAll_frame he
    have e2 := seedLeaves_frame fs 0 s.clearTree
    rw [hs0] at e2
    rw [e2] at e1
    exact e1
  obtain ⟨r, hr⟩ := List.length_eq_one_iff.1 (show t.heap.length = 1 from ht1)
  have hmin : t.heapMin = r := by simp [State.heapMin, heapAt, hr]
  have hrm : r ∈ t.heap := by simp [hr]
  obtain ⟨nr, hnr, -⟩ := (hb.tree.owned.listed r).1 hrm
  have hpop := hb.tree.heapPop (by omega : 0 < t.hsize)
  have hheap : t.heapPop.heap = [] := List.eq_nil_of_length_eq_zero (by
    have := heapPop_hsize t
    simp only [State.hsize] at this ht1
    omega)
  have hcnt := hb.count
  have hxt : Extends t.nodes t.heapPop.nodes := extends_setOwn _ _ _
  have hxt' : Extends t.heapPop.nodes t.nodes := setOwn_extends _ _ _
  refine ⟨?_, hpop, ?_, hheap, ?_, ?_, ?_, ?_, ?_, ?_⟩
  · rw [hfr]; rfl
  · show t.heapPop.ncount + 1 = _
    rw [heapPop_ncount]; omega
  · show t.heapMin + 1 = t.heapPop.ncount
    rw [heapPop_ncount]
    by_cases h2' : 2 ≤ s0.hsize
    · exact htwo h2'
    · have hs1 : s0.hsize = 1 := by have := hloop.pos; omega
      have := hone hs1
      rw [this] at hrm
      have hlt := h1.tree.owned.heap_lt hrm
      have h3' : s0.nodes.length = s0.heap.length := h1.count
      have h4' : s0.heap.length = 1 := hs1
      have h5' : t.ncount = 1 := by rw [this]; exact h3'.trans h4'
      rw [hmin, h5']
      omega
  · show t.heapPop.W t.heapMin = _
    rw [heapPop_W, ← hb.queued, hmin]
    simp [heapWeight, hr]
  · refine ⟨{ nr with own := .free }, ?_, rfl⟩
    show (setOwn t.nodes t.heapMin .free)[t.heapMin]? = _
    rw [getElem?_setOwn, hmin, hnr]
    simp
  · intro i n hn hir
    have hn' : (setOwn t.nodes t.heapMin .free)[i]? = some n := hn
    rw [getElem?_setOwn] at hn'
    obtain ⟨m, hm, rfl⟩ := Option.map_eq_some_iff.1 hn'
    rw [if_neg (Ne.symm hir)]
    have hf := hb.noFree i m hm
    have hh : m.own ≠ .inHeap := fun e => by
      have := (hb.tree.owned.listed i).2 ⟨m, hm, e⟩
      rw [hr, List.mem_singleton] at this
      exact hir (this.trans hmin.symm)
    cases ho : m.own with
    | free => exact absurd ho hf
    | inHeap => exact absurd ho hh
    | child => rfl
  · intro i n hn hk
    obtain ⟨m, hm, hsh⟩ := hxt' i n hn
    obtain ⟨h1', -⟩ := Node.shape_eq_iff.1 hsh
    have hi : i < s0.nodes.length := hleaf i m hm (h1'.trans hk)
    obtain ⟨m', hm', hsh'⟩ := hx i _ (List.getElem?_eq_getElem hi)
    rw [hm] at hm'
    cases hm'
    have := congrArg (fun l => l[i]?) h2
    simp only [List.getElem?_map, List.getElem?_eq_getElem hi] at this
    rw [← hsh, hsh']
    simpa using this.symm
  · intro i n hn
    have := congrArg (fun l => l[i]?) h2
    simp only [List.getElem?_map, State.clearTree_nodes, List.map_nil, List.nil_append] at this
    rw [hn] at this
    obtain ⟨m0, hm0, rfl⟩ := Option.map_eq_some_iff.1 this
    obtain ⟨m1, hm1, hs1⟩ := hx i m0 hm0
    obtain ⟨m2, hm2, hs2⟩ := hxt i m1 hm1
    exact ⟨m2, hm2, hs2.trans hs1⟩

end Sys2Proof.Machine
end

