-- ==== Sys2Proof/Laws/Memory.lean ====
section
/-! SUPPORT. What the element memories do: read after write, and that every operation keeps the canonical form. -/

namespace Sys2Proof.Machine

variable {w : Nat}

@[simp] theorem Memory.read_nil (k : Nat) : Memory.read ([] : Memory w) k = none := rfl

theorem Memory.read_cons (e : Nat × BitVec w) (m : Memory w) (k : Nat) :
    Memory.read (e :: m) k = if k = e.1 then some e.2 else Memory.read m k := rfl

/-- An index below every listed one reads as no value. -/
theorem Memory.read_eq_none_of_lt {m : Memory w} {k : Nat} (h : ∀ e ∈ m, k < e.1) : Memory.read m k = none := by
  induction m with
  | nil => rfl
  | cons e m ih =>
    have he := h e (by simp)
    rw [Memory.read_cons, if_neg (by omega)]
    exact ih fun x hx => h x (by simp [hx])

@[simp] theorem Memory.read_write_self (m : Memory w) (k : Nat) (v : BitVec w) :
    Memory.read (Memory.write m k v) k = some v := by
  induction m with
  | nil => simp [Memory.write, Memory.read_cons]
  | cons e m ih =>
    obtain ⟨a, u⟩ := e
    simp only [Memory.write]
    split
    · simp [Memory.read_cons]
    · split
      · simp [Memory.read_cons]
      · simp [Memory.read_cons, *]

theorem Memory.read_write_of_ne (m : Memory w) {k j : Nat} (v : BitVec w) (h : j ≠ k) :
    Memory.read (Memory.write m k v) j = Memory.read m j := by
  induction m with
  | nil => simp [Memory.write, Memory.read_cons, h]
  | cons e m ih =>
    obtain ⟨a, u⟩ := e
    simp only [Memory.write]
    split
    · simp [Memory.read_cons, h]
    · split
      · subst_vars; simp [Memory.read_cons, h]
      · simp [Memory.read_cons, ih]

theorem Memory.read_write (m : Memory w) (k j : Nat) (v : BitVec w) :
    Memory.read (Memory.write m k v) j = if j = k then some v else Memory.read m j := by
  by_cases h : j = k
  · subst h; simp
  · simp [h, Memory.read_write_of_ne]

/-- An entry of the memory after a write is the new entry or an old one. -/
theorem Memory.mem_write {m : Memory w} {k : Nat} {v : BitVec w} {e : Nat × BitVec w}
    (h : e ∈ Memory.write m k v) : e = (k, v) ∨ e ∈ m := by
  induction m with
  | nil => simpa [Memory.write] using h
  | cons x m ih =>
    obtain ⟨a, u⟩ := x
    simp only [Memory.write] at h
    split at h
    · simpa using h
    · split at h
      · rcases List.mem_cons.1 h with h | h <;> simp [h]
      · rcases List.mem_cons.1 h with h | h
        · simp [h]
        · rcases ih h with h | h <;> simp [h]

/-- A write keeps the canonical form. -/
theorem Memory.write_wf {m : Memory w} (k : Nat) (v : BitVec w) (h : Memory.wf m) :
    Memory.wf (Memory.write m k v) := by
  induction m with
  | nil => simp [Memory.write, Memory.wf]
  | cons x m ih =>
    obtain ⟨a, u⟩ := x
    have h' := List.pairwise_cons.1 h
    simp only [Memory.write]
    split
    · next hk =>
      refine List.pairwise_cons.2 ⟨fun e he => ?_, h⟩
      rcases List.mem_cons.1 he with rfl | he
      · exact hk
      · exact Nat.lt_trans hk (h'.1 e he)
    · split
      · next hk => subst hk; exact List.pairwise_cons.2 h'
      · refine List.pairwise_cons.2 ⟨fun e he => ?_, ih h'.2⟩
        rcases Memory.mem_write he with rfl | he
        · dsimp only; omega
        · exact h'.1 e he

@[simp] theorem Memory.writeList_nil (m : Memory w) (b : Nat) : Memory.writeList m b [] = m := rfl

theorem Memory.writeList_cons (m : Memory w) (b : Nat) (v : BitVec w) (vs : List (BitVec w)) :
    Memory.writeList m b (v :: vs) = Memory.writeList (Memory.write m b v) (b + 1) vs := rfl

/-- Below the written range nothing changes. -/
theorem Memory.read_writeList_of_lt (m : Memory w) (vs : List (BitVec w)) {b j : Nat} (h : j < b) :
    Memory.read (Memory.writeList m b vs) j = Memory.read m j := by
  induction vs generalizing m b with
  | nil => rfl
  | cons v vs ih =>
    rw [Memory.writeList_cons, ih _ (by omega), Memory.read_write_of_ne _ _ (by omega)]

/-- Above the written range nothing changes. -/
theorem Memory.read_writeList_of_ge (m : Memory w) (vs : List (BitVec w)) {b j : Nat} (h : b + vs.length ≤ j) :
    Memory.read (Memory.writeList m b vs) j = Memory.read m j := by
  induction vs generalizing m b with
  | nil => rfl
  | cons v vs ih =>
    have h' : b + (vs.length + 1) ≤ j := h
    rw [Memory.writeList_cons, ih _ (by omega), Memory.read_write_of_ne _ _ (by omega)]

/-- Inside the written range an element is the one written there. -/
theorem Memory.read_writeList_get (m : Memory w) (vs : List (BitVec w)) (b k : Nat) (h : k < vs.length) :
    Memory.read (Memory.writeList m b vs) (b + k) = some vs[k] := by
  induction vs generalizing m b k with
  | nil => simp at h
  | cons v vs ih =>
    rw [Memory.writeList_cons]
    cases k with
    | zero => rw [Nat.add_zero, Memory.read_writeList_of_lt _ _ (by omega)]; simp
    | succ k =>
      have := ih (Memory.write m b v) (b + 1) k (by simpa using h)
      rw [show b + (k + 1) = b + 1 + k by omega, this]; rfl

/-- Everything one writing of a range can do to a read. -/
theorem Memory.read_writeList (m : Memory w) (vs : List (BitVec w)) (b j : Nat) :
    Memory.read (Memory.writeList m b vs) j =
      if b ≤ j ∧ j < b + vs.length then vs[j - b]? else Memory.read m j := by
  split
  · next h =>
    obtain ⟨k, rfl⟩ : ∃ k, j = b + k := ⟨j - b, by omega⟩
    have hk : k < vs.length := by omega
    rw [Memory.read_writeList_get _ _ _ _ hk, Nat.add_sub_cancel_left, List.getElem?_eq_getElem hk]
  · next h =>
    by_cases hj : j < b
    · exact Memory.read_writeList_of_lt _ _ hj
    · exact Memory.read_writeList_of_ge _ _ (by omega)

theorem Memory.writeList_wf {m : Memory w} (b : Nat) (vs : List (BitVec w)) (h : Memory.wf m) :
    Memory.wf (Memory.writeList m b vs) := by
  induction vs generalizing m b with
  | nil => exact h
  | cons v vs ih => exact ih _ (Memory.write_wf _ _ h)

/-- An entry after writing a range lies in the range or is an old one. -/
theorem Memory.mem_writeList {m : Memory w} {b : Nat} {vs : List (BitVec w)} {e : Nat × BitVec w}
    (h : e ∈ Memory.writeList m b vs) : (b ≤ e.1 ∧ e.1 < b + vs.length) ∨ e ∈ m := by
  induction vs generalizing m b with
  | nil => exact .inr h
  | cons v vs ih =>
    rcases ih h with ⟨h1, h2⟩ | h
    · left; simp only [List.length_cons]; omega
    · rcases Memory.mem_write h with rfl | h
      · left; simp
      · exact .inr h

/-- Two canonical memories that read alike are equal. -/
theorem Memory.ext_of_wf {m n : Memory w} (hm : Memory.wf m) (hn : Memory.wf n)
    (h : ∀ k, Memory.read m k = Memory.read n k) : m = n := by
  induction m generalizing n with
  | nil =>
    cases n with
    | nil => rfl
    | cons e n => simpa [Memory.read_cons] using h e.1
  | cons e m ih =>
    have hm' := List.pairwise_cons.1 hm
    cases n with
    | nil => simpa [Memory.read_cons] using h e.1
    | cons f n =>
      have hn' := List.pairwise_cons.1 hn
      have hef : e.1 = f.1 := by
        have h1 := h e.1
        have h2 := h f.1
        simp only [Memory.read_cons, if_pos] at h1 h2
        by_contra hne
        rcases Nat.lt_or_gt_of_ne hne with hlt | hlt
        · rw [if_neg (by omega), Memory.read_eq_none_of_lt (fun x hx => Nat.lt_trans hlt (hn'.1 x hx))] at h1
          simp at h1
        · rw [if_neg (by omega), Memory.read_eq_none_of_lt (fun x hx => Nat.lt_trans hlt (hm'.1 x hx))] at h2
          simp at h2
      have hv : e = f := by
        have h1 := h e.1
        simp only [Memory.read_cons, if_pos, hef] at h1
        exact Prod.ext hef (by simpa using h1)
      subst hv
      congr 1
      refine ih hm'.2 hn'.2 fun k => ?_
      by_cases hk : k = e.1
      · rw [Memory.read_eq_none_of_lt (fun x hx => hk ▸ hm'.1 x hx),
          Memory.read_eq_none_of_lt (fun x hx => hk ▸ hn'.1 x hx)]
      · simpa [Memory.read_cons, hk] using h k

end Sys2Proof.Machine
end

