-- ==== Sys2Proof/Laws/Pack.lean ====
section
/-! SUPPORT. The encoder's accumulator loop against the closed form of the packed words (R150 to R154). -/

namespace Sys2Proof.Machine

/-- The loop state after the bits `bits` (R153): the flushed words and the accumulator hold them in order, MSB first. -/
structure Packs (bits : List Bool) (p : Packer) : Prop where
  room : p.room ≤ 32
  empty : p.room = 32 → bits = []
  length : 32 * p.out.length + (32 - p.room) = bits.length
  word : ∀ (m : Nat) (v : Word), p.out[m]? = some v → ∀ t, t < 32 → v.getLsbD (31 - t) = bits.getD (32 * m + t) false
  acc : ∀ t, t < 32 → p.acc.getLsbD (31 - t) = bits.getD (32 * p.out.length + t) false

theorem packs_start : Packs [] packerStart := by
  refine ⟨by simp [packerStart], fun _ => rfl, by simp [packerStart], ?_, ?_⟩ <;> simp [packerStart]

theorem getLsbD_placed (acc : Word) (b : Bool) {r t : Nat} (hr : r < 32) (ht : t < 32) :
    (acc ||| ((BitVec.ofBool b).setWidth 32 <<< r)).getLsbD (31 - t) =
      (acc.getLsbD (31 - t) || (b && decide (t + r = 31))) := by
  rw [BitVec.getLsbD_or, BitVec.getLsbD_shiftLeft]
  congr 1
  have h1 : 31 - t < 32 := by omega
  by_cases h : t + r = 31
  · have h2 : 31 - t - r = 0 := by omega
    have h3 : ¬ 31 - t < r := by omega
    simp [h, h1, h2, h3]
  · by_cases h3 : 31 - t < r
    · simp [h, h3]
    · have h4 : 31 - t - r ≠ 0 := by omega
      simp [h, h3, h4, BitVec.getLsbD_setWidth, BitVec.getLsbD_ofBool]

theorem getD_concat (bits : List Bool) (b : Bool) (k : Nat) :
    (bits ++ [b]).getD k false = if k = bits.length then b else bits.getD k false := by
  rw [List.getD_eq_getElem?_getD, List.getD_eq_getElem?_getD, List.getElem?_append]
  split
  · rw [if_neg (by omega)]
  · next h =>
    by_cases hk : k = bits.length
    · simp [hk]
    · rw [if_neg hk, List.getElem?_eq_none (l := [b]) (by simp; omega), List.getElem?_eq_none (l := bits) (by omega)]

theorem Packs.place {bits : List Bool} {p : Packer} (h : Packs bits p) (hr : p.room ≠ 0) (b : Bool) :
    Packs (bits ++ [b]) (p.place b) := by
  have hroom := h.room
  have hlen := h.length
  refine ⟨?_, ?_, ?_, ?_, ?_⟩
  · simp only [Packer.place]; omega
  · simp only [Packer.place]; omega
  · simp only [Packer.place, List.length_append, List.length_singleton]; omega
  · intro m v hm t ht
    have hm' : m < p.out.length := by
      by_contra hc
      rw [Packer.place, List.getElem?_eq_none (Nat.le_of_not_lt hc)] at hm
      cases hm
    rw [h.word m v hm t ht, getD_concat, if_neg (by omega)]
  · intro t ht
    show (p.acc ||| _).getLsbD (31 - t) = (bits ++ [b]).getD (32 * p.out.length + t) false
    rw [getLsbD_placed _ _ (by omega) ht, h.acc t ht, getD_concat]
    by_cases hk : 32 * p.out.length + t = bits.length
    · rw [if_pos hk, List.getD_eq_getElem?_getD, List.getElem?_eq_none (by omega)]
      have : t + (p.room - 1) = 31 := by omega
      simp [this]
    · have : ¬ t + (p.room - 1) = 31 := by omega
      simp [hk, this]

theorem Packs.flush {bits : List Bool} {p : Packer} (h : Packs bits p) (hr : p.room = 0) (b : Bool) :
    Packs (bits ++ [b]) (p.flush.place b) := by
  have hlen := h.length
  refine ⟨?_, ?_, ?_, ?_, ?_⟩
  · simp [Packer.flush, Packer.place]
  · simp [Packer.flush, Packer.place]
  · simp [Packer.flush, Packer.place]; omega
  · intro m v hm t ht
    have hm2 : (p.out ++ [p.acc])[m]? = some v := hm
    by_cases hml : m < p.out.length
    · rw [List.getElem?_append_left hml] at hm2
      rw [h.word m v hm2 t ht, getD_concat, if_neg (by omega)]
    · have hml' : m = p.out.length := by
        by_contra hc
        rw [List.getElem?_eq_none (by simp; omega)] at hm2
        cases hm2
      subst hml'
      rw [List.getElem?_concat_length] at hm2
      cases hm2
      rw [h.acc t ht, getD_concat, if_neg (by omega)]
  · intro t ht
    show (0#32 ||| _).getLsbD (31 - t) = (bits ++ [b]).getD (32 * (p.out ++ [p.acc]).length + t) false
    rw [show p.flush.room - 1 = 31 from rfl, getLsbD_placed _ _ (by omega) ht, getD_concat]
    simp only [List.length_append, List.length_singleton]
    by_cases hk : t = 0
    · subst hk
      rw [if_pos (by omega)]; simp
    · rw [if_neg (by omega), List.getD_eq_getElem?_getD, List.getElem?_eq_none (by omega)]
      simp [hk]

theorem Packs.push {bits : List Bool} {p : Packer} (h : Packs bits p) (b : Bool) :
    Packs (bits ++ [b]) (p.push b) := by
  unfold Packer.push
  split
  · next hr => exact h.flush hr b
  · next hr => exact h.place hr b

theorem Packs.pushAll {bits : List Bool} {p : Packer} (h : Packs bits p) (more : List Bool) :
    Packs (bits ++ more) (more.foldl Packer.push p) := by
  induction more generalizing bits p with
  | nil => simpa using h
  | cons b bs ih =>
    have := ih (h.push b)
    simpa using this

theorem packCodes_eq (codes : List (List Bool)) : packCodes codes = codes.flatten.foldl Packer.push packerStart := by
  unfold packCodes
  rw [List.foldl_flatten]

theorem packs_packCodes (codes : List (List Bool)) : Packs codes.flatten (packCodes codes) := by
  rw [packCodes_eq]
  simpa using packs_start.pushAll codes.flatten

theorem bitCount_eq (codes : List (List Bool)) : bitCount codes = codes.flatten.length := by
  simp [bitCount, List.length_flatten]

/-- R154: how many payload words there are. -/
theorem packWords_length (codes : List (List Bool)) : (packWords codes).length = payloadWords (bitCount codes) := by
  have h := packs_packCodes codes
  have h1 := h.length
  have h2 := h.room
  have h3 := h.empty
  rw [bitCount_eq]
  simp only [packWords, Packer.flush, List.length_append, List.length_singleton, payloadWords]
  by_cases he : (packCodes codes).room = 32
  · have h0 : codes.flatten.length = 0 := by rw [h3 he]; rfl
    omega
  · omega

/-- R153: where the bits of the stream are, and that the rest of the payload is 0 (R150). -/
theorem packWords_bit (codes : List (List Bool)) {m : Nat} {v : Word} (hm : (packWords codes)[m]? = some v) {t : Nat}
    (ht : t < 32) : v.getLsbD (31 - t) = codes.flatten.getD (32 * m + t) false := by
  have h := packs_packCodes codes
  have hm : ((packCodes codes).out ++ [(packCodes codes).acc])[m]? = some v := hm
  by_cases hml : m < (packCodes codes).out.length
  · rw [List.getElem?_append_left hml] at hm
    exact h.word m v hm t ht
  · have hml' : m = (packCodes codes).out.length := by
      by_contra hc
      rw [List.getElem?_eq_none (by simp; omega)] at hm
      cases hm
    subst hml'
    rw [List.getElem?_concat_length] at hm
    cases hm
    exact h.acc t ht

end Sys2Proof.Machine
end

