-- ==== Sys2Proof/Laws/Walk.lean ====
section
/-! SUPPORT. Paths in the tree (R141, R143, R144) and the walk of GENCODE (R140). -/

namespace Sys2Proof.Machine

variable {nodes : List Node} {heap : List Nat}

/-! ### Paths -/

theorem follow_nil {n : Nat} : follow nodes n [] = if n < nodes.length then some n else none := rfl

theorem follow_nil_some {n i : Nat} (h : follow nodes n [] = some i) : i = n ∧ n < nodes.length := by
  rw [follow_nil] at h
  split at h
  · next hn => exact ⟨by simpa using h.symm, hn⟩
  · simp at h

/-- One step down from an internal node. -/
theorem follow_cons_some {n i : Nat} {b : Bool} {bs : List Bool} (h : follow nodes n (b :: bs) = some i) :
    ∃ m, nodes[n]? = some m ∧ m.kind = .internal ∧ follow nodes (if b then m.right else m.left) bs = some i := by
  simp only [follow] at h
  split at h
  · next m hm =>
    split at h
    · next hk => exact ⟨m, hm, hk, h⟩
    · simp at h
  · simp at h

theorem follow_cons {n : Nat} {b : Bool} {bs : List Bool} {m : Node} (hm : nodes[n]? = some m)
    (hk : m.kind = .internal) : follow nodes n (b :: bs) = follow nodes (if b then m.right else m.left) bs := by
  simp [follow, hm, hk]

theorem follow_of_not_lt {n : Nat} (h : ¬ n < nodes.length) (p : List Bool) : follow nodes n p = none := by
  cases p with
  | nil => simp [follow_nil, h]
  | cons b bs => simp [follow, List.getElem?_eq_none (Nat.le_of_not_lt h)]

theorem follow_append (n : Nat) (p q : List Bool) :
    follow nodes n (p ++ q) = (follow nodes n p).bind fun m => follow nodes m q := by
  induction p generalizing n with
  | nil =>
    rw [follow_nil, List.nil_append]
    split
    · rfl
    · next h => rw [follow_of_not_lt h]; rfl
  | cons b bs ih =>
    simp only [List.cons_append, follow]
    split
    · split
      · exact ih _
      · rfl
    · rfl

theorem follow_lt {n i : Nat} {p : List Bool} (h : follow nodes n p = some i) : i < nodes.length := by
  induction p generalizing n with
  | nil => obtain ⟨rfl, hn⟩ := follow_nil_some h; exact hn
  | cons b bs ih =>
    obtain ⟨m, -, -, h⟩ := follow_cons_some h
    exact ih h

/-- The last step of a path comes from a parent (R32 (b)). -/
theorem follow_concat_some {n i : Nat} {p : List Bool} {b : Bool} (h : follow nodes n (p ++ [b]) = some i) :
    ∃ j m, follow nodes n p = some j ∧ nodes[j]? = some m ∧ m.kind = .internal ∧
      i = (if b then m.right else m.left) := by
  rw [follow_append] at h
  obtain ⟨j, hj, hi⟩ := Option.bind_eq_some_iff.1 h
  obtain ⟨m, hm, hk, hn⟩ := follow_cons_some hi
  exact ⟨j, m, hj, hm, hk, (follow_nil_some hn).1⟩

theorem isParent_of_step {j : Nat} {m : Node} (hm : nodes[j]? = some m) (hk : m.kind = .internal) (b : Bool) :
    IsParent nodes j (if b then m.right else m.left) := ⟨m, hm, hk, by cases b <;> simp⟩

/-- Every step lowers the index (R32 (b)). -/
theorem Owned.follow_le (h : Owned nodes heap) {n i : Nat} {p : List Bool} (hf : follow nodes n p = some i) :
    i + p.length ≤ n := by
  induction p generalizing n with
  | nil => obtain ⟨rfl, -⟩ := follow_nil_some hf; simp
  | cons b bs ih =>
    obtain ⟨m, hm, hk, hf⟩ := follow_cons_some hf
    have := h.below n m hm hk
    have := ih hf
    simp only [List.length_cons]
    split at this <;> omega

/-- A node is reached along one path only: the nodes under a node form a tree (R32, R144). -/
theorem Owned.follow_inj (h : Owned nodes heap) {n i : Nat} {p q : List Bool} (hp : follow nodes n p = some i)
    (hq : follow nodes n q = some i) : p = q := by
  induction p using List.reverseRecOn generalizing i q with
  | nil =>
    obtain ⟨rfl, -⟩ := follow_nil_some hp
    have := h.follow_le hq
    exact (List.eq_nil_of_length_eq_zero (by omega)).symm
  | append_singleton p a ih =>
    obtain ⟨j, m, hj, hm, hk, hi⟩ := follow_concat_some hp
    rcases List.eq_nil_or_concat' q with rfl | ⟨q, b, rfl⟩
    · obtain ⟨rfl, -⟩ := follow_nil_some hq
      have := h.follow_le hp
      simp at this
    · obtain ⟨j', m', hj', hm', hk', hi'⟩ := follow_concat_some hq
      obtain ⟨c, hc, ho⟩ := h.owned j i (hi ▸ isParent_of_step hm hk a)
      obtain ⟨r, -, hu⟩ := h.one i c hc ho
      have e1 := hu j (hi ▸ isParent_of_step hm hk a)
      have e2 := hu j' (hi' ▸ isParent_of_step hm' hk' b)
      have e : j = j' := e1.trans e2.symm
      subst e
      rw [hm] at hm'
      cases hm'
      have hne := (h.below j m hm hk).2.2
      have hab : a = b := by
        cases a <;> cases b <;> simp at hi hi' <;> first | rfl | exact absurd (hi.symm.trans hi') (by first | exact hne | exact hne.symm)
      rw [ih hj hj', hab]

/-- A path of `d` steps needs `2d + 1` nodes: every step passes a sibling (R143). -/
theorem Owned.spine (h : Owned nodes heap) {n i : Nat} {p : List Bool} (hf : follow nodes n p = some i) :
    ∃ l : List Nat, l.Nodup ∧ l.length = 2 * p.length + 1 ∧ ∀ j ∈ l, ∃ q, follow nodes n q = some j := by
  induction p generalizing n with
  | nil => exact ⟨[i], by simp, by simp, by rintro j hj; rw [List.mem_singleton.1 hj]; exact ⟨[], hf⟩⟩
  | cons b bs ih =>
    obtain ⟨m, hm, hk, hf⟩ := follow_cons_some hf
    obtain ⟨l, hnd, hlen, hdesc⟩ := ih hf
    have hb := h.below n m hm hk
    have hside : ∀ x : Bool, ∃ q, follow nodes n q = some (if x then m.right else m.left) := by
      intro x
      refine ⟨[x], ?_⟩
      rw [follow_cons hm hk, follow_nil, if_pos]
      have := h.children_lt n m hm hk
      cases x <;> simp [this]
    refine ⟨n :: (if b then m.left else m.right) :: l, ?_, by simp [hlen]; omega, ?_⟩
    · have hbelow : ∀ j ∈ l, j < n := by
        intro j hj
        obtain ⟨q, hq⟩ := hdesc j hj
        have := h.follow_le hq
        split at this <;> omega
      refine List.nodup_cons.2 ⟨?_, List.nodup_cons.2 ⟨?_, hnd⟩⟩
      · intro hmem
        rcases List.mem_cons.1 hmem with he | hmem
        · split at he <;> omega
        · exact absurd (hbelow n hmem) (by omega)
      · intro hmem
        obtain ⟨q, hq⟩ := hdesc _ hmem
        have hq' : follow nodes n (b :: q) = some (if b then m.left else m.right) := by rw [follow_cons hm hk, hq]
        have hs : follow nodes n [!b] = some (if b then m.left else m.right) := by
          rw [follow_cons hm hk, follow_nil, if_pos]
          · cases b <;> simp
          · have := h.children_lt n m hm hk
            cases b <;> simp [this]
        have := h.follow_inj hq' hs
        simp at this
    · intro j hj
      rcases List.mem_cons.1 hj with rfl | hj
      · exact ⟨[], by rw [follow_nil, if_pos (lt_length_of_getElem? hm)]⟩
      · rcases List.mem_cons.1 hj with rfl | hj
        · have := hside (!b)
          cases b <;> simpa using this
        · obtain ⟨q, hq⟩ := hdesc j hj
          exact ⟨b :: q, by rw [follow_cons hm hk, hq]⟩

/-- MAX_CODE_LEN (R143). -/
theorem Owned.depth_le (h : Owned nodes heap) {n i : Nat} {p : List Bool} (hf : follow nodes n p = some i) :
    p.length ≤ 255 := by
  obtain ⟨l, hnd, hlen, hdesc⟩ := h.spine hf
  have hsub : l ⊆ List.range nodes.length := fun j hj => by
    obtain ⟨q, hq⟩ := hdesc j hj
    exact List.mem_range.2 (follow_lt hq)
  have := (hnd.subperm hsub).length_le
  have hc := h.cap
  simp at this hc
  omega

/-! ### Leaves -/

theorem leafAt_of_leaf {n : Nat} {m : Node} (hm : nodes[n]? = some m) (hk : m.kind = .leaf) {q : List Bool} {x : Sym} :
    LeafAt nodes n q x ↔ q = [] ∧ m.sym = x := by
  constructor
  · rintro ⟨i, k, hf, hi, hkd, hx⟩
    cases q with
    | nil =>
      obtain ⟨rfl, -⟩ := follow_nil_some hf
      rw [hm] at hi; cases hi
      exact ⟨rfl, hx⟩
    | cons b bs =>
      obtain ⟨m', hm', hk', -⟩ := follow_cons_some hf
      rw [hm] at hm'; cases hm'
      simp [hk] at hk'
  · rintro ⟨rfl, rfl⟩
    exact ⟨n, m, by rw [follow_nil, if_pos (lt_length_of_getElem? hm)], hm, hk, rfl⟩

theorem leafAt_cons {n : Nat} {m : Node} (hm : nodes[n]? = some m) (hk : m.kind = .internal) {b : Bool}
    {q : List Bool} {x : Sym} :
    LeafAt nodes n (b :: q) x ↔ LeafAt nodes (if b then m.right else m.left) q x := by
  simp only [LeafAt, follow_cons hm hk]

theorem not_leafAt_nil {n : Nat} {m : Node} (hm : nodes[n]? = some m) (hk : m.kind = .internal) {x : Sym} :
    ¬ LeafAt nodes n [] x := by
  rintro ⟨i, k, hf, hi, hkd, -⟩
  obtain ⟨rfl, -⟩ := follow_nil_some hf
  rw [hm] at hi; cases hi
  simp [hk] at hkd

/-- No leaf's path goes on from another leaf's path (R144). -/
theorem leafAt_prefix {n : Nat} {p q : List Bool} {x y : Sym} (hp : LeafAt nodes n p x) (hq : LeafAt nodes n q y)
    (h : p <+: q) : p = q := by
  obtain ⟨r, rfl⟩ := h
  obtain ⟨i, m, hf, hm, hk, -⟩ := hp
  obtain ⟨j, m', hf', -⟩ := hq
  rw [follow_append, hf] at hf'
  cases r with
  | nil => simp
  | cons b bs =>
    obtain ⟨m2, hm2, hk2, -⟩ := follow_cons_some hf'
    rw [hm] at hm2; cases hm2
    simp [hk] at hk2

theorem Extends.follow {a b : List Node} (h : Extends a b) {n i : Nat} {p : List Bool}
    (hf : follow a n p = some i) : follow b n p = some i := by
  induction p generalizing n with
  | nil =>
    obtain ⟨rfl, hn⟩ := follow_nil_some hf
    obtain ⟨m, hm, -⟩ := h i _ (List.getElem?_eq_getElem hn)
    rw [follow_nil, if_pos (lt_length_of_getElem? hm)]
  | cons c bs ih =>
    obtain ⟨m, hm, hk, hf⟩ := follow_cons_some hf
    obtain ⟨m', hm', hs⟩ := h n m hm
    obtain ⟨h1, -, -, h4, h5⟩ := Node.shape_eq_iff.1 hs
    rw [follow_cons hm' (h1.trans hk), h4, h5]
    exact ih hf

/-! ### The walk (R140) -/

/-- What a walk that ends does to the table (R140, R141). -/
structure Walked (nodes : List Node) (n : Nat) (path : List Bool) (t t' : WalkState) : Prop where
  length : t'.table.length = t.table.length
  fresh : ∀ q x, LeafAt nodes n q x → (t.table.getD x.toNat noCode).codev = false
  code : ∀ q x, LeafAt nodes n q x → t'.table[x.toNat]? = some (codeOf (path ++ q))
  other : ∀ x : Sym, (∀ q, ¬ LeafAt nodes n q x) → t'.table[x.toNat]? = t.table[x.toNat]?

theorem Walked.distinct {n : Nat} {path : List Bool} {t t' : WalkState} (h : Walked nodes n path t t')
    {p q : List Bool} {x : Sym} (hp : LeafAt nodes n p x) (hq : LeafAt nodes n q x) : p = q := by
  have := (h.code p x hp).symm.trans (h.code q x hq)
  simpa [codeOf] using this

theorem addLeaf_ok {t t' : WalkState} {x : Sym} {path : List Bool} (h : t.addLeaf x path = .ok t') :
    (t.table.getD x.toNat noCode).codev = false ∧
      t' = { table := t.table.set x.toNat (codeOf path), leaves := t.leaves + 1, maxlen := max t.maxlen path.length } := by
  unfold WalkState.addLeaf at h
  split at h
  · cases h
  · next hc => exact ⟨by simpa using hc, by cases h; rfl⟩

theorem walk_ok {s : State} {fuel n : Nat} {path : List Bool} {t t' : WalkState} (ht : t.table.length = 256)
    (h : walk s fuel n path t = .ok t') : Walked s.nodes n path t t' := by
  induction fuel generalizing n path t t' with
  | zero => cases h
  | succ fuel ih =>
    simp only [walk, State.engineNode] at h
    cases hn : s.nodes[n]? with
    | none => rw [hn] at h; cases h
    | some m =>
      simp only [hn, specified] at h
      cases hk : m.kind with
      | leaf =>
        simp only [hk] at h
        obtain ⟨hf, rfl⟩ := addLeaf_ok h
        have hlt : m.sym.toNat < t.table.length := by rw [ht]; exact m.sym.isLt
        refine ⟨by simp, fun q x hq => ?_, fun q x hq => ?_, fun x hx => ?_⟩
        · obtain ⟨-, rfl⟩ := (leafAt_of_leaf hn hk).1 hq
          exact hf
        · obtain ⟨rfl, rfl⟩ := (leafAt_of_leaf hn hk).1 hq
          simp [hlt]
        · have hne : m.sym.toNat ≠ x.toNat := fun e =>
            hx [] ((leafAt_of_leaf hn hk).2 ⟨rfl, BitVec.eq_of_toNat_eq e⟩)
          simp [hne]
      | internal =>
        simp only [hk] at h
        cases h1 : walk s fuel m.left (path ++ [false]) t with
        | error e => rw [h1] at h; cases h
        | ok t1 =>
          rw [h1] at h
          have w1 := ih ht h1
          have w2 := ih (w1.length.trans ht) h
          have hL : ∀ q x, LeafAt s.nodes n (false :: q) x ↔ LeafAt s.nodes m.left q x := fun q x => leafAt_cons hn hk
          have hR : ∀ q x, LeafAt s.nodes n (true :: q) x ↔ LeafAt s.nodes m.right q x := fun q x => leafAt_cons hn hk
          have sep : ∀ q q' x, LeafAt s.nodes m.left q x → ¬ LeafAt s.nodes m.right q' x := by
            intro q q' x h1 h2
            have := w2.fresh q' x h2
            simp [List.getD_eq_getElem?_getD, w1.code q x h1, codeOf] at this
          refine ⟨w2.length.trans w1.length, fun q x hq => ?_, fun q x hq => ?_, fun x hx => ?_⟩
          · cases q with
            | nil => exact absurd hq (not_leafAt_nil hn hk)
            | cons b q =>
              cases b with
              | false => exact w1.fresh q x ((hL q x).1 hq)
              | true =>
                have hr := (hR q x).1 hq
                have := w2.fresh q x hr
                rwa [List.getD_eq_getElem?_getD, w1.other x fun q' hq' => sep q' q x hq' hr,
                  ← List.getD_eq_getElem?_getD] at this
          · cases q with
            | nil => exact absurd hq (not_leafAt_nil hn hk)
            | cons b q =>
              cases b with
              | false =>
                have hl := (hL q x).1 hq
                rw [w2.other x fun q' => sep q q' x hl, w1.code q x hl]
                simp
              | true =>
                rw [w2.code q x ((hR q x).1 hq)]
                simp
          · rw [w2.other x fun q hq => hx _ ((hR q x).2 hq), w1.other x fun q hq => hx _ ((hL q x).2 hq)]

/-- The counts of the walk: leaves recorded and the greatest LEN (R140). -/
structure WalkCounts (t : WalkState) : Prop where
  leaves : t.leaves = t.table.countP (fun e => e.codev)
  bound : ∀ e ∈ t.table, e.codev = true → e.len ≤ t.maxlen
  reached : t.maxlen = 0 ∨ ∃ e ∈ t.table, e.codev = true ∧ e.len = t.maxlen

theorem walkCounts_start : WalkCounts walkStart := by
  have hno : ∀ e ∈ walkStart.table, ¬ e.codev = true := fun e he => by
    rw [List.eq_of_mem_replicate he]; simp [noCode]
  exact ⟨(List.countP_eq_zero.2 hno).symm, fun e he hc => absurd hc (hno e he), .inl rfl⟩

theorem countP_set_fresh {t : List CodeEntry} {i : Nat} (hi : i < t.length) (hf : (t.getD i noCode).codev = false)
    (p : List Bool) : (t.set i (codeOf p)).countP (fun e => e.codev) = t.countP (fun e => e.codev) + 1 := by
  rw [List.countP_set hi]
  have : t[i].codev = false := by simpa [hi] using hf
  simp [this, codeOf]

theorem WalkCounts.addLeaf {t t' : WalkState} {x : Sym} {path : List Bool} (hc : WalkCounts t)
    (ht : t.table.length = 256) (h : t.addLeaf x path = .ok t') : WalkCounts t' := by
  obtain ⟨hf, rfl⟩ := addLeaf_ok h
  have hlt : x.toNat < t.table.length := by rw [ht]; exact x.isLt
  refine ⟨?_, fun e he hcd => ?_, ?_⟩
  · rw [countP_set_fresh hlt hf, hc.leaves]
  · rcases List.mem_or_eq_of_mem_set he with he | rfl
    · exact (hc.bound e he hcd).trans (Nat.le_max_left ..)
    · exact Nat.le_max_right ..
  · by_cases hle : t.maxlen ≤ path.length
    · refine .inr ⟨codeOf path, List.mem_iff_getElem.2 ⟨x.toNat, by simpa using hlt, by simp⟩, rfl, ?_⟩
      simp [codeOf, CodeEntry.len, hle]
    · have hgt : path.length < t.maxlen := by omega
      rcases hc.reached with h0 | ⟨e, he, hcd, hel⟩
      · omega
      · refine .inr ⟨e, ?_, hcd, by simp only [hel]; omega⟩
        obtain ⟨i, hi, rfl⟩ := List.getElem_of_mem he
        have hne : x.toNat ≠ i := by
          rintro rfl
          have : t.table[x.toNat].codev = false := by simpa [hi] using hf
          simp [this] at hcd
        exact List.mem_iff_getElem.2 ⟨i, by simpa using hi, by simp [hne]⟩

theorem walk_counts {s : State} {fuel n : Nat} {path : List Bool} {t t' : WalkState} (ht : t.table.length = 256)
    (hc : WalkCounts t) (h : walk s fuel n path t = .ok t') : WalkCounts t' := by
  induction fuel generalizing n path t t' with
  | zero => cases h
  | succ fuel ih =>
    simp only [walk] at h
    cases hn : s.engineNode n with
    | error e => rw [hn] at h; cases h
    | ok m =>
      simp only [hn] at h
      cases hk : m.kind with
      | leaf => simp only [hk] at h; exact hc.addLeaf ht h
      | internal =>
        simp only [hk] at h
        cases h1 : walk s fuel m.left (path ++ [false]) t with
        | error e => rw [h1] at h; cases h
        | ok t1 =>
          rw [h1] at h
          exact ih ((walk_ok ht h1).length.trans ht) (ih ht hc h1) h

/-- A walk of a sound tree ends, or reports the first duplicate in preorder (R140). -/
theorem walk_total {s : State} (ho : Owned s.nodes s.heap) {fuel n : Nat} {path : List Bool} {t : WalkState}
    (ht : t.table.length = 256) (hn : n < s.ncount)
    (hfuel : ∀ q i, follow s.nodes n q = some i → q.length < fuel) :
    (∃ t', walk s fuel n path t = .ok t') ∨
      ∃ q x, walk s fuel n path t = raise .invalidTree (toWord (0x100 + x.toNat)) ∧ LeafAt s.nodes n q x ∧
        ((t.table.getD x.toNat noCode).codev = true ∨ ∃ q', q' < q ∧ LeafAt s.nodes n q' x) ∧
        (∀ q' y, q' < q → LeafAt s.nodes n q' y → (t.table.getD y.toNat noCode).codev = false) ∧
        ∀ q1 q2 y, q1 < q → q2 < q → LeafAt s.nodes n q1 y → LeafAt s.nodes n q2 y → q1 = q2 := by
  induction fuel generalizing n path t with
  | zero => exact absurd (hfuel [] n (by rw [follow_nil]; exact if_pos hn)) (by omega)
  | succ fuel ih =>
    obtain ⟨m, hm⟩ : ∃ m, s.nodes[n]? = some m := ⟨_, List.getElem?_eq_getElem hn⟩
    simp only [walk, State.engineNode, hm, specified]
    cases hk : m.kind with
    | leaf =>
      dsimp only
      cases hc : (t.table.getD m.sym.toNat noCode).codev with
      | false => exact .inl ⟨_, by rw [WalkState.addLeaf, hc]; rfl⟩
      | true =>
        refine .inr ⟨[], m.sym, by rw [WalkState.addLeaf, hc]; rfl, (leafAt_of_leaf hm hk).2 ⟨rfl, rfl⟩, .inl hc,
          fun q' y hq => absurd hq (by simp), fun q1 q2 y hq => absurd hq (by simp)⟩
    | internal =>
      dsimp only
      have hlt := ho.children_lt n m hm hk
      have hL : ∀ q x, LeafAt s.nodes n (false :: q) x ↔ LeafAt s.nodes m.left q x := fun q x => leafAt_cons hm hk
      have hR : ∀ q x, LeafAt s.nodes n (true :: q) x ↔ LeafAt s.nodes m.right q x := fun q x => leafAt_cons hm hk
      have fL : ∀ q i, follow s.nodes m.left q = some i → q.length < fuel := fun q i hq => by
        have := hfuel (false :: q) i (by rw [follow_cons hm hk]; exact hq)
        simpa using this
      have fR : ∀ q i, follow s.nodes m.right q = some i → q.length < fuel := fun q i hq => by
        have := hfuel (true :: q) i (by rw [follow_cons hm hk]; exact hq)
        simpa using this
      rcases ih (path := path ++ [false]) ht hlt.1 fL with ⟨t1, h1⟩ | ⟨q, x, h1, hx, hd, hf, hu⟩
      · rw [h1]
        dsimp only
        have w1 := walk_ok ht h1
        rcases ih (path := path ++ [true]) (w1.length.trans ht) hlt.2 fR with ⟨t2, h2⟩ | ⟨q, x, h2, hx, hd, hf, hu⟩
        · exact .inl ⟨t2, h2⟩
        · have old : ∀ y : Sym, (t1.table.getD y.toNat noCode).codev = false →
              (t.table.getD y.toNat noCode).codev = false ∧ ∀ q', ¬ LeafAt s.nodes m.left q' y := by
            intro y hy
            have hno : ∀ q', ¬ LeafAt s.nodes m.left q' y := fun q' hq' => by
              simp [List.getD_eq_getElem?_getD, w1.code q' y hq', codeOf] at hy
            refine ⟨?_, hno⟩
            rwa [List.getD_eq_getElem?_getD, w1.other y hno, ← List.getD_eq_getElem?_getD] at hy
          refine .inr ⟨true :: q, x, h2, (hR q x).2 hx, ?_, ?_, ?_⟩
          · rcases hd with hd | ⟨q', hlt', hq'⟩
            · by_cases hno : ∃ q', LeafAt s.nodes m.left q' x
              · obtain ⟨q', hq'⟩ := hno
                exact .inr ⟨false :: q', by simp [List.cons_lt_cons_iff], (hL q' x).2 hq'⟩
              · left
                rwa [List.getD_eq_getElem?_getD, w1.other x fun q' hq' => hno ⟨q', hq'⟩,
                  ← List.getD_eq_getElem?_getD] at hd
            · exact .inr ⟨true :: q', by simpa [List.cons_lt_cons_iff] using hlt', (hR q' x).2 hq'⟩
          · intro q' y hlt' hq'
            cases q' with
            | nil => exact absurd hq' (not_leafAt_nil hm hk)
            | cons b q' =>
              cases b with
              | false => exact w1.fresh q' y ((hL q' y).1 hq')
              | true =>
                exact (old y (hf q' y (by simpa [List.cons_lt_cons_iff] using hlt') ((hR q' y).1 hq'))).1
          · intro q1 q2 y l1 l2 h1' h2'
            cases q1 with
            | nil => exact absurd h1' (not_leafAt_nil hm hk)
            | cons b1 q1 =>
              cases q2 with
              | nil => exact absurd h2' (not_leafAt_nil hm hk)
              | cons b2 q2 =>
                cases b1 <;> cases b2
                · rw [w1.distinct ((hL q1 y).1 h1') ((hL q2 y).1 h2')]
                · exact absurd ((hL q1 y).1 h1')
                    ((old y (hf q2 y (by simpa [List.cons_lt_cons_iff] using l2) ((hR q2 y).1 h2'))).2 q1)
                · exact absurd ((hL q2 y).1 h2')
                    ((old y (hf q1 y (by simpa [List.cons_lt_cons_iff] using l1) ((hR q1 y).1 h1'))).2 q2)
                · rw [hu q1 q2 y (by simpa [List.cons_lt_cons_iff] using l1)
                    (by simpa [List.cons_lt_cons_iff] using l2) ((hR q1 y).1 h1') ((hR q2 y).1 h2')]
      · rw [h1]
        refine .inr ⟨false :: q, x, rfl, (hL q x).2 hx, ?_, ?_, ?_⟩
        · rcases hd with hd | ⟨q', hlt', hq'⟩
          · exact .inl hd
          · exact .inr ⟨false :: q', by simpa [List.cons_lt_cons_iff] using hlt', (hL q' x).2 hq'⟩
        · intro q' y hlt' hq'
          cases q' with
          | nil => exact absurd hq' (not_leafAt_nil hm hk)
          | cons b q' =>
            cases b with
            | false => exact hf q' y (by simpa [List.cons_lt_cons_iff] using hlt') ((hL q' y).1 hq')
            | true =>
              simp only [List.cons_lt_cons_iff] at hlt'
              simp at hlt'
              exact absurd hlt' (by decide)
        · intro q1 q2 y l1 l2 h1' h2'
          cases q1 with
          | nil => exact absurd h1' (not_leafAt_nil hm hk)
          | cons b1 q1 =>
            cases q2 with
            | nil => exact absurd h2' (not_leafAt_nil hm hk)
            | cons b2 q2 =>
              cases b1 <;> cases b2
              · rw [hu q1 q2 y (by simpa [List.cons_lt_cons_iff] using l1)
                  (by simpa [List.cons_lt_cons_iff] using l2) ((hL q1 y).1 h1') ((hL q2 y).1 h2')]
              all_goals
                simp only [List.cons_lt_cons_iff] at l1 l2
                simp at l1 l2
                first | exact absurd l1 (by decide) | exact absurd l2 (by decide)

@[simp] theorem walkStart_length : walkStart.table.length = 256 := List.length_replicate

theorem walkStart_get {i : Nat} (h : i < 256) : walkStart.table[i]? = some noCode := by
  show (List.replicate Config.nSym noCode)[i]? = _
  rw [List.getElem?_replicate]
  exact if_pos h

theorem walkStart_codev (i : Nat) : (walkStart.table.getD i noCode).codev = false := by
  rw [List.getD_eq_getElem?_getD]
  by_cases h : i < 256
  · rw [walkStart_get h]; rfl
  · rw [List.getElem?_eq_none (by rw [walkStart_length]; omega)]; rfl

/-- GENCODE's walk in a state of R32 whose ROOT is allocated (R140): it ends, or reports the first duplicate. -/
theorem walkRoot_total {s : State} (ho : Owned s.nodes s.heap) (hr : s.root < s.ncount) :
    (∃ t, s.walkRoot = .ok t) ∨
      ∃ x, s.walkRoot = raise .invalidTree (toWord (0x100 + x.toNat)) ∧ FirstDuplicate s.nodes s.root x := by
  have := walk_total ho (path := []) walkStart_length hr (fuel := Config.maxCodeLen + 1)
    (fun q i hq => by have := ho.depth_le hq; simp; omega)
  rcases this with h | ⟨q, x, h, hx, hd, -, hu⟩
  · exact .inl h
  · refine .inr ⟨x, h, ⟨q, hx, ?_, hu⟩⟩
    rcases hd with hd | hd
    · rw [walkStart_codev] at hd; cases hd
    · exact hd

/-- The table GENCODE makes, entry by entry (R140, R141). -/
theorem walkRoot_table {s : State} {t : WalkState} (h : s.walkRoot = .ok t) :
    t.table.length = 256 ∧
      (∀ q x, LeafAt s.nodes s.root q x → t.table[x.toNat]? = some (codeOf q)) ∧
      (∀ x : Sym, (∀ q, ¬ LeafAt s.nodes s.root q x) → t.table[x.toNat]? = some noCode) ∧ WalkCounts t := by
  have w := walk_ok walkStart_length h
  refine ⟨w.length.trans walkStart_length, fun q x hq => by simpa using w.code q x hq, fun x hx => ?_,
    walk_counts walkStart_length walkCounts_start h⟩
  rw [w.other x hx]
  exact walkStart_get x.isLt

/-- The walk reads nothing but the shapes of the nodes under it (R28, R145, D43). -/
theorem walk_extends {s t : State} (h : Extends s.nodes t.nodes) {fuel n : Nat} {path : List Bool}
    {a b : WalkState} (hw : walk s fuel n path a = .ok b) : walk t fuel n path a = .ok b := by
  induction fuel generalizing n path a b with
  | zero => cases hw
  | succ fuel ih =>
    simp only [walk, State.engineNode] at hw ⊢
    cases hn : s.nodes[n]? with
    | none => rw [hn] at hw; cases hw
    | some m =>
      obtain ⟨m', hm', hs⟩ := h n m hn
      obtain ⟨h1, h2, -, h4, h5⟩ := Node.shape_eq_iff.1 hs
      simp only [hn, hm', specified, h1, h2, h4, h5] at hw ⊢
      cases hk : m.kind with
      | leaf => simpa only [hk] using hw
      | internal =>
        simp only [hk] at hw ⊢
        cases hl : walk s fuel m.left (path ++ [false]) a with
        | error e => rw [hl] at hw; cases hw
        | ok a1 =>
          rw [hl] at hw
          rw [ih hl]
          exact ih hw

theorem walkRoot_extends {s t : State} (h : Extends s.nodes t.nodes) (hr : t.root = s.root) {b : WalkState}
    (hw : s.walkRoot = .ok b) : t.walkRoot = .ok b := by
  unfold State.walkRoot at *
  rw [hr]
  exact walk_extends h hw

end Sys2Proof.Machine
end

