-- ==== Sys2Proof/Laws/Codec.lean ====
section
/-! SUPPORT. What ENCODE gathers (R152) and how the traversal reads codes off a stream (R156). -/

namespace Sys2Proof.Machine

/-! ### Gathering the codes of the input (R152) -/

/-- Input symbols that are specified and have codes are gathered in order. -/
theorem gatherCodes_ok {s : State} {a : Nat} {xs : List Sym} {k : Nat} {codes : List (List Bool)}
    (hs : SymsAre s (a + k) xs) (hc : xs.map (fun x => s.code[x.toNat]?) = codes.map (fun p => some (codeOf p))) :
    s.gatherCodes a xs.length k = .ok codes := by
  induction xs generalizing k codes with
  | nil => cases codes <;> simp [State.gatherCodes] at hc ⊢
  | cons x xs ih =>
    cases codes with
    | nil => simp at hc
    | cons p ps =>
      simp only [List.map_cons, List.cons.injEq] at hc
      have h0 := hs 0 (by simp)
      simp only [Nat.add_zero, List.getElem_cons_zero] at h0
      have hrest : SymsAre s (a + (k + 1)) xs := fun j hj => by
        have := hs (j + 1) (by simpa using hj)
        simpa [show a + k + (j + 1) = a + (k + 1) + j by omega] using this
      simp only [List.length_cons, State.gatherCodes, State.engineSym, h0, specified, State.engineCode, hc.1, bind,
        Except.bind, codeOf, ih hrest hc.2]
      rfl

/-- The first input position whose symbol has no code is the one reported (R152, R181). -/
theorem gatherCodes_unknown {s : State} {a : Nat} {xs : List Sym} {k n : Nat} {x : Sym} {codes : List (List Bool)}
    {p : List Bool} (hs : SymsAre s (a + k) (xs ++ [x]))
    (hc : xs.map (fun x => s.code[x.toNat]?) = codes.map (fun p => some (codeOf p)))
    (hx : s.code[x.toNat]? = some { codev := false, path := p }) :
    s.gatherCodes a (xs.length + 1 + n) k = raise .unknownSymbol (toWord (k + xs.length)) := by
  induction xs generalizing k codes with
  | nil =>
    have h0 := hs 0 (by simp)
    simp only [Nat.add_zero, List.nil_append, List.getElem_cons_zero] at h0
    rw [show List.length ([] : List Sym) + 1 + n = n + 1 by simp [Nat.add_comm]]
    simp only [State.gatherCodes, State.engineSym, h0, specified, State.engineCode, hx, bind, Except.bind]
    rfl
  | cons y xs ih =>
    cases codes with
    | nil => simp at hc
    | cons q ps =>
      simp only [List.map_cons, List.cons.injEq] at hc
      have h0 := hs 0 (by simp)
      simp only [Nat.add_zero, List.cons_append, List.getElem_cons_zero] at h0
      have hrest : SymsAre s (a + (k + 1)) (xs ++ [x]) := fun j hj => by
        have := hs (j + 1) (by simpa using hj)
        simpa [show a + k + (j + 1) = a + (k + 1) + j by omega] using this
      rw [show (y :: xs).length + 1 + n = (xs.length + 1 + n) + 1 by simp; omega]
      simp only [State.gatherCodes, State.engineSym, h0, specified, State.engineCode, hc.1, bind, Except.bind, codeOf,
        ih hrest hc.2]
      rw [show k + 1 + xs.length = k + (y :: xs).length by simp; omega]
      rfl

/-- How gathering can end early (R66, R152): an unknown symbol, an unspecified SYMMEM element, or a CODE element that
does not exist. -/
theorem gatherCodes_error {s : State} {a n k : Nat} {e : Stop} (h : s.gatherCodes a n k = .error e) :
    (∃ j, j < n ∧ e = .raise .unknownSymbol (toWord (k + j))) ∨
      (∃ j, j < n ∧ s.symmem.read (a + k + j) = none ∧ e = .fault (.unspecifiedRead .symmem (a + k + j))) ∨
      ∃ x : Sym, s.code[x.toNat]? = none ∧ e = .fault (.unspecifiedRead .code x.toNat) := by
  induction n generalizing k with
  | zero => cases h
  | succ n ih =>
    simp only [State.gatherCodes, State.engineSym, State.engineCode] at h
    cases hx : s.symmem.read (a + k) with
    | none =>
      simp only [hx, specified, unspecified, bind, Except.bind, Except.error.injEq] at h
      exact .inr (.inl ⟨0, by omega, hx, h.symm⟩)
    | some x =>
      simp only [hx, specified, bind, Except.bind] at h
      cases hc : s.code[x.toNat]? with
      | none =>
        simp only [hc, unspecified, Except.error.injEq] at h
        exact .inr (.inr ⟨x, hc, h.symm⟩)
      | some c =>
        simp only [hc] at h
        split at h
        · simp only [raise, Except.error.injEq] at h
          exact .inl ⟨0, by omega, by rw [← h]; rfl⟩
        · cases hg : s.gatherCodes a n (k + 1) with
          | ok r => rw [hg] at h; cases h
          | error e' =>
            rw [hg] at h
            simp only [Except.error.injEq] at h
            subst h
            rcases ih hg with ⟨j, hj, he⟩ | ⟨j, hj, hn, he⟩ | hcx
            · exact .inl ⟨j + 1, by omega, by rw [he]; congr 2; omega⟩
            · refine .inr (.inl ⟨j + 1, by omega, ?_, ?_⟩)
              · rwa [show a + k + (j + 1) = a + (k + 1) + j by omega]
              · rw [he]; congr 2; omega
            · exact .inr (.inr hcx)

/-- What was gathered: the input is specified and every symbol has a code. -/
theorem gatherCodes_inv {s : State} {a n k : Nat} {codes : List (List Bool)} (h : s.gatherCodes a n k = .ok codes) :
    ∃ xs : List Sym, xs.length = n ∧ SymsAre s (a + k) xs ∧
      List.Forall₂ (fun x p => s.code[x.toNat]? = some (codeOf p)) xs codes := by
  induction n generalizing k codes with
  | zero => cases h; exact ⟨[], rfl, fun j hj => absurd hj (by simp), .nil⟩
  | succ n ih =>
    simp only [State.gatherCodes, State.engineSym, State.engineCode] at h
    cases hx : s.symmem.read (a + k) with
    | none => simp only [hx, specified, unspecified, bind, Except.bind] at h; cases h
    | some x =>
      simp only [hx, specified, bind, Except.bind] at h
      cases hc : s.code[x.toNat]? with
      | none => simp only [hc, unspecified] at h; cases h
      | some c =>
        simp only [hc] at h
        split at h
        · simp only [raise] at h; cases h
        · next hcv =>
          cases hg : s.gatherCodes a n (k + 1) with
          | error e => rw [hg] at h; cases h
          | ok r =>
            rw [hg] at h
            simp only [Except.ok.injEq] at h
            subst h
            obtain ⟨xs, hl, hs, hf⟩ := ih hg
            refine ⟨x :: xs, by simp [hl], fun j hj => ?_, .cons ?_ hf⟩
            · cases j with
              | zero => simpa using hx
              | succ j =>
                have := hs j (by simpa using hj)
                simpa [show a + k + (j + 1) = a + (k + 1) + j by omega] using this
            · rw [hc]
              cases c
              simp at hcv
              simp [codeOf, hcv]

/-! ### The traversal over a list of bits (R156) -/

/-- The loop of R156 over bits in hand, the first at stream position `p`. -/
def traverseBits (s : State) : List Bool → (p : Nat) → Cursor → Except Stop Cursor
  | [], _, c => .ok c
  | b :: bs, p, c =>
    match s.descend p b c with
    | .error e => .error e
    | .ok c' => traverseBits s bs (p + 1) c'

theorem streamBit_of_streamIs {s : State} {a : Nat} {bits : List Bool} (h : StreamIs s a bits) {p : Nat}
    (hp : p < bits.length) : s.streamBit a p = .ok bits[p] := by
  obtain ⟨v, hv, hb⟩ := h p hp
  simp [State.streamBit, State.engineWord, hv, specified, Except.map, hb, List.getD_eq_getElem?_getD, hp]

theorem traverseFrom_eq {s : State} {a : Nat} {bits : List Bool} (h : StreamIs s a bits) {n p : Nat}
    (hp : p + n = bits.length) (c : Cursor) : s.traverseFrom a n p c = traverseBits s (bits.drop p) p c := by
  induction n generalizing p c with
  | zero => rw [List.drop_eq_nil_of_le (by omega)]; rfl
  | succ n ih =>
    have hp' : p < bits.length := by omega
    rw [List.drop_eq_getElem_cons hp']
    simp only [State.traverseFrom, streamBit_of_streamIs h hp', bind, Except.bind, traverseBits]
    cases s.descend p bits[p] c with
    | error e => rfl
    | ok c' => exact ih (by omega) c'

theorem traverse_eq {s : State} {a : Nat} {bits : List Bool} (h : StreamIs s a bits) :
    s.traverse a bits.length = traverseBits s bits 0 { cur := s.root, out := [], start := 0 } := by
  have := traverseFrom_eq h (n := bits.length) (p := 0) (by omega) { cur := s.root, out := [], start := 0 }
  simpa [State.traverse] using this

theorem descend_eq {s : State} {p : Nat} {b : Bool} {c : Cursor} {m ch : Node} (hm : s.nodes[c.cur]? = some m)
    (hch : s.nodes[if b then m.right else m.left]? = some ch) :
    s.descend p b c = .ok (match ch.kind with
      | .leaf => { cur := s.root, out := c.out ++ [ch.sym], start := p + 1 }
      | .internal => { c with cur := if b then m.right else m.left }) := by
  simp only [State.descend, State.engineNode, hm, hch, specified, bind, Except.bind]
  cases ch.kind <;> rfl

/-- Along a path that stays on internal nodes the traversal emits nothing. -/
theorem traverseBits_inner {s : State} {q rest : List Bool} {p i : Nat} {c : Cursor} {m : Node}
    (hf : follow s.nodes c.cur q = some i) (hi : s.nodes[i]? = some m) (hk : m.kind = .internal) :
    traverseBits s (q ++ rest) p c = traverseBits s rest (p + q.length) { c with cur := i } := by
  induction q generalizing p c with
  | nil =>
    obtain ⟨rfl, -⟩ := follow_nil_some hf
    rfl
  | cons b bs ih =>
    obtain ⟨m1, hm1, hk1, hf1⟩ := follow_cons_some hf
    obtain ⟨ch, hch⟩ : ∃ ch, s.nodes[if b then m1.right else m1.left]? = some ch := by
      cases bs with
      | nil => exact ⟨_, List.getElem?_eq_getElem (follow_nil_some hf1).2⟩
      | cons b' bs' => obtain ⟨ch, hch, -⟩ := follow_cons_some hf1; exact ⟨ch, hch⟩
    have hck : ch.kind = .internal := by
      cases bs with
      | nil =>
        obtain ⟨rfl, -⟩ := follow_nil_some hf1
        rw [hi] at hch; cases hch; exact hk
      | cons b' bs' =>
        obtain ⟨ch', hch', hk', -⟩ := follow_cons_some hf1
        rw [hch] at hch'; cases hch'; exact hk'
    simp only [List.cons_append, traverseBits, descend_eq hm1 hch, hck]
    rw [ih hf1]
    simp only [List.length_cons]
    congr 1
    omega

/-- A whole code emits its symbol and returns to ROOT (R156). -/
theorem traverseBits_code {s : State} {q rest : List Bool} {p : Nat} {c : Cursor} {x : Sym} (hne : q ≠ [])
    (hx : LeafAt s.nodes c.cur q x) :
    traverseBits s (q ++ rest) p c =
      traverseBits s rest (p + q.length) { cur := s.root, out := c.out ++ [x], start := p + q.length } := by
  rcases List.eq_nil_or_concat' q with rfl | ⟨q', b, rfl⟩
  · exact absurd rfl hne
  · obtain ⟨i, m, hf, hi, hk, rfl⟩ := hx
    obtain ⟨j, mj, hj, hmj, hkj, rfl⟩ := follow_concat_some hf
    rw [List.append_assoc, traverseBits_inner hj hmj hkj]
    simp only [List.cons_append, List.nil_append, traverseBits, descend_eq (c := { c with cur := j }) hmj hi, hk]
    simp only [List.length_append, List.length_singleton, Nat.add_assoc]

/-- A stream of whole codes under an internal ROOT emits their symbols and ends at its last bit (R156, R159). -/
theorem traverseBits_codes {s : State} {m : Node} (hr : s.nodes[s.root]? = some m) (hk : m.kind = .internal)
    {xs : List Sym} {codes : List (List Bool)} (h : List.Forall₂ (fun x q => LeafAt s.nodes s.root q x) xs codes)
    (rest : List Bool) (p : Nat) (out : List Sym) (start : Nat) (hp : start = p) :
    traverseBits s (codes.flatten ++ rest) p { cur := s.root, out := out, start := start } =
      traverseBits s rest (p + codes.flatten.length)
        { cur := s.root, out := out ++ xs, start := p + codes.flatten.length } := by
  induction h generalizing p out start with
  | nil => simp [hp]
  | @cons x q xs codes hx _ ih =>
    have hq : q ≠ [] := fun e => not_leafAt_nil hr hk (e ▸ hx)
    rw [List.flatten_cons, List.append_assoc, traverseBits_code hq hx, ih _ _ _ rfl]
    simp [Nat.add_assoc]

/-- The traversal of a stream whose words are specified never stops early in a state of R32, and its node stays
internal (R156, U9). -/
theorem traverseBits_total {s : State} (ho : Owned s.nodes s.heap) {mr : Node} (hr : s.nodes[s.root]? = some mr)
    (hkr : mr.kind = .internal) {bits : List Bool} {p : Nat} {c : Cursor} {m : Node}
    (hc : s.nodes[c.cur]? = some m) (hk : m.kind = .internal) :
    ∃ c', traverseBits s bits p c = .ok c' := by
  induction bits generalizing p c m with
  | nil => exact ⟨c, rfl⟩
  | cons b bs ih =>
    have hlt := ho.children_lt _ m hc hk
    obtain ⟨ch, hch⟩ : ∃ ch, s.nodes[if b then m.right else m.left]? = some ch :=
      ⟨_, List.getElem?_eq_getElem (by cases b <;> simp [hlt])⟩
    simp only [traverseBits, descend_eq hc hch]
    cases hck : ch.kind with
    | leaf => exact ih hr hkr
    | internal => exact ih (c := { c with cur := if b then m.right else m.left }) hch hck

/-- Every bit string is some whole codes and then the beginning of one (R156). -/
theorem split_codes {s : State} (ho : Owned s.nodes s.heap) {mr : Node} (hr : s.nodes[s.root]? = some mr)
    (hkr : mr.kind = .internal) (bits : List Bool) :
    ∃ (xs : List Sym) (codes : List (List Bool)) (tail : List Bool) (i : Nat) (m : Node),
      bits = codes.flatten ++ tail ∧ List.Forall₂ (fun x q => LeafAt s.nodes s.root q x) xs codes ∧
        follow s.nodes s.root tail = some i ∧ s.nodes[i]? = some m ∧ m.kind = .internal := by
  induction bits using List.reverseRecOn with
  | nil =>
    refine ⟨[], [], [], s.root, mr, rfl, .nil, ?_, hr, hkr⟩
    rw [follow_nil, if_pos (lt_length_of_getElem? hr)]
  | append_singleton bits b ih =>
    obtain ⟨xs, codes, tail, i, m, rfl, hx, hf, hi, hk⟩ := ih
    have hlt := ho.children_lt i m hi hk
    have hcl : (if b then m.right else m.left) < s.nodes.length := by cases b <;> simp [hlt]
    obtain ⟨ch, hch⟩ : ∃ ch, s.nodes[if b then m.right else m.left]? = some ch :=
      ⟨_, List.getElem?_eq_getElem hcl⟩
    have hfb : follow s.nodes s.root (tail ++ [b]) = some (if b then m.right else m.left) := by
      rw [follow_append, hf, Option.bind_some, follow_cons hi hk, follow_nil, if_pos hcl]
    cases hck : ch.kind with
    | internal => exact ⟨xs, codes, tail ++ [b], _, ch, by simp, hx, hfb, hch, hck⟩
    | leaf =>
      refine ⟨xs ++ [ch.sym], codes ++ [tail ++ [b]], [], s.root, mr, by simp, ?_, ?_, hr, hkr⟩
      · exact List.rel_append hx (.cons ⟨_, ch, hfb, hch, hck, rfl⟩ .nil)
      · rw [follow_nil, if_pos (lt_length_of_getElem? hr)]

end Sys2Proof.Machine
end

