-- ==== Sys2Proof/Laws/Complete.lean ====
section
/-! SUPPORT. Every command as a body that ends once: how `complete` ends it, and what each body can leave or raise. -/

namespace Sys2Proof.Machine

variable {s t : State}

theorem ErrorKind.code_ne_zero (e : ErrorKind) : e.code ≠ 0#8 := by cases e <;> decide

/-- The three ways `complete` ends a body (R182, R183, R189). -/
theorem complete_cases (s : State) (r : Except Stop Done) :
    (∃ d, r = .ok d ∧ complete s r = .next (d.state.completeOk d.result d.result1)) ∨
      (∃ e info, r = .error (.raise e info) ∧ complete s r = .next (s.completeError e info)) ∨
      ∃ f, r = .error (.fault f) ∧ complete s r = .fault f := by
  rcases r with (⟨e, info⟩ | f) | d
  · exact .inr (.inl ⟨e, info, rfl, rfl⟩)
  · exact .inr (.inr ⟨f, rfl, rfl⟩)
  · exact .inl ⟨d, rfl, rfl⟩

theorem complete_next {r : Except Stop Done} (h : complete s r = .next t) :
    (∃ d, r = .ok d ∧ t = d.state.completeOk d.result d.result1) ∨
      ∃ e info, r = .error (.raise e info) ∧ t = s.completeError e info := by
  rcases complete_cases s r with ⟨d, hr, hc⟩ | ⟨e, info, hr, hc⟩ | ⟨f, hr, hc⟩
  · exact .inl ⟨d, hr, by rw [h] at hc; injection hc⟩
  · exact .inr ⟨e, info, hr, by rw [h] at hc; injection hc⟩
  · rw [h] at hc; cases hc

theorem complete_fault {r : Except Stop Done} {f : Fault} (h : complete s r = .fault f) : r = .error (.fault f) := by
  rcases complete_cases s r with ⟨d, hr, hc⟩ | ⟨e, info, hr, hc⟩ | ⟨f', hr, hc⟩
  · rw [h] at hc; cases hc
  · rw [h] at hc; cases hc
  · rw [h] at hc; injection hc with hf; rw [hr, hf]

theorem complete_not_refused (s : State) (r : Except Stop Done) (x : Refusal) : complete s r ≠ .refused x := by
  rcases complete_cases s r with ⟨d, -, hc⟩ | ⟨e, info, -, hc⟩ | ⟨f, -, hc⟩ <;> rw [hc] <;> exact nofun

/-- The body of each command. -/
def body (i : Instr) (s : State) : Except Stop Done :=
  match i with
  | .nop => .ok ⟨s, 0#32, 0#32⟩
  | .clr => .ok ⟨s.clearTree, 0#32, 0#32⟩
  | .frqclr => .ok ⟨s.zeroFreq, 0#32, 0#32⟩
  | .mkleaf x => mkleafBody x s
  | .hins k => hinsBody k s
  | .hpop => hpopBody s
  | .merge => mergeBody s
  | .setroot k => setrootBody k s
  | .build => buildBody s
  | .gencode => gencodeBody s
  | .encode => encodeBody s
  | .decode => decodeBody s

theorem exec_eq (i : Instr) (s : State) : exec i s = complete s (body i s) := by cases i <;> rfl

theorem exec_not_refused (i : Instr) (s : State) (x : Refusal) : exec i s ≠ .refused x := by
  rw [exec_eq]; exact complete_not_refused s _ x

/-- A command ends in a success of its body, or in an error that leaves the start state (R182, R183). -/
theorem exec_next {i : Instr} (h : exec i s = .next t) :
    (∃ d, body i s = .ok d ∧ t = d.state.completeOk d.result d.result1) ∨
      ∃ e info, body i s = .error (.raise e info) ∧ t = s.completeError e info :=
  complete_next (exec_eq i s ▸ h)

/-- A command whose completion carries no error ran its body to the end. -/
theorem exec_success {i : Instr} (h : exec i s = .next t) (h0 : t.errcode = 0#8) :
    ∃ d, body i s = .ok d ∧ t = d.state.completeOk d.result d.result1 := by
  rcases exec_next h with hd | ⟨e, info, -, rfl⟩
  · exact hd
  · exact absurd h0 (ErrorKind.code_ne_zero e)

theorem exec_fault {i : Instr} {f : Fault} (h : exec i s = .fault f) : body i s = .error (.fault f) :=
  complete_fault (exec_eq i s ▸ h)

/-- A body that ends with `t` and two results is a successful completion (R183). -/
theorem completes_of_body {i : Instr} {result result1 : Nat} (h : body i s = .ok ⟨t, toWord result, toWord result1⟩) :
    Completes i s t result result1 := by
  rw [Completes, exec_eq, h]; rfl

/-- A body that raises is an error completion (R182). -/
theorem raises_of_body {i : Instr} {e : ErrorKind} {info : Nat} (h : body i s = .error (.raise e (toWord info))) :
    Raises i s e.code info := by
  rw [Raises, exec_eq, h]; rfl

theorem exec_of_body_fault {i : Instr} {f : Fault} (h : body i s = .error (.fault f)) : exec i s = .fault f := by
  rw [exec_eq, h]; rfl

/-! ### What each body leaves -/

variable {d : Done}

theorem mkleafBody_ok {x : Sym} (h : mkleafBody x s = .ok d) :
    s.ncount ≠ 511 ∧ d = ⟨s.newLeaf x s.arg0, toWord s.ncount, 0#32⟩ := by
  unfold mkleafBody at h
  split at h
  · cases h
  · rename_i hc
    exact ⟨hc, by injection h with h; exact h.symm⟩

theorem hinsBody_ok {k : Nat} (h : hinsBody k s = .ok d) :
    ∃ n, s.nodes[k]? = some n ∧ n.own = .free ∧ s.hsize < 511 ∧ s.heapReadable = true ∧
      d = ⟨s.heapInsert k, toWord (s.heapInsert k).hsize, toWord (s.insertPos k)⟩ := by
  unfold hinsBody at h
  split at h
  · cases h
  · rename_i n hn
    split at h
    · cases h
    · rename_i ho
      split at h
      · cases h
      · rename_i hs
        split at h
        · rename_i hr
          refine ⟨n, hn, ?_, by simpa using hs, hr, by injection h with h; exact h.symm⟩
          exact Decidable.of_not_not ho
        · cases h

theorem hpopBody_ok (h : hpopBody s = .ok d) :
    s.hsize ≠ 0 ∧ s.heapReadable = true ∧ d = ⟨s.heapPop, toWord s.heapMin, toWord (s.W s.heapMin)⟩ := by
  unfold hpopBody at h
  split at h
  · cases h
  · rename_i h0
    split at h
    · rename_i hr
      exact ⟨h0, hr, by injection h with h; exact h.symm⟩
    · cases h

theorem mergeBody_ok (h : mergeBody s = .ok d) :
    ∃ t n, s.mergeStep = .ok (t, n) ∧ d = ⟨t, toWord n, toWord (t.W n)⟩ := by
  unfold mergeBody at h
  split at h
  · cases h
  · rename_i t n ht
    exact ⟨t, n, ht, by injection h with h; exact h.symm⟩

theorem setrootBody_ok {k : Nat} (h : setrootBody k s = .ok d) :
    k < s.ncount ∧ d = ⟨s.setRoot k, toWord k, 0#32⟩ := by
  unfold setrootBody at h
  split at h
  · cases h
  · rename_i hk
    exact ⟨by omega, by injection h with h; exact h.symm⟩

/-- BUILD ends in success only with every frequency specified, some non-zero, and a sum that fits (R126). -/
theorem buildBody_ok (h : buildBody s = .ok d) :
    ∃ fs t, fs.length = 256 ∧ (List.range 256).map s.freq.read = fs.map some ∧
      fs.all (fun f => f = 0#32) = false ∧ freqTotal fs ≤ Config.maxWeight ∧
      (s.clearTree.seedLeaves 0 fs).mergeAll (s.clearTree.seedLeaves 0 fs).hsize = .ok t ∧
      d = ⟨t.heapPop.setRoot t.heapMin, toWord t.heapMin, toWord t.heapPop.ncount⟩ := by
  unfold buildBody at h
  split at h
  · cases h
  · rename_i fs hfs
    have hr := readFreqs_ok.1 hfs
    have hlen : fs.length = 256 := by simpa using (congrArg List.length hr).symm
    split at h
    · cases h
    · rename_i ha
      split at h
      · cases h
      · rename_i ht
        simp only at h
        split at h
        · cases h
        · rename_i t hm
          exact ⟨fs, t, hlen, hr, by simpa using ha, by omega, hm, by injection h with h; exact h.symm⟩

theorem gencodeBody_ok (h : gencodeBody s = .ok d) :
    s.rootv = true ∧ ∃ t, s.walkRoot = .ok t ∧ d = ⟨s.setCode t.table, toWord t.leaves, toWord t.maxlen⟩ := by
  unfold gencodeBody at h
  split at h
  · cases h
  · rename_i hr
    split at h
    · cases h
    · rename_i t ht
      exact ⟨by simpa using hr, t, ht, by injection h with h; exact h.symm⟩

theorem encodeBody_ok (h : encodeBody s = .ok d) :
    ¬ (s.opArg1 > 0 ∧ s.codetv = false) ∧ ¬ (s.opArg1 > 0 ∧ s.opArg0 + s.opArg1 > s.symSize) ∧
      ∃ codes, s.gatherCodes s.opArg0 s.opArg1 0 = .ok codes ∧
        s.opArg2 + payloadWords (bitCount codes) + 1 ≤ s.wordSize ∧
        d = ⟨s.storeWords s.opArg2 (toWord (bitCount codes) :: packWords codes), toWord (bitCount codes),
          toWord (packWords codes).length⟩ := by
  unfold encodeBody at h
  simp only at h
  split at h
  · cases h
  · rename_i h1
    split at h
    · cases h
    · rename_i h2
      split at h
      · cases h
      · rename_i codes hc
        split at h
        · cases h
        · rename_i hb
          exact ⟨h1, h2, codes, hc, by omega, by injection h with h; exact h.symm⟩

theorem decodeBody_ok (h : decodeBody s = .ok d) :
    s.opArg0 < s.wordSize ∧ ∃ l out, s.wordmem.read s.opArg0 = some l ∧
      s.decodeOut s.opArg0 l.toNat s.opArg1 = .ok out ∧ s.opArg2 + out.length ≤ s.symSize ∧
      d = ⟨s.storeSyms s.opArg2 out, toWord out.length, l⟩ := by
  unfold decodeBody at h
  simp only at h
  split at h
  · cases h
  · rename_i ha
    split at h
    · cases h
    · rename_i l hl
      split at h
      · cases h
      · rename_i out ho
        split at h
        · cases h
        · rename_i hb
          refine ⟨by omega, l, out, ?_, ho, by omega, by injection h with h; exact h.symm⟩
          cases hrd : s.wordmem.read s.opArg0 with
          | none => simp [State.engineWord, specified, hrd, unspecified] at hl
          | some v => simpa [State.engineWord, specified, hrd] using hl

/-! ### The whole command set at once -/

/-- What a body that succeeds has written, by command: everything else in the state is the start state's. -/
theorem body_frame {i : Instr} (h : body i s = .ok d) :
    d.state = { s with
      freq := d.state.freq, nodes := d.state.nodes, heap := d.state.heap, root := d.state.root,
      rootv := d.state.rootv, code := d.state.code, codetv := d.state.codetv,
      symmem := d.state.symmem, wordmem := d.state.wordmem } := by
  cases i with
  | nop => cases h; rfl
  | clr => cases h; rfl
  | frqclr => injection h with h; subst h; rw [State.zeroFreq]
  | mkleaf x => obtain ⟨-, rfl⟩ := mkleafBody_ok h; rfl
  | hins k => obtain ⟨n, -, -, -, -, rfl⟩ := hinsBody_ok h; rfl
  | hpop => obtain ⟨-, -, rfl⟩ := hpopBody_ok h; rfl
  | merge =>
    obtain ⟨t, n, ht, rfl⟩ := mergeBody_ok h
    simpa using mergeStep_frame ht ▸ rfl
  | setroot k => obtain ⟨-, rfl⟩ := setrootBody_ok h; rfl
  | build =>
    obtain ⟨fs, t, hlen, -, hne, ht, hm, rfl⟩ := buildBody_ok h
    obtain ⟨t', hm', hb⟩ := build_spec (s := s) hlen hne ht
    rw [hm] at hm'
    cases hm'
    simp only
    rw [hb.frame]
  | gencode => obtain ⟨-, t, -, rfl⟩ := gencodeBody_ok h; rfl
  | encode => obtain ⟨-, -, codes, -, -, rfl⟩ := encodeBody_ok h; rfl
  | decode => obtain ⟨-, l, out, -, -, -, rfl⟩ := decodeBody_ok h; rfl

end Sys2Proof.Machine
end

