-- ==== Sys2Proof/Laws/Bodies.lean ====
section
/-! SUPPORT. What a successful command body keeps: node fields (R28), the tree (R32 to R34), validity (R35), memories. -/

namespace Sys2Proof.Machine

variable {i : Instr} {s t : State} {d : Done}

/-- The three ways MERGE can be turned away, and what it leaves otherwise, in a sound state (R122, R124). -/
theorem mergeStep_ok (h : Owned s.nodes s.heap) {n : Nat} (ht : s.mergeStep = .ok (t, n)) :
    2 ≤ s.hsize ∧ s.ncount < Config.nodeCap ∧ s.W s.heapMin + s.W s.heapMin2 ≤ Config.maxWeight ∧ t = s.merged ∧
      n = s.ncount := by
  have hcap : s.ncount ≤ Config.nodeCap := h.cap
  rw [mergeStep_eq h] at ht
  split at ht
  · cases ht
  · split at ht
    · cases ht
    · split at ht
      · cases ht
      · cases ht
        exact ⟨by omega, by omega, by omega, rfl, rfl⟩

/-- Outside CLR and BUILD a command only adds nodes and changes OWN (R28). -/
theorem body_extends (h1 : i ≠ .clr) (h2 : i ≠ .build) (hb : body i s = .ok d) : Extends s.nodes d.state.nodes := by
  cases i with
  | nop => cases hb; exact Extends.refl _
  | clr => contradiction
  | frqclr => injection hb with hb; subst hb; unfold State.zeroFreq; exact Extends.refl _
  | mkleaf x => obtain ⟨-, rfl⟩ := mkleafBody_ok hb; exact extends_append _ _
  | hins k => obtain ⟨n, -, -, -, -, rfl⟩ := hinsBody_ok hb; exact extends_setOwn _ _ _
  | hpop => obtain ⟨-, -, rfl⟩ := hpopBody_ok hb; exact extends_setOwn _ _ _
  | merge =>
    obtain ⟨t, n, ht, rfl⟩ := mergeBody_ok hb
    unfold State.mergeStep at ht
    split at ht
    · cases ht
    · split at ht
      · cases ht
      · split at ht
        · cases ht
        · simp only at ht
          split at ht
          · cases ht
          · cases ht
            exact (extends_setOwn _ _ _).trans ((extends_setOwn _ _ _).trans ((extends_setOwn _ _ _).trans
              ((extends_setOwn _ _ _).trans ((extends_append _ _).trans (extends_setOwn _ _ _)))))
  | setroot k => obtain ⟨-, rfl⟩ := setrootBody_ok hb; exact Extends.refl _
  | build => contradiction
  | gencode => obtain ⟨-, t, -, rfl⟩ := gencodeBody_ok hb; exact Extends.refl _
  | encode => obtain ⟨-, -, codes, -, -, rfl⟩ := encodeBody_ok hb; exact Extends.refl _
  | decode => obtain ⟨-, l, out, -, -, -, rfl⟩ := decodeBody_ok hb; exact Extends.refl _

/-- What a successful BUILD leaves (R126, R127). -/
theorem buildBody_built (hb : buildBody s = .ok d) :
    ∃ fs r, fs.length = 256 ∧ (List.range 256).map s.freq.read = fs.map some ∧ Built fs s d.state r ∧
      d.result = toWord r ∧ d.result1 = toWord d.state.ncount := by
  obtain ⟨fs, t, hlen, hr, hne, ht, hm, rfl⟩ := buildBody_ok hb
  obtain ⟨t', hm', hB⟩ := build_spec (s := s) hlen hne ht
  rw [hm] at hm'
  cases hm'
  exact ⟨fs, _, hlen, hr, hB, rfl, rfl⟩

theorem body_tree (h : TreeOk s.nodes s.heap) (hb : body i s = .ok d) : TreeOk d.state.nodes d.state.heap := by
  cases i with
  | nop => cases hb; exact h
  | clr => cases hb; exact treeOk_nil
  | frqclr => injection hb with hb; subst hb; unfold State.zeroFreq; exact h
  | mkleaf x =>
    obtain ⟨hc, rfl⟩ := mkleafBody_ok hb
    have hcap : s.ncount ≤ 511 := h.owned.cap
    exact h.newLeaf _ _ (show s.ncount < 511 by omega)
  | hins k => obtain ⟨n, hn, ho, -, -, rfl⟩ := hinsBody_ok hb; exact h.heapInsert hn ho
  | hpop => obtain ⟨h0, -, rfl⟩ := hpopBody_ok hb; exact h.heapPop (by omega)
  | merge =>
    obtain ⟨t, n, ht, rfl⟩ := mergeBody_ok hb
    obtain ⟨h2, hc, hw, rfl, -⟩ := mergeStep_ok h.owned ht
    exact (merged_spec h h2 hc hw).tree
  | setroot k => obtain ⟨-, rfl⟩ := setrootBody_ok hb; exact h
  | build => obtain ⟨fs, r, -, -, hB, -, -⟩ := buildBody_built hb; exact hB.tree
  | gencode => obtain ⟨-, t, -, rfl⟩ := gencodeBody_ok hb; exact h
  | encode => obtain ⟨-, -, codes, -, -, rfl⟩ := encodeBody_ok hb; exact h
  | decode => obtain ⟨-, l, out, -, -, -, rfl⟩ := decodeBody_ok hb; exact h

theorem valid_of_same (h : s.Valid) (he : Extends s.nodes t.nodes) (h1 : t.root = s.root) (h2 : t.rootv = s.rootv)
    (h3 : t.codetv = s.codetv) (h4 : t.code = s.code) : t.Valid := by
  refine ⟨fun hr => ?_, fun hr => ?_, fun hc => ?_, fun hc => ?_⟩
  · have := h.root (h2 ▸ hr)
    obtain ⟨m, hm, -⟩ := he s.root _ (List.getElem?_eq_getElem this)
    rw [h1]; exact lt_length_of_getElem? hm
  · rw [h1]; exact h.noRoot (h2 ▸ hr)
  · rw [h2]; exact h.tree (h3 ▸ hc)
  · obtain ⟨w, hw, hcode⟩ := h.table (h3 ▸ hc)
    exact ⟨w, walkRoot_extends he h1 hw, h4.trans hcode⟩

theorem body_valid (hv : s.Valid) (hb : body i s = .ok d) : d.state.Valid := by
  have hx := fun h1 h2 => body_extends (i := i) h1 h2 hb
  cases i with
  | nop => cases hb; exact hv
  | clr => cases hb; exact ⟨nofun, fun _ => rfl, nofun, nofun⟩
  | frqclr =>
    injection hb with hb
    subst hb
    exact valid_of_same hv (hx nofun nofun) (by simp) (by simp) (by simp) (by simp)
  | mkleaf x => obtain ⟨hc, rfl⟩ := mkleafBody_ok hb; exact valid_of_same hv (hx nofun nofun) rfl rfl rfl rfl
  | hins k =>
    obtain ⟨n, hn, ho, -, -, rfl⟩ := hinsBody_ok hb
    exact valid_of_same hv (hx nofun nofun) rfl rfl rfl rfl
  | hpop => obtain ⟨h0, -, rfl⟩ := hpopBody_ok hb; exact valid_of_same hv (hx nofun nofun) rfl rfl rfl rfl
  | merge =>
    obtain ⟨t, n, ht, rfl⟩ := mergeBody_ok hb
    have hf := mergeStep_frame ht
    exact valid_of_same hv (hx nofun nofun) (by simp only; rw [hf]) (by simp only; rw [hf]) (by simp only; rw [hf])
      (by simp only; rw [hf])
  | setroot k => obtain ⟨hk, rfl⟩ := setrootBody_ok hb; exact ⟨fun _ => hk, nofun, nofun, nofun⟩
  | build =>
    obtain ⟨fs, r, -, -, hB, -, -⟩ := buildBody_built hb
    have hf := hB.frame
    refine ⟨fun _ => ?_, fun hr => ?_, fun hc => ?_, fun hc => ?_⟩
    · have h1 : d.state.root = r := by rw [hf]
      have h2 := hB.rootLast
      omega
    · rw [hf] at hr; cases hr
    · rw [hf] at hc; cases hc
    · rw [hf] at hc; cases hc
  | gencode =>
    obtain ⟨hr, t, hw, rfl⟩ := gencodeBody_ok hb
    exact ⟨hv.root, hv.noRoot, fun _ => hr, fun _ =>
      ⟨t, walkRoot_extends (s := s) (t := s.setCode t.table) (Extends.refl _) rfl hw, rfl⟩⟩
  | encode =>
    obtain ⟨-, -, codes, -, -, rfl⟩ := encodeBody_ok hb
    exact valid_of_same hv (hx nofun nofun) rfl rfl rfl rfl
  | decode =>
    obtain ⟨-, l, out, -, -, -, rfl⟩ := decodeBody_ok hb
    exact valid_of_same hv (hx nofun nofun) rfl rfl rfl rfl

theorem mem_of_same (h : s.MemOk) (h1 : t.freq = s.freq) (h2 : t.symmem = s.symmem) (h3 : t.wordmem = s.wordmem)
    (h4 : t.symcap = s.symcap) (h5 : t.wordcap = s.wordcap) : t.MemOk := by
  obtain ⟨a, b, c, e, f, g, j, k⟩ := h
  constructor <;> simpa only [h1, h2, h3, h4, h5, State.symSize, State.wordSize] using ‹_›

theorem zeroFreq_mem (h : s.MemOk) : s.zeroFreq.MemOk := by
  unfold State.zeroFreq
  have hl : (List.replicate Config.nSym 0#32).length = 256 := List.length_replicate ..
  generalize List.replicate Config.nSym 0#32 = z at *
  obtain ⟨a, b, c, e, f, g, j, k⟩ := h
  refine ⟨Memory.writeList_wf _ _ a, b, c, fun x hx => ?_, f, g, j, k⟩
  rcases Memory.mem_writeList hx with h' | h'
  · show x.1 < 256
    omega
  · exact e x h'

theorem body_mem (h : s.MemOk) (hb : body i s = .ok d) : d.state.MemOk := by
  cases i with
  | nop => cases hb; exact h
  | clr => cases hb; exact mem_of_same h rfl rfl rfl rfl rfl
  | frqclr => injection hb with hb; subst hb; exact zeroFreq_mem h
  | mkleaf x => obtain ⟨hc, rfl⟩ := mkleafBody_ok hb; exact mem_of_same h rfl rfl rfl rfl rfl
  | hins k => obtain ⟨n, hn, ho, -, -, rfl⟩ := hinsBody_ok hb; exact mem_of_same h rfl rfl rfl rfl rfl
  | hpop => obtain ⟨h0, -, rfl⟩ := hpopBody_ok hb; exact mem_of_same h rfl rfl rfl rfl rfl
  | merge =>
    obtain ⟨t, n, ht, rfl⟩ := mergeBody_ok hb
    have hf := mergeStep_frame ht
    simp only
    rw [hf]
    exact mem_of_same h rfl rfl rfl rfl rfl
  | setroot k => obtain ⟨hk, rfl⟩ := setrootBody_ok hb; exact mem_of_same h rfl rfl rfl rfl rfl
  | build =>
    obtain ⟨fs, r, -, -, hB, -, -⟩ := buildBody_built hb
    rw [hB.frame]
    exact mem_of_same h rfl rfl rfl rfl rfl
  | gencode => obtain ⟨hr, t, hw, rfl⟩ := gencodeBody_ok hb; exact mem_of_same h rfl rfl rfl rfl rfl
  | encode =>
    obtain ⟨-, -, codes, -, hs, rfl⟩ := encodeBody_ok hb
    obtain ⟨a, b, c, e, f, g, j, k⟩ := h
    refine ⟨a, b, Memory.writeList_wf _ _ c, e, f, fun x hx => ?_, j, k⟩
    rcases Memory.mem_writeList hx with h' | h'
    · rw [List.length_cons, packWords_length] at h'
      show x.1 < s.wordSize
      omega
    · exact g x h'
  | decode =>
    obtain ⟨-, l, out, -, -, hs, rfl⟩ := decodeBody_ok hb
    obtain ⟨a, b, c, e, f, g, j, k⟩ := h
    refine ⟨a, Memory.writeList_wf _ _ b, c, e, fun x hx => ?_, g, j, k⟩
    rcases Memory.mem_writeList hx with h' | h'
    · show x.1 < s.symSize
      omega
    · exact f x h'

/-- A step that writes none of what the invariants speak of but the memories keeps them. -/
theorem inv_of_same (h : s.Inv) (h1 : t.nodes = s.nodes) (h2 : t.heap = s.heap) (h3 : t.root = s.root)
    (h4 : t.rootv = s.rootv) (h5 : t.codetv = s.codetv) (h6 : t.code = s.code) (h7 : t.errcode = s.errcode)
    (hm : t.MemOk) : t.Inv :=
  ⟨by rw [h1, h2]; exact h.tree, valid_of_same h.valid (h1 ▸ Extends.refl _) h3 h4 h5 h6, hm, h7 ▸ h.err⟩

end Sys2Proof.Machine
end

