-- ==== Sys2Proof/Laws/BuildRun.lean ====
section
/-! SUPPORT. BUILD as the run of its loops (R126), what a run depends on (R128), and that its root reaches every node. -/

namespace Sys2Proof.Machine

theorem freqIs_map {s : State} {fs : List Word} (h : FreqIs s fs) :
    (List.range 256).map s.freq.read = fs.map some := by
  have hl : fs.length = 256 := h.length
  apply List.ext_getElem?
  intro k
  rw [List.getElem?_map, List.getElem?_map]
  by_cases hk : k < 256
  · have := h.entry k hk
    rw [List.getElem?_range hk]
    rw [List.getElem?_eq_getElem (by omega)] at *
    simp [this]
  · rw [List.getElem?_eq_none (by simp; omega), List.getElem?_eq_none (by omega)]; rfl

/-- BUILD on a specified frequency table (R126). -/
theorem buildBody_eq {s : State} {fs : List Word} (h : FreqIs s fs) : buildBody s =
    if fs.all (fun f => f = 0#32) then raise .emptyInput 0#32
    else if freqTotal fs > Config.maxWeight then raise .weightOverflow 0#32
    else match (s.clearTree.seedLeaves 0 fs).mergeAll (s.clearTree.seedLeaves 0 fs).hsize with
      | .error e => .error e
      | .ok t => .ok ⟨t.heapPop.setRoot t.heapMin, toWord t.heapMin, toWord t.heapPop.ncount⟩ := by
  have hr : s.readFreqs (List.range Config.nSym) = .ok fs := readFreqs_ok.2 (freqIs_map h)
  unfold buildBody
  rw [hr]
  all_goals rfl

theorem symbolCount_zero {fs : List Word} : symbolCount fs = 0 ↔ fs.all (fun f => f = 0#32) = true := by
  simp [symbolCount, List.countP_eq_zero]

/-- BUILD after the seeding steps of the symbols below `x` (R126). -/
def seedAt (s : State) (fs : List Word) (x : Nat) : State := s.seedLeaves 0 (fs.take x)

theorem seedLeaves_append (s : State) (k : Nat) (fs : List Word) (f : Word) :
    s.seedLeaves k (fs ++ [f]) = (s.seedLeaves k fs).seedLeaf (k + fs.length) f := by
  induction fs generalizing s k with
  | nil => rfl
  | cons g gs ih => simp only [List.cons_append, State.seedLeaves]; rw [ih]; congr 1; simp; omega

/-- The state after `m` merge steps (R126). -/
def loopAt (s : State) : Nat → State
  | 0 => s
  | m + 1 => (loopAt s m).merged

theorem loopAt_succ' (s : State) (m : Nat) : loopAt s (m+1) = loopAt s.merged m := by
  induction m with
  | zero => rfl
  | succ m ih => rw [loopAt, ih]; rfl

/-- The merge loop of BUILD runs HSIZE − 1 merge steps (R126). -/
theorem mergeAll_loop {k total : Nat} (hk : k ≤ 256) (ht : total ≤ Config.maxWeight) (fuel : Nat) {t : State} :
    ∀ {s : State}, BuildLoop k total s → s.hsize ≤ fuel → State.mergeAll fuel s = .ok t → 1 ≤ s.hsize →
    (∀ m, m + 1 < s.hsize →
      1 < (loopAt s m).hsize ∧ (loopAt s m).mergeStep = .ok (loopAt s (m + 1), (loopAt s m).ncount)) ∧
      loopAt s (s.hsize - 1) = t := by
  induction fuel with
  | zero => intro s h hf hm hs; omega
  | succ fuel ih =>
    intro s h hf hm hs
    rw [State.mergeAll] at hm
    by_cases h1 : s.hsize > 1
    · obtain ⟨hst, hmg, hbl⟩ := h.merged hk ht h1
      rw [if_pos h1, hst] at hm
      have hh := hmg.hsize
      obtain ⟨g1, g2⟩ := ih hbl (by omega) hm (by omega)
      refine ⟨fun m hlt => ?_, ?_⟩
      · cases m with
        | zero => exact ⟨h1, hst⟩
        | succ m => rw [loopAt_succ' s (m+1), loopAt_succ' s m]; exact g1 m (by omega)
      · rw [show s.hsize - 1 = (s.merged.hsize - 1) + 1 by omega, loopAt_succ']; exact g2
    · rw [if_neg h1] at hm; cases hm
      exact ⟨fun m hlt => by omega, by rw [show t.hsize - 1 = 0 by omega]; rfl⟩

/-- The loop's state right after the seeding (R126). -/
theorem seeded_loop (s : State) {fs : List Word} (hlen : fs.length = 256) (hne : symbolCount fs ≠ 0) :
    BuildLoop (symbolCount fs) (freqTotal fs) (s.clearTree.seedLeaves 0 fs) ∧
      (s.clearTree.seedLeaves 0 fs).hsize = symbolCount fs := by
  obtain ⟨h1, h2, h3⟩ := seedLeaves_spec (fs := fs) (k := 0) (seeding_clearTree s) (by omega) (by simp [State.ncount])
  have hcount : (s.clearTree.seedLeaves 0 fs).ncount = symbolCount fs := by
    have := congrArg List.length h2
    simpa [seedNodes_length, State.ncount, symbolCount] using this
  generalize hs0 : s.clearTree.seedLeaves 0 fs = s0 at *
  have hc := h1.count
  exact ⟨⟨h1.tree, h1.noFree, by rw [h3]; simp [heapWeight], by omega, by omega⟩, by omega⟩

/-- The leaves BUILD allocates, as rows of the frequency table (R126). -/
theorem seedRows (fs : List Word) (k : Nat) (hk : k + fs.length ≤ 256) :
    (seedNodes k fs).map (fun n => (n.kind, n.sym.toNat, n.weight)) =
      (((List.range' k fs.length).zip fs).filter (fun e => e.2 ≠ 0#32)).map (fun e => (Kind.leaf, e.1, e.2)) := by
  induction fs generalizing k with
  | nil => rfl
  | cons f fs ih =>
    simp at hk
    have ih := ih (k+1) (by omega)
    by_cases hf : f = 0#32
    · simpa [seedNodes, hf, List.range'_succ, List.filter_cons] using ih
    · simp [seedNodes, hf, List.range'_succ, leafNode]
      refine ⟨by omega, by simpa using ih⟩

/-- The seeding depends on the nodes and the heap alone. -/
theorem seedLeaves_congr (fs : List Word) (k : Nat) (s u : State) (h1 : u.nodes = s.nodes) (h2 : u.heap = s.heap) :
    (u.seedLeaves k fs).nodes = (s.seedLeaves k fs).nodes ∧ (u.seedLeaves k fs).heap = (s.seedLeaves k fs).heap := by
  induction fs generalizing k s u with
  | nil => exact ⟨h1, h2⟩
  | cons f fs ih =>
    apply ih
    · unfold State.seedLeaf; split
      · simp [State.newLeaf, State.heapInsert, h1, State.ncount]
      · exact h1
    · unfold State.seedLeaf; split
      · simp [State.newLeaf, State.heapInsert, h1, h2, State.ncount, State.W_eq]
      · exact h2

/-- A merge step depends on the nodes and the heap alone. -/
theorem mergeStep_congr {s u t : State} {n : Nat} (h1 : u.nodes = s.nodes) (h2 : u.heap = s.heap)
    (h : s.mergeStep = .ok (t, n)) : ∃ v, u.mergeStep = .ok (v, n) ∧ v.nodes = t.nodes ∧ v.heap = t.heap := by
  have e0 : u.heapReadable = s.heapReadable := by
    unfold State.heapReadable State.ncount; rw [h1, h2]
  have e1 : u.heapMin = s.heapMin := by rw [State.heapMin, State.heapMin, h2]
  have e2 : u.heapPop.nodes = s.heapPop.nodes := by simp only [State.heapPop, e1, h1]
  have e3 : u.heapPop.heap = s.heapPop.heap := by simp only [State.heapPop, State.W_eq, h1, h2]
  generalize hs1 : s.heapPop = s1 at *
  generalize hu1 : u.heapPop = u1 at *
  have e4 : u1.heapMin = s1.heapMin := by rw [State.heapMin, State.heapMin, e3]
  have e5 : u1.heapPop.nodes = s1.heapPop.nodes := by simp only [State.heapPop, e4, e2]
  have e6 : u1.heapPop.heap = s1.heapPop.heap := by simp only [State.heapPop, State.W_eq, e2, e3]
  generalize hs2 : s1.heapPop = s2 at *
  generalize hu2 : u1.heapPop = u2 at *
  have e7 : u2.W = s2.W := by rw [State.W_eq, State.W_eq, e5]
  have e8 : u2.ncount = s2.ncount := by rw [State.ncount, State.ncount, e5]
  unfold State.mergeStep at h ⊢
  simp only [State.hsize, State.ncount, h1, h2, e0, e1, hu1, e4, hu2, e7] at h ⊢
  simp only [hs1, hs2] at h
  split at h
  · cases h
  rename_i c1
  rw [if_neg c1]
  split at h
  · cases h
  rename_i c2
  rw [if_neg c2]
  split at h
  · cases h
  rename_i c3
  rw [if_neg c3]
  by_cases c4 : s2.W s.heapMin + s2.W s1.heapMin > Config.maxWeight
  · rw [if_pos c4] at h; cases h
  rw [if_neg c4] at h ⊢
  injection h with h
  injection h with ha hb
  subst ha hb
  refine ⟨_, by rw [e5], ?_, ?_⟩
  · simp only [State.heapInsert, State.newInternal, e5, e7]
  · simp only [State.heapInsert, State.newInternal, e5, e6, e7, State.W_eq]

/-- The merge loop depends on the nodes and the heap alone (R128). -/
theorem mergeAll_congr (fuel : Nat) : ∀ (s u t : State), u.nodes = s.nodes → u.heap = s.heap →
    State.mergeAll fuel s = .ok t → ∃ v, State.mergeAll fuel u = .ok v ∧ v.nodes = t.nodes ∧ v.heap = t.heap := by
  induction fuel with
  | zero => intro s u t h1 h2 h; cases h; exact ⟨u, rfl, h1, h2⟩
  | succ fuel ih =>
    intro s u t h1 h2 h
    rw [State.mergeAll] at h ⊢
    have e1 : u.hsize = s.hsize := by rw [State.hsize, State.hsize, h2]
    rw [e1]
    split at h
    · rename_i hc
      rw [if_pos hc]
      cases hs : s.mergeStep with
      | error e => rw [hs] at h; cases h
      | ok r =>
        rw [hs] at h
        obtain ⟨u', g1, g2, g3⟩ := mergeStep_congr (n := r.2) (t := r.1) h1 h2 hs
        rw [g1]
        exact ih _ _ _ g2 g3 h
    · rename_i hc
      rw [if_neg hc]
      cases h
      exact ⟨u, rfl, h1, h2⟩

/-- BUILD's root reaches every node (R127). -/
theorem Built.reach {fs : List Word} {s t : State} {r : Nat} (hb : Built fs s t r) (i : Nat)
    (hi : i < t.nodes.length) : ∃ p, follow t.nodes r p = some i := by
  have hr := hb.rootLast
  suffices ∀ d i, i + d + 1 = t.nodes.length → ∃ p, follow t.nodes r p = some i from this (t.nodes.length - 1 - i) i (by omega)
  intro d
  induction d using Nat.strongRecOn with
  | _ d ih =>
    intro i hi
    by_cases hir : i = r
    · subst hir; exact ⟨[], by rw [follow_nil, if_pos (by omega)]⟩
    · have hn := List.getElem?_eq_getElem (l := t.nodes) (i := i) (by omega)
      have ho := hb.others i _ hn hir
      obtain ⟨p, hp, -⟩ := hb.tree.owned.one i _ hn ho
      obtain ⟨m, hm, hk, hc⟩ := hp
      have hbel := hb.tree.owned.below p m hm hk
      have hpl := lt_length_of_getElem? hm
      obtain ⟨q, hq⟩ := ih (t.nodes.length - 1 - p) (by rcases hc with rfl | rfl <;> omega) p (by omega)
      rcases hc with rfl | rfl
      · refine ⟨q ++ [false], ?_⟩
        rw [follow_append, hq]; simp only [Option.bind_some]; rw [follow_cons hm hk]
        simp only [Bool.false_eq_true, if_false]; rw [follow_nil, if_pos (by omega)]
      · refine ⟨q ++ [true], ?_⟩
        rw [follow_append, hq]; simp only [Option.bind_some]; rw [follow_cons hm hk]
        simp only [if_true]; rw [follow_nil, if_pos (by omega)]

end Sys2Proof.Machine
end

