-- ==== Sys2Proof/Laws/Codes.lean ====
section
/-! SUPPORT. Leaves and the codes of the table (R140), and the stream of a coded text (R151, R156). -/

namespace Sys2Proof.Machine

variable {nodes : List Node} {n : Nat} {p : List Bool} {x y : Sym}

/-- One path leads to one leaf. -/
theorem leafAt_sym (hx : LeafAt nodes n p x) (hy : LeafAt nodes n p y) : x = y := by
  obtain ⟨i, m, h1, h2, -, rfl⟩ := hx
  obtain ⟨j, k, h3, h4, -, rfl⟩ := hy
  rw [h1] at h3; cases h3; rw [h2] at h4; cases h4; rfl

theorem firstDuplicate_unique (hx : FirstDuplicate nodes n x) (hy : FirstDuplicate nodes n y) : x = y := by
  obtain ⟨q, a1, ⟨q', a2, a3⟩, a4⟩ := hx.found
  obtain ⟨r, b1, ⟨r', b2, b3⟩, b4⟩ := hy.found
  by_cases h : q < r
  · exact absurd (b4 q q' x h (List.lt_trans a2 h) a1 a3) (by rintro rfl; exact List.lt_irrefl _ a2)
  · by_cases h' : r < q
    · exact absurd (a4 r r' y h' (List.lt_trans b2 h') b1 b3) (by rintro rfl; exact List.lt_irrefl _ b2)
    · have : q = r := List.le_antisymm (List.not_lt.1 h') (List.not_lt.1 h)
      subst this; exact leafAt_sym a1 b1

/-- Below every node there is a leaf. -/
theorem exists_leaf {heap : List Nat} (h : Owned nodes heap) (n : Nat) (hn : n < nodes.length) :
    ∃ p x, LeafAt nodes n p x := by
  induction n using Nat.strongRecOn with
  | _ n ih =>
    have hm := List.getElem?_eq_getElem hn
    cases hk : nodes[n].kind with
    | leaf => exact ⟨[], nodes[n].sym, (leafAt_of_leaf hm hk).2 ⟨rfl, rfl⟩⟩
    | internal =>
      obtain ⟨h1, -, -⟩ := h.below n _ hm hk
      obtain ⟨p, x, hp⟩ := ih _ h1 (by omega)
      exact ⟨false :: p, x, (leafAt_cons hm hk).2 (by simpa using hp)⟩

/-- A code in the table is the path to its symbol's leaf (R141). -/
theorem table_code {s : State} {t : WalkState} (h : s.walkRoot = .ok t) (he : t.table[x.toNat]? = some (codeOf p)) :
    LeafAt s.nodes s.root p x := by
  obtain ⟨-, h1, h2, -⟩ := walkRoot_table h
  by_cases hx : ∃ q, LeafAt s.nodes s.root q x
  · obtain ⟨q, hq⟩ := hx
    have := h1 q x hq
    rw [he] at this; simp [codeOf] at this; rw [this]; exact hq
  · have := h2 x (fun q hq => hx ⟨q, hq⟩)
    rw [he] at this; simp [codeOf, noCode] at this

theorem codesAre_map {s : State} {xs : List Sym} {codes : List (List Bool)} (h : CodesAre s xs codes) :
    xs.map (fun x => s.code[x.toNat]?) = codes.map (fun p => some (codeOf p)) := by
  induction h with
  | nil => rfl
  | cons hx _ ih => simp [ih, hx, codeOf]

/-- DECODE of a stream that is the codes of `xs` emits `xs` (R155, R156). -/
theorem decode_stream {s : State} {m : Node} {l : Word} {xs : List Sym} {codes : List (List Bool)}
    (hr : s.rootv = true) (hn : s.nodes[s.root]? = some m) (hk : m.kind = .internal)
    (hf : List.Forall₂ (fun x p => LeafAt s.nodes s.root p x) xs codes) (hl : l.toNat = codes.flatten.length) (hne : l.toNat ≠ 0)
    (ha : s.arg0.toNat + (l.toNat + 31) / 32 < s.wordSize) (hst : StreamIs s s.arg0.toNat codes.flatten) :
    s.decodeOut s.opArg0 l.toNat s.opArg1 = .ok xs := by
  unfold State.decodeOut
  rw [if_neg hne]
  unfold State.streamOut
  rw [if_neg (by simp [hr]), if_neg (by simp [State.opArg0, streamWords]; omega)]
  have hen : s.engineNode s.root = .ok m := by simp [State.engineNode, specified, hn]
  rw [hen]
  show (match m.kind with | .leaf => raise .badStream 0#32 | .internal => _) = _
  rw [hk]
  simp only
  have := traverse_eq hst
  have h2 := traverseBits_codes hn hk hf [] 0 [] 0 rfl
  rw [List.append_nil] at h2
  rw [h2] at this
  rw [hl, State.opArg0, this]
  show (if _ ≠ _ then _ else _) = _
  simp

theorem engineWord_some {s : State} {k : Nat} {v : Word} (h : s.wordmem.read k = some v) : s.engineWord k = .ok v := by
  simp only [State.engineWord, h, specified]

theorem engineNode_some {s : State} {k : Nat} {v : Node} (h : s.nodes[k]? = some v) : s.engineNode k = .ok v := by
  simp only [State.engineNode, h, specified]

/-- DECODE with its length word read (R155). -/
theorem decodeBody_eq {s : State} {l : Word} (h : s.arg0.toNat < s.wordSize)
    (hl : s.wordmem.read s.arg0.toNat = some l) :
    body .decode s = match s.decodeOut s.arg0.toNat l.toNat s.arg1.toNat with
      | .error e => .error e
      | .ok out => if s.arg2.toNat + out.length > s.symSize then raise .badAddress 2#32
        else .ok ⟨s.storeSyms s.arg2.toNat out, toWord out.length, l⟩ := by
  simp only [body, decodeBody]
  rw [if_neg (show ¬ s.opArg0 ≥ s.wordSize from Nat.not_le.2 h), State.opArg0, engineWord_some hl]
  rfl

/-- DECODE of a stream under an internal ROOT, past its checks (R155). -/
theorem decodeOut_internal {s : State} {m : Node} {a l rep : Nat} (hl : l ≠ 0) (hr : s.rootv = true)
    (ha : a + (l + 31) / 32 < s.wordSize) (hn : s.nodes[s.root]? = some m) (hk : m.kind = .internal) :
    s.decodeOut a l rep = (s.traverseFrom a l 0 { cur := s.root, out := [], start := 0 }).bind fun c =>
      if c.start ≠ l then raise .badStream (toWord c.start) else .ok c.out := by
  unfold State.decodeOut State.streamOut State.traverse
  rw [if_neg hl, if_neg (by simp [hr]), if_neg (by simp only [streamWords]; omega), engineNode_some hn]
  simp only [bind, Except.bind, hk]

/-- The bound of R6 on the bits an ENCODE produces. -/
theorem encode_bound {s : State} (hI : s.Inv) {xs : List Sym} {codes : List (List Bool)}
    (hn : xs.length = s.arg1.toNat) (hc : ¬ (s.opArg1 > 0 ∧ s.codetv = false))
    (h2 : ¬ (s.opArg1 > 0 ∧ s.opArg0 + s.opArg1 > s.symSize))
    (h : List.Forall₂ (fun x p => s.code[x.toNat]? = some (codeOf p)) xs codes) :
    codes.flatten.length ≤ 16711680 := by
  by_cases h0 : s.opArg1 > 0
  · have hcv : s.codetv = true := by simpa [h0] using hc
    obtain ⟨t, hw, hcode⟩ := hI.valid.table hcv
    have hp : ∀ p ∈ codes, p.length ≤ 255 := by
      intro p hp
      have hx : ∀ (xs : List Sym) (codes : List (List Bool)),
          List.Forall₂ (fun x p => s.code[x.toNat]? = some (codeOf p)) xs codes → p ∈ codes →
          ∃ x : Sym, s.code[x.toNat]? = some (codeOf p) := by
        intro xs codes h
        induction h with
        | nil => intro h; cases h
        | cons hx _ ih =>
          intro hm
          rcases List.mem_cons.1 hm with rfl | hm
          · exact ⟨_, hx⟩
          · exact ih hm
      obtain ⟨x, hx⟩ := hx _ _ h hp
      rw [hcode] at hx
      obtain ⟨j, m, hf, -⟩ := table_code hw hx
      exact hI.tree.owned.depth_le hf
    have hl : codes.length = xs.length := h.length_eq.symm
    have : codes.flatten.length ≤ 255 * codes.length := by
      clear h hl
      induction codes with
      | nil => simp
      | cons p ps ih =>
        have := ih (fun q hq => hp q (by simp [hq]))
        have := hp p (by simp)
        simp only [List.flatten_cons, List.length_append, List.length_cons]; omega
    have := hI.mem.symRange.2
    simp only [State.opArg0, State.opArg1] at h2 h0
    omega
  · have : xs = [] := List.length_eq_zero_iff.1 (by simp only [State.opArg1] at h0; omega)
    subst this; cases h; simp

end Sys2Proof.Machine
end

