-- ==== Sys2Proof/Laws/Decode.lean ====
section
/-! SUPPORT. The fields of a command word as numbers, and what the engine does with a word (R80 to R87). -/

namespace Sys2Proof

theorem opField_toNat (c : Word) : (opField c).toNat = c.toNat % 2 ^ 8 := by
  simp [opField, BitVec.extractLsb'_toNat]

theorem symField_eq (c : Word) : symField c = BitVec.ofNat 8 (c.toNat / 2 ^ 8) := by
  apply BitVec.eq_of_toNat_eq
  simp [symField, BitVec.extractLsb'_toNat, Nat.shiftRight_eq_div_pow]

theorem idxField_eq (c : Word) : idxField c = c.toNat / 2 ^ 8 % 2 ^ 9 := by
  simp [idxField, BitVec.extractLsb'_toNat, Nat.shiftRight_eq_div_pow]

theorem rsvF0_eq_zero (c : Word) : rsvF0 c = 0 ↔ c.toNat / 2 ^ 8 = 0 := by
  have hc := c.isLt
  rw [← BitVec.toNat_inj]
  simp [rsvF0, BitVec.extractLsb'_toNat, Nat.shiftRight_eq_div_pow]
  omega

theorem rsvFS_eq_zero (c : Word) : rsvFS c = 0 ↔ c.toNat / 2 ^ 16 = 0 := by
  have hc := c.isLt
  rw [← BitVec.toNat_inj]
  simp [rsvFS, BitVec.extractLsb'_toNat, Nat.shiftRight_eq_div_pow]
  omega

theorem rsvFN_eq_zero (c : Word) : rsvFN c = 0 ↔ c.toNat / 2 ^ 17 = 0 := by
  have hc := c.isLt
  rw [← BitVec.toNat_inj]
  simp [rsvFN, BitVec.extractLsb'_toNat, Nat.shiftRight_eq_div_pow]
  omega

theorem encodeF0_toNat (op : BitVec 8) : (encodeF0 op).toNat = op.toNat := by
  rw [encodeF0, BitVec.toNat_append]
  simp

theorem encodeFS_toNat (op : BitVec 8) (x : Sym) : (encodeFS op x).toNat = x.toNat * 2 ^ 8 + op.toNat := by
  have hx := x.isLt
  have ho := op.isLt
  simp only [encodeFS, BitVec.toNat_append, BitVec.toNat_ofNat, Nat.zero_mod, Nat.zero_shiftLeft, Nat.zero_or]
  rw [Nat.shiftLeft_eq, Nat.mul_comm, ← Nat.two_pow_add_eq_or_of_lt ho]

theorem encodeFN_toNat (op : BitVec 8) (k : Nat) : (encodeFN op k).toNat = k % 2 ^ 9 * 2 ^ 8 + op.toNat := by
  have ho := op.isLt
  simp only [encodeFN, BitVec.toNat_append, BitVec.toNat_ofNat, Nat.zero_mod, Nat.zero_shiftLeft, Nat.zero_or]
  rw [Nat.shiftLeft_eq, Nat.mul_comm, ← Nat.two_pow_add_eq_or_of_lt ho]

namespace Machine

/-- While BUSY = 1 the engine's turn runs a word that decodes. -/
theorem engineTurn_of_ok {s : State} {i : Instr} (hb : s.busy = true) (h : decode s.cmd = .ok i) :
    engineTurn s = exec i s := by
  rw [engineTurn, if_pos hb, engineStep, h]

/-- While BUSY = 1 the engine's turn turns an illegal word away. -/
theorem engineTurn_of_error {s : State} {r : Reject} (hb : s.busy = true) (h : decode s.cmd = .error r) :
    engineTurn s = .next (s.completeError .illegalCommand s.cmd) := by
  rw [engineTurn, if_pos hb, engineStep, h]

theorem engineTurn_idle {s : State} (hb : s.busy = false) : engineTurn s = .next s := by
  rw [engineTurn, if_neg (by simp [hb])]

theorem selects_of {c : Word} {i : Instr} (h : decode c = .ok i) : Selects c i := by
  rintro s hb rfl; exact engineTurn_of_ok hb h

theorem illegal_of {c : Word} {r : Reject} (h : decode c = .error r) : IllegalWord c := by
  rintro s hb rfl; exact engineTurn_of_error hb h

/-- The words of an opcode that the decoder reads in format F0. -/
theorem formatF0_of {op : Nat} {i : Instr} (h : ∀ c : Word, (opField c).toNat = op → decode c = decodeF0 c i) :
    FormatF0 op i := by
  intro c hc
  have hd := h c (opField_toNat c ▸ hc)
  split
  · rename_i hz; exact selects_of (hd.trans (by rw [decodeF0, if_pos ((rsvF0_eq_zero c).2 hz)]))
  · rename_i hz; exact illegal_of (hd.trans (by rw [decodeF0, if_neg (fun h => hz ((rsvF0_eq_zero c).1 h))]))

/-- The words of an opcode that the decoder reads in format FS. -/
theorem formatFS_of {op : Nat} {i : Sym → Instr} (h : ∀ c : Word, (opField c).toNat = op → decode c = decodeFS c i) :
    FormatFS op i := by
  intro c hc
  have hd := h c (opField_toNat c ▸ hc)
  split
  · rename_i hz; exact selects_of (hd.trans (by rw [decodeFS, if_pos ((rsvFS_eq_zero c).2 hz), symField_eq]))
  · rename_i hz; exact illegal_of (hd.trans (by rw [decodeFS, if_neg (fun h => hz ((rsvFS_eq_zero c).1 h))]))

/-- The words of an opcode that the decoder reads in format FN. -/
theorem formatFN_of {op : Nat} {i : Nat → Instr} (h : ∀ c : Word, (opField c).toNat = op → decode c = decodeFN c i) :
    FormatFN op i := by
  intro c hc
  have hd := h c (opField_toNat c ▸ hc)
  split
  · rename_i hz
    exact selects_of (hd.trans (by
      rw [decodeFN, if_pos ((rsvFN_eq_zero c).2 hz), idxField_eq, Nat.mod_eq_of_lt (by omega)]))
  · rename_i hz; exact illegal_of (hd.trans (by rw [decodeFN, if_neg (fun h => hz ((rsvFN_eq_zero c).1 h))]))

end Machine

end Sys2Proof
end

