-- ==== Sys2Proof/Laws/Errors.lean ====
section
/-! SUPPORT. Which error kinds the loops inside the command bodies can raise (R180). -/

namespace Sys2Proof.Machine

theorem walk_error {s : State} {fuel n : Nat} {path : List Bool} {t : WalkState} {e : ErrorKind} {info : Word}
    (h : walk s fuel n path t = .error (.raise e info)) : e = .invalidTree := by
  induction fuel generalizing n path t with
  | zero => cases h
  | succ fuel ih =>
    rw [walk] at h
    split at h
    · rename_i e' he
      unfold State.engineNode specified at he
      split at he <;> cases he
      cases h
    · split at h
      · unfold WalkState.addLeaf at h
        split at h
        · cases h; rfl
        · cases h
      · split at h
        · rename_i he; cases h; exact ih he
        · exact ih h

theorem build_error {s : State} {e : ErrorKind} {info : Word} (h : buildBody s = .error (.raise e info)) :
    (e = .emptyInput ∨ e = .weightOverflow) := by
  unfold buildBody at h
  split at h
  · rename_i e' he
    obtain ⟨k, -, -, rfl⟩ := readFreqs_error he
    cases h
  · rename_i fs hfs
    have hr := readFreqs_ok.1 hfs
    have hlen : fs.length = 256 := by simpa using (congrArg List.length hr).symm
    split at h
    · cases h; exact .inl rfl
    · rename_i ha
      split at h
      · cases h; exact .inr rfl
      · rename_i ht
        obtain ⟨t, hm, -⟩ := build_spec (s := s) hlen (by simpa using ha) (by omega)
        simp only [hm] at h
        cases h

theorem engineNode_error {s : State} {i : Nat} {e : ErrorKind} {info : Word} :
    s.engineNode i ≠ .error (.raise e info) := by
  unfold State.engineNode specified; split <;> exact nofun

theorem engineWord_error {s : State} {i : Nat} {e : ErrorKind} {info : Word} :
    s.engineWord i ≠ .error (.raise e info) := by
  unfold State.engineWord specified; split <;> exact nofun

theorem traverseFrom_error {s : State} {a n p : Nat} {c : Cursor} {e : ErrorKind} {info : Word} :
    s.traverseFrom a n p c ≠ .error (.raise e info) := by
  induction n generalizing p c with
  | zero => exact nofun
  | succ n ih =>
    intro h
    rw [State.traverseFrom] at h
    cases hb : s.streamBit a p with
    | error x =>
      rw [hb] at h; cases h
      unfold State.streamBit at hb
      cases hw : s.engineWord (a + 1 + p / 32) with
      | error y => rw [hw] at hb; cases hb; exact engineWord_error hw
      | ok v => rw [hw] at hb; cases hb
    | ok b =>
      rw [hb] at h
      change (do let c' ← s.descend p b c; s.traverseFrom a n (p+1) c') = _ at h
      cases hd : s.descend p b c with
      | error x =>
        rw [hd] at h; cases h
        unfold State.descend at hd
        cases h1 : s.engineNode c.cur with
        | error y => rw [h1] at hd; cases hd; exact engineNode_error h1
        | ok nd =>
          rw [h1] at hd
          change (do let ch ← s.engineNode (if b then nd.right else nd.left); _) = _ at hd
          cases h2 : s.engineNode (if b then nd.right else nd.left) with
          | error y => rw [h2] at hd; cases hd; exact engineNode_error h2
          | ok ch =>
            rw [h2] at hd
            change (match ch.kind with | .leaf => _ | .internal => _) = _ at hd
            split at hd <;> cases hd
      | ok c' => rw [hd] at h; exact ih h

theorem decodeOut_error {s : State} {a l rep : Nat} {e : ErrorKind} {info : Word}
    (h : s.decodeOut a l rep = .error (.raise e info)) :
    e = .invalidTree ∨ e = .badAddress ∨ e = .badStream := by
  unfold State.decodeOut at h
  split at h
  · unfold State.emptyStreamOut at h
    split at h
    · cases h
    · cases h1 : s.engineNode s.root with
      | error y => rw [h1] at h; cases h; exact absurd h1 engineNode_error
      | ok nd =>
        rw [h1] at h
        change (match nd.kind with | .leaf => _ | .internal => _) = _ at h
        split at h <;> cases h
  · unfold State.streamOut at h
    split at h
    · cases h; simp
    · split at h
      · cases h; simp
      · cases h1 : s.engineNode s.root with
        | error y => rw [h1] at h; cases h; exact absurd h1 engineNode_error
        | ok nd =>
          rw [h1] at h
          change (match nd.kind with | .leaf => _ | .internal => _) = _ at h
          split at h
          · cases h; simp
          · unfold State.traverse at h
            cases h2 : s.traverseFrom a l 0 { cur := s.root, out := [], start := 0 } with
            | error y => rw [h2] at h; cases h; exact absurd h2 traverseFrom_error
            | ok c =>
              rw [h2] at h
              change (if c.start ≠ l then _ else _) = _ at h
              split at h <;> cases h
              simp

end Sys2Proof.Machine
end

