-- ==== Sys2Proof/Laws/Faults.lean ====
section
/-! SUPPORT. Which model faults a command body can end in, from a sound state (R66, R189, R211). -/

namespace Sys2Proof.Machine

variable {s : State} {i : Instr} {f : Fault}

/-! ### DECODE's traversal -/

theorem traverseFrom_add (a n1 n2 p : Nat) (c : Cursor) :
    s.traverseFrom a (n1 + n2) p c = (s.traverseFrom a n1 p c).bind (fun c' => s.traverseFrom a n2 (p + n1) c') := by
  induction n1 generalizing p c with
  | zero => simp [State.traverseFrom, Except.bind]
  | succ n ih =>
    rw [show n + 1 + n2 = (n + n2) + 1 by omega]
    simp only [State.traverseFrom, bind, Except.bind]
    cases s.streamBit a p with
    | error e => rfl
    | ok b =>
      dsimp only
      cases s.descend p b c with
      | error e => rfl
      | ok c' =>
        dsimp only
        rw [ih, show p + 1 + n = p + (n + 1) by omega]
        rfl

/-- A step from an internal node of a sound tree leads to a node, and the traversal's node stays internal (R156, U9). -/
theorem descend_total (ho : Owned s.nodes s.heap) {mr : Node} (hr : s.nodes[s.root]? = some mr)
    (hkr : mr.kind = .internal) {p : Nat} {b : Bool} {c : Cursor} {m : Node} (hc : s.nodes[c.cur]? = some m)
    (hk : m.kind = .internal) :
    ∃ c' m', s.descend p b c = .ok c' ∧ s.nodes[c'.cur]? = some m' ∧ m'.kind = .internal := by
  have hlt := ho.children_lt _ m hc hk
  obtain ⟨ch, hch⟩ : ∃ ch, s.nodes[if b then m.right else m.left]? = some ch :=
    ⟨_, List.getElem?_eq_getElem (by cases b <;> simp [hlt])⟩
  rw [descend_eq hc hch]
  cases hck : ch.kind with
  | leaf => exact ⟨_, mr, rfl, hr, hkr⟩
  | internal => exact ⟨_, ch, rfl, hch, hck⟩

/-- The traversal of a sound tree ends, or stops at the first payload word that has no contents (R66, R156). -/
theorem traverseFrom_cases (ho : Owned s.nodes s.heap) {mr : Node} (hr : s.nodes[s.root]? = some mr)
    (hkr : mr.kind = .internal) (a n p : Nat) {c : Cursor} {m : Node} (hc : s.nodes[c.cur]? = some m)
    (hk : m.kind = .internal) :
    (∃ c', s.traverseFrom a n p c = .ok c') ∨
      ∃ q, p ≤ q ∧ q < p + n ∧ s.wordmem.read (a + 1 + q / 32) = none ∧
        s.traverseFrom a n p c = .error (.fault (.unspecifiedRead .wordmem (a + 1 + q / 32))) := by
  induction n generalizing p c m with
  | zero => exact .inl ⟨c, rfl⟩
  | succ n ih =>
    simp only [State.traverseFrom, State.streamBit, State.engineWord, bind, Except.bind]
    cases hw : s.wordmem.read (a + 1 + p / 32) with
    | none => exact .inr ⟨p, Nat.le_refl _, by omega, hw, rfl⟩
    | some v =>
      simp only [specified, Except.map]
      obtain ⟨c', m', hd, hc', hk'⟩ := descend_total ho hr hkr (p := p) (b := v.getLsbD (31 - p % 32)) hc hk
      rw [hd]
      dsimp only
      rcases ih (p + 1) hc' hk' with h | ⟨q, h1, h2, h3, h4⟩
      · exact .inl h
      · exact .inr ⟨q, by omega, by omega, h3, h4⟩

/-- The symbols of a stream in a sound state: some outcome, or the first payload word without contents (R155). -/
theorem decodeOut_fault (ho : Owned s.nodes s.heap) (hroot : s.rootv = true → s.root < s.ncount) {a l rep : Nat}
    (h : s.decodeOut a l rep = .error (.fault f)) :
    a + streamWords l < s.wordSize ∧ ∃ m, m < streamWords l ∧ s.wordmem.read (a + 1 + m) = none ∧
      f = .unspecifiedRead .wordmem (a + 1 + m) := by
  have hnode : s.rootv = true → ∃ n, s.nodes[s.root]? = some n := fun hr =>
    ⟨_, List.getElem?_eq_getElem (hroot hr)⟩
  unfold State.decodeOut at h
  split at h
  · unfold State.emptyStreamOut at h
    split at h
    · cases h
    · rename_i hr
      obtain ⟨n, hn⟩ := hnode (by simpa using hr)
      simp only [State.engineNode, hn, specified, bind, Except.bind] at h
      cases hk : n.kind <;> rw [hk] at h <;> cases h
  · unfold State.streamOut at h
    split at h
    · cases h
    · rename_i hr
      split at h
      · cases h
      · rename_i ha
        obtain ⟨n, hn⟩ := hnode (by simpa using hr)
        simp only [State.engineNode, hn, specified, bind, Except.bind, State.traverse] at h
        cases hk : n.kind with
        | leaf => rw [hk] at h; cases h
        | internal =>
          simp only [hk] at h
          rcases traverseFrom_cases ho hn hk a l 0 (c := { cur := s.root, out := [], start := 0 }) hn hk with
            ⟨c', hc⟩ | ⟨q, -, h2, h3, h4⟩
          · rw [hc] at h
            dsimp only at h
            split at h <;> cases h
          · rw [h4] at h
            refine ⟨by omega, q / 32, by unfold streamWords; omega, h3, ?_⟩
            injection h with h
            injection h with h
            exact h.symm

/-! ### The commands -/

/-- Why a command stops with a model fault in a sound state: BUILD, ENCODE and DECODE, by the input they read. -/
theorem body_fault (h : s.Inv) (hb : body i s = .error (.fault f)) :
    (i = .build ∧ ∃ k, k < 256 ∧ s.freq.read k = none ∧ f = .unspecifiedRead .freq k) ∨
      (i = .encode ∧ ∃ j, j < s.arg1.toNat ∧ s.arg0.toNat + s.arg1.toNat ≤ s.symSize ∧
        s.symmem.read (s.arg0.toNat + j) = none ∧ f = .unspecifiedRead .symmem (s.arg0.toNat + j)) ∨
      (i = .decode ∧ s.arg0.toNat < s.wordSize ∧
        ((s.wordmem.read s.arg0.toNat = none ∧ f = .unspecifiedRead .wordmem s.arg0.toNat) ∨
          ∃ l m, s.wordmem.read s.arg0.toNat = some l ∧ m < (l.toNat + 31) / 32 ∧
            s.arg0.toNat + (l.toNat + 31) / 32 < s.wordSize ∧ s.wordmem.read (s.arg0.toNat + 1 + m) = none ∧
            f = .unspecifiedRead .wordmem (s.arg0.toNat + 1 + m))) := by
  have ho := h.tree.owned
  cases i with
  | nop => cases hb
  | clr => cases hb
  | frqclr => exact nomatch hb
  | mkleaf x =>
    simp only [body, mkleafBody] at hb
    split at hb <;> cases hb
  | hins k =>
    simp only [body, hinsBody] at hb
    split at hb
    · cases hb
    · rename_i n hn
      split at hb
      · cases hb
      · rename_i hf
        have hlt := ho.hsize_lt hn (Decidable.of_not_not hf)
        have hcap : s.ncount ≤ 511 := ho.cap
        rw [if_neg (show ¬ s.hsize ≥ Config.heapCap from by
          have h1 : s.hsize < s.ncount := hlt
          rw [Config.heapCap_eq]
          omega), if_pos ho.readable] at hb
        cases hb
  | hpop =>
    simp only [body, hpopBody] at hb
    split at hb
    · cases hb
    · rw [if_pos ho.readable] at hb
      cases hb
  | merge =>
    simp only [body, mergeBody] at hb
    rw [mergeStep_eq ho] at hb
    split at hb
    · rename_i e he
      split at he
      · cases he; cases hb
      · split at he
        · cases he; cases hb
        · split at he
          · cases he; cases hb
          · cases he
    · cases hb
  | setroot k =>
    simp only [body, setrootBody] at hb
    split at hb <;> cases hb
  | build =>
    refine .inl ⟨rfl, ?_⟩
    simp only [body, buildBody] at hb
    split at hb
    · rename_i e he
      obtain ⟨k, hk, h1, rfl⟩ := readFreqs_error he
      cases hb
      exact ⟨k, List.mem_range.1 hk, h1, rfl⟩
    · rename_i fs hfs
      have hr := readFreqs_ok.1 hfs
      have hlen : fs.length = 256 := by simpa using (congrArg List.length hr).symm
      split at hb
      · cases hb
      · rename_i ha
        split at hb
        · cases hb
        · rename_i ht
          obtain ⟨t, hm, -⟩ := build_spec (s := s) hlen (by simpa using ha) (by omega)
          simp only [hm] at hb
          cases hb
  | gencode =>
    simp only [body, gencodeBody] at hb
    split at hb
    · cases hb
    · rename_i hr
      rcases walkRoot_total ho (h.valid.root (by simpa using hr)) with ⟨t, hw⟩ | ⟨x, hw, -⟩ <;> rw [hw] at hb <;> cases hb
  | encode =>
    refine .inr (.inl ⟨rfl, ?_⟩)
    simp only [body, encodeBody] at hb
    split at hb
    · cases hb
    · rename_i h1
      split at hb
      · cases hb
      · rename_i h2
        split at hb
        · rename_i e he
          injection hb with hb
          subst hb
          rcases gatherCodes_error he with ⟨j, -, hj⟩ | ⟨j, hj, hr, hj'⟩ | ⟨x, hx, -⟩
          · cases hj
          · injection hj' with hj'
            rw [Nat.add_zero] at hr hj'
            have hj0 : j < s.arg1.toNat := hj
            refine ⟨j, hj0, ?_, hr, hj'⟩
            simp only [State.opArg0, State.opArg1] at h2
            omega
          · exfalso
            by_cases h0 : s.opArg1 > 0
            · have hcv : s.codetv = true := by simpa [h0] using h1
              obtain ⟨t, hw, hcode⟩ := h.valid.table hcv
              have hlen := (walkRoot_table hw).1
              rw [hcode, List.getElem?_eq_none_iff, hlen] at hx
              have := x.isLt
              omega
            · rw [show s.opArg1 = 0 by omega] at he
              cases he
        · split at hb <;> cases hb
  | decode =>
    refine .inr (.inr ⟨rfl, ?_⟩)
    simp only [body, decodeBody] at hb
    split at hb
    · cases hb
    · rename_i ha
      refine ⟨by simpa [State.opArg0] using ha, ?_⟩
      cases hw : s.wordmem.read s.arg0.toNat with
      | none =>
        have he : s.engineWord s.opArg0 = unspecified .wordmem s.opArg0 := by
          simp only [State.engineWord, State.opArg0, hw, specified]
        rw [he] at hb
        cases hb
        exact .inl ⟨rfl, rfl⟩
      | some l =>
        have he : s.engineWord s.opArg0 = .ok l := by simp only [State.engineWord, State.opArg0, hw, specified]
        rw [he] at hb
        dsimp only at hb
        split at hb
        · rename_i e hd
          injection hb with hb
          subst hb
          obtain ⟨h1, m, h2, h3, h4⟩ := decodeOut_fault ho h.valid.root hd
          exact .inr ⟨l, m, rfl, h2, h1, h3, h4⟩
        · split at hb <;> cases hb

end Sys2Proof.Machine
end

