-- ==== Sys2Proof/Laws/Overlay.lean ====
section
/-! SUPPORT. The engine reads only the operands, the tree and the memories: laying other host-visible registers over the
start state lays them over the end state and changes nothing else (R36, R73, R213). -/

namespace Sys2Proof.Machine

/-- `s` with the registers of `h` that no command reads. -/
def State.withHost (s h : State) : State :=
  { s with
    ie := h.ie, busy := h.busy, done := h.done, haz := h.haz, cmd := h.cmd, result := h.result, result1 := h.result1,
    errcode := h.errcode, errinfo := h.errinfo, rdata := h.rdata, draws := h.draws, turns := h.turns }

variable (s h : State)

theorem withHost_self : s.withHost s = s := rfl

theorem readFreqs_withHost (ks : List Nat) : (s.withHost h).readFreqs ks = s.readFreqs ks := by
  induction ks with
  | nil => rfl
  | cons k ks ih => rw [State.readFreqs, ih]; rfl

theorem seedLeaves_withHost (fs : List Word) (k : Nat) (s : State) :
    (s.withHost h).seedLeaves k fs = (s.seedLeaves k fs).withHost h := by
  induction fs generalizing k s with
  | nil => rfl
  | cons f fs ih =>
    rw [State.seedLeaves, State.seedLeaves, ← ih]
    congr 1
    by_cases hf : f ≠ 0#32
    · simp only [State.seedLeaf, if_pos hf]; rfl
    · simp only [State.seedLeaf, if_neg hf]

theorem mergeStep_withHost : (s.withHost h).mergeStep = s.mergeStep.map fun r => (r.1.withHost h, r.2) := by
  unfold State.mergeStep
  show (if s.hsize < 2 then _ else _) = _
  split
  · rfl
  · show (if s.ncount = Config.nodeCap then _ else _) = _
    split
    · rfl
    · show (if s.heapReadable = false then _ else _) = _
      split
      · rfl
      · show (if s.heapPop.heapPop.W s.heapMin + s.heapPop.heapPop.W s.heapPop.heapMin > Config.maxWeight then _ else _) = _
        simp only
        split <;> rfl

theorem mergeAll_withHost (fuel : Nat) (s : State) :
    (s.withHost h).mergeAll fuel = (s.mergeAll fuel).map fun t => t.withHost h := by
  induction fuel generalizing s with
  | zero => rfl
  | succ fuel ih =>
    rw [State.mergeAll, State.mergeAll, mergeStep_withHost]
    show (if s.hsize > 1 then _ else _) = _
    split
    · cases s.mergeStep with
      | error e => rfl
      | ok r => exact ih r.1
    · rfl

theorem walk_withHost (fuel n : Nat) (path : List Bool) (t : WalkState) :
    walk (s.withHost h) fuel n path t = walk s fuel n path t := by
  induction fuel generalizing n path t with
  | zero => rfl
  | succ fuel ih =>
    rw [walk, walk]
    show (match s.engineNode n with | .error e => _ | .ok nd => _) = _
    simp only [ih]
    all_goals rfl

theorem gatherCodes_withHost (a n k : Nat) : (s.withHost h).gatherCodes a n k = s.gatherCodes a n k := by
  induction n generalizing k with
  | zero => rfl
  | succ n ih => rw [State.gatherCodes, State.gatherCodes, ih]; rfl

theorem traverseFrom_withHost (a n p : Nat) (c : Cursor) :
    (s.withHost h).traverseFrom a n p c = s.traverseFrom a n p c := by
  induction n generalizing p c with
  | zero => rfl
  | succ n ih => rw [State.traverseFrom, State.traverseFrom]; simp only [ih]; rfl

theorem decodeOut_withHost (a l rep : Nat) : (s.withHost h).decodeOut a l rep = s.decodeOut a l rep := by
  unfold State.decodeOut State.emptyStreamOut State.streamOut State.traverse
  simp only [traverseFrom_withHost]
  rfl

/-- A body's end with the host registers of `h` laid over its state. -/
def Done.withHost (d : Done) (h : State) : Done := { d with state := d.state.withHost h }

/-- No command reads the registers `withHost` replaces, and none of its body's writes goes there. -/
theorem body_withHost (i : Instr) : body i (s.withHost h) = (body i s).map fun d => d.withHost h := by
  cases i with
  | nop => rfl
  | clr => rfl
  | frqclr =>
    unfold body State.zeroFreq
    generalize List.replicate Config.nSym 0#32 = zeros
    rfl
  | mkleaf x =>
    simp only [body, mkleafBody]
    show (if s.ncount = Config.nodeCap then _ else _) = _
    split <;> rfl
  | hins k =>
    simp only [body, hinsBody]
    show (match s.nodes[k]? with | none => _ | some n => _) = _
    cases s.nodes[k]? with
    | none => rfl
    | some n =>
      simp only
      split
      · rfl
      · show (if s.hsize ≥ Config.heapCap then _ else _) = _
        split
        · rfl
        · show (if s.heapReadable = true then _ else _) = _
          split <;> rfl
  | hpop =>
    simp only [body, hpopBody]
    show (if s.hsize = 0 then _ else _) = _
    split
    · rfl
    · show (if s.heapReadable = true then _ else _) = _
      split <;> rfl
  | merge =>
    simp only [body, mergeBody, mergeStep_withHost]
    cases s.mergeStep <;> rfl
  | setroot k =>
    simp only [body, setrootBody]
    show (if k ≥ s.ncount then _ else _) = _
    split <;> rfl
  | build =>
    simp only [body, buildBody, readFreqs_withHost]
    cases s.readFreqs (List.range Config.nSym) with
    | error e => rfl
    | ok fs =>
      simp only
      split
      · rfl
      · split
        · rfl
        · have hc : (s.withHost h).clearTree = s.clearTree.withHost h := rfl
          rw [hc, seedLeaves_withHost, mergeAll_withHost]
          have eh : ((s.clearTree.seedLeaves 0 fs).withHost h).hsize = (s.clearTree.seedLeaves 0 fs).hsize := rfl
          rw [eh]
          cases State.mergeAll (s.clearTree.seedLeaves 0 fs).hsize (s.clearTree.seedLeaves 0 fs) <;> rfl
  | gencode =>
    simp only [body, gencodeBody, State.walkRoot, walk_withHost]
    have er : (s.withHost h).rootv = s.rootv := rfl
    have ee : (s.withHost h).root = s.root := rfl
    simp only [er, ee]
    split
    · rfl
    · cases walk s (Config.maxCodeLen + 1) s.root [] walkStart <;> rfl
  | encode =>
    have e1 : (s.withHost h).opArg1 = s.opArg1 := rfl
    have e0 : (s.withHost h).opArg0 = s.opArg0 := rfl
    have e2 : (s.withHost h).opArg2 = s.opArg2 := rfl
    have ec : (s.withHost h).codetv = s.codetv := rfl
    have es : (s.withHost h).symSize = s.symSize := rfl
    have ew : (s.withHost h).wordSize = s.wordSize := rfl
    simp only [body, encodeBody, gatherCodes_withHost, e0, e1, e2, ec, es, ew]
    split
    · rfl
    · split
      · rfl
      · cases s.gatherCodes s.opArg0 s.opArg1 0 with
        | error e => rfl
        | ok codes => simp only; split <;> rfl
  | decode =>
    have e1 : (s.withHost h).opArg1 = s.opArg1 := rfl
    have e0 : (s.withHost h).opArg0 = s.opArg0 := rfl
    have e2 : (s.withHost h).opArg2 = s.opArg2 := rfl
    have er : (s.withHost h).engineWord s.opArg0 = s.engineWord s.opArg0 := rfl
    have es : (s.withHost h).symSize = s.symSize := rfl
    have ew : (s.withHost h).wordSize = s.wordSize := rfl
    simp only [body, decodeBody, decodeOut_withHost, e0, e1, e2, er, es, ew]
    split
    · rfl
    · cases s.engineWord s.opArg0 with
      | error e => rfl
      | ok l =>
        simp only
        cases s.decodeOut s.opArg0 l.toNat s.opArg1 with
        | error e => rfl
        | ok out => simp only; split <;> rfl

end Sys2Proof.Machine
end

