-- ==== Sys2Proof/Laws/Paths.lean ====
section
/-! SUPPORT. The index paths a swim and a sink follow (R101, R102), and OWN updates as list updates. -/

namespace Sys2Proof.Machine

/-- The path of a swim, one step further from the start. -/
theorem ancestor_succ' (j k : Nat) : ancestor j (k+1) = ancestor (parent j) k := by
  induction k with
  | zero => rfl
  | succ k ih => rw [ancestor, ih]; rfl

theorem ancestor_le (j k : Nat) : ancestor j k ≤ j := by
  induction k with
  | zero => exact Nat.le_refl _
  | succ k ih => rw [ancestor]; unfold parent; omega

/-- `lighterChild` is the child the sink of R102 compares with. -/
theorem sinkChild_eq (w h i) : sinkChild w h i = lighterChild w h i := rfl

theorem lighterPath_ge (w h j k) : j ≤ lighterPath w h j k := by
  induction k with
  | zero => exact Nat.le_refl _
  | succ k ih => rw [lighterPath]; unfold lighterChild; split <;> omega

theorem lighterPath_succ (w h j k) : lighterPath w h j (k+1) = lighterPath w h (lighterChild w h j) k := by
  induction k with
  | zero => rfl
  | succ k ih => rw [lighterPath, ih]; rfl

/-- An OWN update of an allocated node as a list update. -/
theorem setOwn_eq_set {nodes : List Node} {i : Nat} {n : Node} (hn : nodes[i]? = some n) (o : Own) :
    setOwn nodes i o = nodes.set i { n with own := o } := by
  apply List.ext_getElem?
  intro j
  rw [getElem?_setOwn, List.getElem?_set]
  by_cases hj : i = j
  · subst hj
    have := lt_length_of_getElem? hn
    simp only [hn, Option.map_some, if_true, this]
  · cases hk : nodes[j]? <;> simp [hj]

end Sys2Proof.Machine
end

