-- ==== Sys2Proof/Laws/PerInstr.lean ====
section
/-! SUPPORT. The per-instruction family TableRow: a command's word meets the mask and the pattern that its row of
spec/opcode_table.json gives (spec/30_encoding.md R81 to R86). -/

namespace Sys2Proof.Laws.TableRow

/-- The mask of the instruction's row of spec/opcode_table.json. -/
def tableMask : Instr → Word
  | .nop => 0xFFFFFFFF#32
  | .clr => 0xFFFFFFFF#32
  | .frqclr => 0xFFFFFFFF#32
  | .mkleaf _ => 0xFFFF00FF#32
  | .hins _ => 0xFFFE00FF#32
  | .hpop => 0xFFFFFFFF#32
  | .merge => 0xFFFFFFFF#32
  | .setroot _ => 0xFFFE00FF#32
  | .build => 0xFFFFFFFF#32
  | .gencode => 0xFFFFFFFF#32
  | .encode => 0xFFFFFFFF#32
  | .decode => 0xFFFFFFFF#32

/-- The pattern of the instruction's row of spec/opcode_table.json. -/
def tableMatch : Instr → Word
  | .nop => 0x00000000#32
  | .clr => 0x00000001#32
  | .frqclr => 0x00000002#32
  | .mkleaf _ => 0x00000003#32
  | .hins _ => 0x00000004#32
  | .hpop => 0x00000005#32
  | .merge => 0x00000006#32
  | .setroot _ => 0x00000007#32
  | .build => 0x00000008#32
  | .gencode => 0x00000009#32
  | .encode => 0x0000000A#32
  | .decode => 0x0000000B#32

/-- A word of format FS under the mask of its row. -/
theorem word_mask_FS (op : BitVec 8) (x : Sym) : encodeFS op x &&& 0xFFFF00FF#32 = op.setWidth 32 := by
  apply BitVec.eq_of_getLsbD_eq
  intro j hj
  have : ∀ j, j < 32 → (0xFFFF00FF#32).getLsbD j = (decide (j < 8) || decide (16 ≤ j)) := by decide
  rw [BitVec.getLsbD_and, this j hj, encodeFS, BitVec.getLsbD_append, BitVec.getLsbD_append, BitVec.getLsbD_setWidth]
  by_cases h1 : j < 8
  · simp [h1, hj]
  · by_cases h2 : 16 ≤ j
    · simp [h1, hj, show ¬ j - 8 < 8 by omega]
      exact BitVec.getLsbD_of_ge _ _ (by omega)
    · simp [h1, h2]
      intro _; exact BitVec.getLsbD_of_ge _ _ (by omega)

/-- A word of format FN under the mask of its row. -/
theorem word_mask_FN (op : BitVec 8) (k : Nat) : encodeFN op k &&& 0xFFFE00FF#32 = op.setWidth 32 := by
  apply BitVec.eq_of_getLsbD_eq
  intro j hj
  have : ∀ j, j < 32 → (0xFFFE00FF#32).getLsbD j = (decide (j < 8) || decide (17 ≤ j)) := by decide
  rw [BitVec.getLsbD_and, this j hj, encodeFN, BitVec.getLsbD_append, BitVec.getLsbD_append, BitVec.getLsbD_setWidth]
  by_cases h1 : j < 8
  · simp [h1, hj]
  · by_cases h2 : 17 ≤ j
    · simp [h1, hj, show ¬ j - 8 < 9 by omega]
      exact BitVec.getLsbD_of_ge _ _ (by omega)
    · simp [h1, h2]
      intro _; exact BitVec.getLsbD_of_ge _ _ (by omega)

/-- The word of a well-formed command has its row's pattern under its row's mask. -/
def Statement (i : Instr) : Prop := i.WellFormed → encode i &&& tableMask i = tableMatch i

theorem nop : Statement .nop := fun _ => by decide

theorem clr : Statement .clr := fun _ => by decide

theorem frqclr : Statement .frqclr := fun _ => by decide

theorem mkleaf (x : Sym) : Statement (.mkleaf x) := fun _ => word_mask_FS _ _

theorem hins (k : Nat) : Statement (.hins k) := fun _ => word_mask_FN _ _

theorem hpop : Statement .hpop := fun _ => by decide

theorem merge : Statement .merge := fun _ => by decide

theorem setroot (k : Nat) : Statement (.setroot k) := fun _ => word_mask_FN _ _

theorem build : Statement .build := fun _ => by decide

theorem gencode : Statement .gencode := fun _ => by decide

theorem encode : Statement .encode := fun _ => by decide

theorem decode : Statement .decode := fun _ => by decide

end Sys2Proof.Laws.TableRow
end

