-- ==== Sys2Proof/Laws/Port.lean ====
section
/-! SUPPORT. Where a host address leads (R61), and what one port cycle does (R62, R212, R217). -/

namespace Sys2Proof.Machine

variable (s : State) {a : BitVec 18} {k : Nat}

theorem ite_ne_of {α : Type} {c : Prop} [Decidable c] {x y z : α} (hx : x ≠ z) (hy : y ≠ z) :
    (if c then x else y) ≠ z := by
  by_cases h : c
  · rwa [if_pos h]
  · rwa [if_neg h]

theorem regList_getElem {k : Nat} (h : k < 16) : ∃ r, regList[k]? = some r :=
  ⟨_, List.getElem?_eq_getElem (l := regList) h⟩

theorem locate_reg (h : a.toNat < 0x01000) : s.locate a = ((regList[a.toNat]?).map Loc.reg).getD .reserved := by
  rw [State.locate, if_pos h]

theorem locate_freq (h : a.toNat = 0x01000 + k) (hk : k < 256) : s.locate a = .freq k := by
  unfold State.locate
  dsimp only
  repeat rw [if_neg (by omega)]
  rw [if_pos (by omega)]
  rw [show a.toNat - 0x01000 = k by omega]

theorem locate_node {w : Nat} (h : a.toNat = 0x02000 + 4 * k + w) (hk : k < 511) (hw : w < 4) :
    s.locate a = .node k w := by
  unfold State.locate
  dsimp only
  repeat rw [if_neg (by omega)]
  rw [if_pos (by omega)]
  rw [show (a.toNat - 0x02000) / 4 = k by omega, show (a.toNat - 0x02000) % 4 = w by omega]

theorem locate_heap (h : a.toNat = 0x03000 + k) (hk : k < 511) : s.locate a = .heap k := by
  unfold State.locate
  dsimp only
  repeat rw [if_neg (by omega)]
  rw [if_pos (by omega)]
  rw [show a.toNat - 0x03000 = k by omega]

theorem locate_code {w : Nat} (h : a.toNat = 0x04000 + 16 * k + w) (hk : k < 256) (hw : w < 16) :
    s.locate a = .code k w := by
  unfold State.locate
  dsimp only
  repeat rw [if_neg (by omega)]
  rw [if_pos (by omega)]
  rw [show (a.toNat - 0x04000) / 16 = k by omega, show (a.toNat - 0x04000) % 16 = w by omega]

theorem locate_sym (h : a.toNat = 0x10000 + k) (hk : k < 65536) (hs : k < s.symSize) : s.locate a = .sym k := by
  unfold State.locate
  dsimp only
  repeat rw [if_neg (by omega)]
  rw [if_pos (by omega), if_pos (by omega)]
  rw [show a.toNat - 0x10000 = k by omega]

theorem locate_word (h : a.toNat = 0x20000 + k) (hk : k < 65536) (hs : k < s.wordSize) : s.locate a = .word k := by
  unfold State.locate
  dsimp only
  repeat rw [if_neg (by omega)]
  rw [if_pos (by omega), if_pos (by omega)]
  rw [show a.toNat - 0x20000 = k by omega]

theorem locate_reserved (h : ReservedAddress s a.toNat) : s.locate a = .reserved := by
  have ha := a.isLt
  unfold ReservedAddress at h
  unfold State.locate
  dsimp only
  by_cases h0 : a.toNat < 0x01000
  · rw [if_pos h0]
    have : regList[a.toNat]? = none := List.getElem?_eq_none (show 16 ≤ _ by omega)
    rw [this]; rfl
  rw [if_neg h0]
  by_cases h1 : a.toNat < 0x01100
  · omega
  rw [if_neg h1]
  by_cases h2 : a.toNat < 0x02000
  · rw [if_pos h2]
  rw [if_neg h2]
  by_cases h3 : a.toNat < 0x027FC
  · omega
  rw [if_neg h3]
  by_cases h4 : a.toNat < 0x03000
  · rw [if_pos h4]
  rw [if_neg h4]
  by_cases h5 : a.toNat < 0x031FF
  · omega
  rw [if_neg h5]
  by_cases h6 : a.toNat < 0x04000
  · rw [if_pos h6]
  rw [if_neg h6]
  by_cases h7 : a.toNat < 0x05000
  · omega
  rw [if_neg h7]
  by_cases h8 : a.toNat < 0x10000
  · rw [if_pos h8]
  rw [if_neg h8]
  by_cases h9 : a.toNat < 0x20000
  · rw [if_pos h9, if_neg (by omega)]
  rw [if_neg h9]
  by_cases h10 : a.toNat < 0x30000
  · rw [if_pos h10, if_neg (by omega)]
  rw [if_neg h10]

/-- Every location the map answers with exists (R5, R61). -/
theorem locate_bounds (a : BitVec 18) :
    match s.locate a with
    | .freq k => k < 256
    | .node k w => k < 511 ∧ w < 4
    | .heap k => k < 511
    | .code k w => k < 256 ∧ w < 16
    | .sym k => k < s.symSize
    | .word k => k < s.wordSize
    | _ => True := by
  have ha := a.isLt
  unfold State.locate
  dsimp only
  by_cases h0 : a.toNat < 0x01000
  · rw [if_pos h0]
    cases regList[a.toNat]? <;> trivial
  rw [if_neg h0]
  by_cases h1 : a.toNat < 0x01100
  · rw [if_pos h1]; dsimp only; omega
  rw [if_neg h1]
  by_cases h2 : a.toNat < 0x02000
  · rw [if_pos h2]; trivial
  rw [if_neg h2]
  by_cases h3 : a.toNat < 0x027FC
  · rw [if_pos h3]; dsimp only; omega
  rw [if_neg h3]
  by_cases h4 : a.toNat < 0x03000
  · rw [if_pos h4]; trivial
  rw [if_neg h4]
  by_cases h5 : a.toNat < 0x031FF
  · rw [if_pos h5]; dsimp only; omega
  rw [if_neg h5]
  by_cases h6 : a.toNat < 0x04000
  · rw [if_pos h6]; trivial
  rw [if_neg h6]
  by_cases h7 : a.toNat < 0x05000
  · rw [if_pos h7]; dsimp only; omega
  rw [if_neg h7]
  by_cases h8 : a.toNat < 0x10000
  · rw [if_pos h8]; trivial
  rw [if_neg h8]
  by_cases h9 : a.toNat < 0x20000
  · rw [if_pos h9]
    by_cases hs : a.toNat - 0x10000 < s.symSize
    · rw [if_pos hs]; exact hs
    · rw [if_neg hs]; trivial
  rw [if_neg h9]
  by_cases h10 : a.toNat < 0x30000
  · rw [if_pos h10]
    by_cases hs : a.toNat - 0x20000 < s.wordSize
    · rw [if_pos hs]; exact hs
    · rw [if_neg hs]; trivial
  rw [if_neg h10]; trivial

/-- The only addresses of ID, CTRL and STATUS are 0, 1 and 2 (R61, register table). -/
theorem locate_allowed (a : BitVec 18) : readAllowedBusy (s.locate a) = decide (a.toNat ≤ 2) := by
  by_cases h0 : a.toNat < 0x01000
  · rw [locate_reg s h0]
    by_cases h16 : a.toNat < 16
    · have h : ∀ k, k < 16 → readAllowedBusy (((regList[k]?).map Loc.reg).getD .reserved) = decide (k ≤ 2) := by decide
      exact h _ h16
    · have : regList[a.toNat]? = none := List.getElem?_eq_none (show 16 ≤ _ by omega)
      rw [this]
      simp [readAllowedBusy]; omega
  · have hd : decide (a.toNat ≤ 2) = false := by simp; omega
    rw [hd]
    have hr : ∀ r, s.locate a ≠ .reg r := by
      intro r
      unfold State.locate
      dsimp only
      rw [if_neg h0]
      exact ite_ne_of nofun (ite_ne_of nofun (ite_ne_of nofun (ite_ne_of nofun (ite_ne_of nofun (ite_ne_of nofun
        (ite_ne_of nofun (ite_ne_of nofun (ite_ne_of (ite_ne_of nofun nofun)
          (ite_ne_of (ite_ne_of nofun nofun) nofun)))))))))
    cases hl : s.locate a with
    | reg r => exact absurd hl (hr r)
    | _ => rfl

/-- A port cycle that reads (R217). -/
theorem portCycle_read {c : PortCycle} (h1 : c.rst = false) (h2 : c.we = false) (h3 : c.re = true) :
    portCycle c s = .next (s.hostRead c.addr) := by
  simp [portCycle, h1, h2, h3]

/-- A port cycle that writes (R217). -/
theorem portCycle_write {c : PortCycle} (h1 : c.rst = false) (h2 : c.we = true) (h3 : c.re = false) :
    portCycle c s = .next (s.hostWrite c.addr c.wdata) := by
  simp [portCycle, h1, h2, h3]

variable {s}

theorem hostReads_of {t : State} {a : Nat} (h : ∀ b : BitVec 18, b.toNat = a → s.hostRead b = t) : HostReads s a t := by
  intro c h1 h2 h3 ha
  rw [portCycle_read s h1 h2 h3, h c.addr ha]

theorem hostWrites_of {t : State} {a : Nat} {v : Word} (h : ∀ b : BitVec 18, b.toNat = a → s.hostWrite b v = t) :
    HostWrites s a v t := by
  intro c h1 h2 h3 ha hv
  rw [portCycle_write s h1 h2 h3, hv, h c.addr ha]

/-- A host access in words: the state it leads to, for an address the port has. -/
theorem hostReads_eq {t : State} {a : Nat} (ha : a < 2 ^ 18) (h : HostReads s a t) :
    t = s.hostRead (BitVec.ofNat 18 a) := by
  have h' := h ⟨false, false, true, BitVec.ofNat 18 a, 0#32⟩ rfl rfl rfl
    (by simp only [BitVec.toNat_ofNat]; exact Nat.mod_eq_of_lt ha)
  rw [portCycle_read s rfl rfl rfl] at h'
  injection h' with h'
  exact h'.symm

theorem hostWrites_eq {t : State} {a : Nat} {v : Word} (ha : a < 2 ^ 18) (h : HostWrites s a v t) :
    t = s.hostWrite (BitVec.ofNat 18 a) v := by
  have h' := h ⟨false, true, false, BitVec.ofNat 18 a, v⟩ rfl rfl rfl
    (by simp only [BitVec.toNat_ofNat]; exact Nat.mod_eq_of_lt ha) rfl
  rw [portCycle_write s rfl rfl rfl] at h'
  injection h' with h'
  exact h'.symm

/-- While BUSY = 0 a host read answers what stands at the location. -/
theorem hostRead_idle (hb : s.busy = false) (a : BitVec 18) : s.hostRead a = s.answer (s.peek (s.locate a)) := by
  rw [State.hostRead, if_neg (by simp [hb])]

/-- While BUSY = 0 a host write acts on the location. -/
theorem hostWrite_idle (hb : s.busy = false) (a : BitVec 18) (v : Word) : s.hostWrite a v = s.poke v (s.locate a) := by
  rw [State.hostWrite, if_neg (by simp [hb])]

theorem readsValue_of {a : Nat} {v : Word} (hb : s.busy = false)
    (h : ∀ b : BitVec 18, b.toNat = a → s.peek (s.locate b) = some v) : ReadsValue s a v :=
  hostReads_of fun b hb' => by rw [hostRead_idle hb, h b hb']; rfl

theorem readsAnything_of {a : Nat} (hb : s.busy = false)
    (h : ∀ b : BitVec 18, b.toNat = a → s.peek (s.locate b) = none) : ReadsAnything s a :=
  hostReads_of fun b hb' => by rw [hostRead_idle hb, h b hb']; rfl

theorem hostWrites_idle {a : Nat} {v : Word} {t : State} (hb : s.busy = false)
    (h : ∀ b : BitVec 18, b.toNat = a → s.poke v (s.locate b) = t) : HostWrites s a v t :=
  hostWrites_of fun b hb' => by rw [hostWrite_idle hb, h b hb']

end Sys2Proof.Machine
end

