-- ==== Sys2Proof/Tests/Slice0.lean ====
section
/-! SUPPORT. The model's own tests: the well-formedness smoke, words written out from the encodings of
spec/30_encoding.md, one step of each command with values of spec/95_test_vectors.md, and a witness for the hypotheses of
each statement. -/

namespace Sys2Proof.Tests

open Sys2Proof.Machine

/-! ### Well-formedness (R83) -/

theorem test_wf_refuses_hins_512 : (Instr.hins 512).wellFormed = false := by decide
theorem test_wf_refuses_setroot_512 : (Instr.setroot 512).wellFormed = false := by decide
theorem test_wf_admits_hins_511 : (Instr.hins 511).wellFormed = true := by decide
theorem test_wf_admits_setroot_511 : (Instr.setroot 511).wellFormed = true := by decide

/-! ### Words written out from the patterns of R81, R82, R83 and the opcodes of R85 -/

theorem test_decode_nop : decode 0b00000000000000000000000000000000#32 = .ok .nop := by decide
theorem test_decode_clr : decode 0b00000000000000000000000000000001#32 = .ok .clr := by decide
theorem test_decode_frqclr : decode 0b00000000000000000000000000000010#32 = .ok .frqclr := by decide
theorem test_decode_mkleaf : decode 0b00000000000000001000000100000011#32 = .ok (.mkleaf 0x81#8) := by decide
theorem test_decode_hins : decode 0b00000000000000010000001000000100#32 = .ok (.hins 258) := by decide
theorem test_decode_hpop : decode 0b00000000000000000000000000000101#32 = .ok .hpop := by decide
theorem test_decode_merge : decode 0b00000000000000000000000000000110#32 = .ok .merge := by decide
theorem test_decode_setroot : decode 0b00000000000000011000000000000111#32 = .ok (.setroot 384) := by decide
theorem test_decode_build : decode 0b00000000000000000000000000001000#32 = .ok .build := by decide
theorem test_decode_gencode : decode 0b00000000000000000000000000001001#32 = .ok .gencode := by decide
theorem test_decode_encode : decode 0b00000000000000000000000000001010#32 = .ok .encode := by decide
theorem test_decode_decode : decode 0b00000000000000000000000000001011#32 = .ok .decode := by decide

/-- Vector N4, X1, T10, Q2: words with a reserved opcode or a must-be-zero bit. -/
theorem test_decode_illegal :
    [0x0000000C#32, 0x000000FF#32, 0xFFFFFFFF#32, 0x00000100#32, 0x00010003#32, 0x00020004#32, 0x00000105#32].map
      (fun c => (decode c).toOption) = List.replicate 7 none := by decide

/-! ### Sample states -/

/-- The next state of an outcome. -/
def next (o : Host.Outcome State Fault Refusal) : Option State :=
  match o with
  | .next t => some t
  | .fault _ => none
  | .refused _ => none

/-- A leaf as MKLEAF leaves it, with another owner. -/
def leaf (x : Sym) (w : Word) (o : Own) : Node := { leafNode x w with own := o }

/-- The node table of vector S1 (spec/95_test_vectors.md, "The reference tree S1"). -/
def s1Nodes : List Node :=
  [leaf 0x61#8 4#32 .child, leaf 0x62#8 2#32 .child, leaf 0x63#8 1#32 .child, leaf 0x64#8 1#32 .child,
    ⟨.internal, 0#8, 2#32, 2, 3, .child⟩, ⟨.internal, 0#8, 4#32, 1, 4, .child⟩, ⟨.internal, 0#8, 8#32, 0, 5, .free⟩]

/-- The codes of vector S1. -/
def s1Code : List CodeEntry :=
  ((((List.replicate 256 noCode).set 0x61 (codeOf [false])).set 0x62 (codeOf [true, false])).set 0x63
    (codeOf [true, true, false])).set 0x64 (codeOf [true, true, true])

/-- "abacabad" in SYMMEM and its encoding in WORDMEM, with the S1 tree and table: what program P1 leaves. -/
def s1 : State :=
  { State.reset with
    nodes := s1Nodes, root := 6, rootv := true, code := s1Code, codetv := true, arg1 := 8#32
    symmem := [(0, 0x61#8), (1, 0x62#8), (2, 0x61#8), (3, 0x63#8), (4, 0x61#8), (5, 0x62#8), (6, 0x61#8), (7, 0x64#8)]
    wordmem := [(0, 14#32), (1, 0x4C9C0000#32)] }

/-- `s1` at its decoding: ARG0 = 0, ARG1 = 8, ARG2 = 16. -/
def s1Decode : State := { s1 with arg2 := 16#32 }

/-- A single leaf 'a' as ROOT (vector T3), with "aaaa" in SYMMEM and `[0, 0]` in WORDMEM. -/
def single : State :=
  { State.reset with
    nodes := [leaf 0x61#8 4#32 .free], root := 0, rootv := true, arg1 := 4#32
    code := (List.replicate 256 noCode).set 0x61 (codeOf []), codetv := true
    symmem := [(0, 0x61#8), (1, 0x61#8), (2, 0x61#8), (3, 0x61#8)], wordmem := [(0, 0#32), (1, 0#32)] }

/-- The nodes and the heap of vector Q1 before its HINS 3. -/
def q1 : State :=
  { State.reset with
    nodes := [leaf 0x78#8 5#32 .inHeap, leaf 0x79#8 3#32 .inHeap, leaf 0x7A#8 3#32 .inHeap, leaf 0x77#8 1#32 .free]
    heap := [1, 0, 2] }

/-- FREQ holding `fs`, as the host has written it. -/
def freqState (fs : List Word) : State := { State.reset with freq := (List.range' 0 fs.length).zip fs }

/-- The frequency list of vector S1. -/
def s1Table : List Word :=
  ((((List.replicate 256 0#32).set 0x61 4#32).set 0x62 2#32).set 0x63 1#32).set 0x64 1#32

/-- The frequencies of vector S1. -/
def s1Freq : State := freqState s1Table

/-- The frequency list of vector T5. -/
def t5Table : List Word := 0xFFFFFFFF#32 :: 1#32 :: List.replicate 254 0#32

/-! ### One step of each command -/

/-- Vector N1. -/
theorem test_nop_clears_the_error :
    (next (exec .nop { State.reset with errcode := 4#8, errinfo := 7#32, busy := true })).map
      (fun t => (t.errcode, t.errinfo, t.result, t.statusWord)) = some (0#8, 0#32, 0#32, 0x02#32) := by decide +kernel

/-- Vector N2. -/
theorem test_clr_discards_the_tree :
    (next (exec .clr s1)).map (fun t => (t.ncount, t.hsize, t.root, t.statusWord)) = some (0, 0, 0, 0x02#32) := by
  decide +kernel

/-- Vector N3. -/
theorem test_frqclr_zeroes :
    (next (exec .frqclr s1Freq)).map (fun t => (t.freq.read 0x61, t.freq.read 255, t.freq.read 256)) =
      some (some 0#32, some 0#32, none) := by decide +kernel

/-- Vector T10. -/
theorem test_mkleaf_allocates :
    (next (exec (.mkleaf 0x61#8) { State.reset with arg0 := 4#32 })).map
      (fun t => (t.result, t.result1, (t.nodes[0]?).map (fun n => (nodeWord n 0, nodeWord n 1, nodeWord n 2)))) =
      some (0#32, 0#32, some (0x61#32, 4#32, 0#32)) := by decide +kernel

/-- Vector T9. -/
theorem test_mkleaf_full :
    (next (exec (.mkleaf 0x61#8) { State.reset with nodes := List.replicate 511 (leaf 0#8 1#32 .free) })).map
      (fun t => (t.errcode, t.errinfo)) = some (6#8, 511#32) := by decide +kernel

/-- Vector Q1, HINS 3. -/
theorem test_hins_swims :
    (next (exec (.hins 3) q1)).map (fun t => (t.result, t.result1, t.heap)) = some (4#32, 0#32, [3, 1, 2, 0]) := by
  decide +kernel

/-- Vector Q2: a node in the heap, and an index that is not allocated. -/
theorem test_hins_errors :
    ((next (exec (.hins 0) q1)).map (fun t => (t.errcode, t.errinfo)),
      (next (exec (.hins 511) q1)).map (fun t => (t.errcode, t.errinfo))) =
      (some (8#8, 0#32), some (7#8, 511#32)) := by decide +kernel

/-- Vector Q1, the first HPOP. -/
theorem test_hpop_sinks :
    (next (exec .hpop { q1 with
        heap := [3, 1, 2, 0]
        nodes := [leaf 0x78#8 5#32 .inHeap, leaf 0x79#8 3#32 .inHeap, leaf 0x7A#8 3#32 .inHeap, leaf 0x77#8 1#32 .inHeap] })).map
      (fun t => (t.result, t.result1, t.heap)) = some (3#32, 1#32, [1, 0, 2]) := by decide +kernel

/-- Vector T6: heap [n1/2, n0/4, n4/2] with NCOUNT = 5. -/
def t6 : State :=
  { State.reset with
    heap := [1, 0, 4]
    nodes := [leaf 0x61#8 4#32 .inHeap, leaf 0x62#8 2#32 .inHeap, leaf 0x63#8 1#32 .child, leaf 0x64#8 1#32 .child,
      ⟨.internal, 0#8, 2#32, 2, 3, .inHeap⟩] }

theorem test_merge_combines :
    (next (exec .merge t6)).map (fun t => (t.result, t.result1, t.heap, t.nodes[5]?)) =
      some (5#32, 4#32, [0, 5], some ⟨.internal, 0#8, 4#32, 1, 4, .inHeap⟩) := by decide +kernel

/-- Vector T7. -/
def t7 : State :=
  { State.reset with nodes := [leaf 0x78#8 0xFFFFFFFF#32 .inHeap, leaf 0x79#8 1#32 .inHeap], heap := [1, 0] }

theorem test_merge_overflow :
    (next (exec .merge t7)).map (fun t => (t.errcode, t.errinfo, t.heap, t.ncount)) = some (9#8, 1#32, [1, 0], 2) := by
  decide +kernel

/-- Vector T8. -/
theorem test_setroot_names_the_root :
    (next (exec (.setroot 4) s1)).map (fun t => (t.root, t.result, t.rootv, t.codetv)) =
      some (4, 4#32, true, false) := by decide +kernel

/-- Vector T1. -/
theorem test_build_s1 :
    (next (exec .build s1Freq)).map (fun t => (t.result, t.result1, t.nodes, t.heap, t.statusWord)) =
      some (6#32, 7#32, s1Nodes, [], 0x12#32) := by decide +kernel

/-- Vector T5. -/
theorem test_build_overflow :
    (next (exec .build (freqState t5Table))).map
      (fun t => (t.errcode, t.errinfo, t.ncount)) = some (9#8, 0#32, 0) := by decide +kernel

/-- Vector G1. -/
theorem test_gencode_s1 :
    (next (exec .gencode { s1 with code := [], codetv := false })).map (fun t => (t.result, t.result1, t.code, t.codetv)) =
      some (4#32, 3#32, s1Code, true) := by decide +kernel

/-- Vector G4: two leaves 'a' under ROOT. -/
def g4 : State :=
  { State.reset with
    nodes := [leaf 0x61#8 1#32 .child, leaf 0x61#8 1#32 .child, ⟨.internal, 0#8, 2#32, 0, 1, .free⟩], root := 2, rootv := true }

theorem test_gencode_duplicate :
    (next (exec .gencode g4)).map (fun t => (t.errcode, t.errinfo, t.codetv)) = some (2#8, 0x161#32, false) := by
  decide +kernel

/-- Vector K1. -/
theorem test_encode_k1 :
    (next (exec .encode { s1 with wordmem := [] })).map (fun t => (t.result, t.result1, t.wordmem)) =
      some (14#32, 1#32, [(0, 14#32), (1, 0x4C9C0000#32)]) := by decide +kernel

/-- Vector K3: the eleventh 'd' straddles the word boundary. -/
theorem test_encode_k3 :
    (next (exec .encode { s1 with
        arg1 := 11#32, symmem := Memory.writeList [] 0 (List.replicate 11 0x64#8), wordmem := [] })).map
      (fun t => (t.result, t.result1, t.wordmem)) =
      some (33#32, 2#32, [(0, 33#32), (1, 0xFFFFFFFF#32), (2, 0x80000000#32)]) := by decide +kernel

/-- Vector K6. -/
theorem test_decode_k6 :
    (next (exec .decode s1Decode)).map (fun t => (t.result, t.result1, t.symmem.drop 8)) =
      some (8#32, 14#32, [(16, 0x61#8), (17, 0x62#8), (18, 0x61#8), (19, 0x63#8), (20, 0x61#8), (21, 0x62#8), (22, 0x61#8),
        (23, 0x64#8)]) := by decide +kernel

/-- Vector K9. -/
theorem test_decode_k9 :
    (next (exec .decode { s1Decode with wordmem := [(0, 3#32), (1, 0x60000000#32)] })).map
      (fun t => (t.errcode, t.errinfo, t.symmem)) = some (11#8, 1#32, s1.symmem) := by decide +kernel

/-- Vector H2: a CMD write and a ROOT read while BUSY = 1 only set HAZ, and a STATUS read does not. -/
theorem test_busy_hazard :
    (((s1.startCommand 8#32).hostWrite 3#18 1#32).cmd, ((s1.startCommand 8#32).hostWrite 3#18 1#32).haz,
      ((s1.startCommand 8#32).hostRead 0x00B#18).haz, (State.reset.startCommand 8#32).hostRead 2#18 =
        { State.reset.startCommand 8#32 with rdata := 1#32 }) = (8#32, true, true, True) := by
  simp only [Prod.mk.injEq]; refine ⟨by decide +kernel, by decide +kernel, by decide +kernel, ?_⟩
  exact propext ⟨fun _ => trivial, fun _ => by decide +kernel⟩

/-! ### Sound sample trees -/

theorem s1_tree : TreeOk s1.nodes s1.heap := by
  have h4 := ((TreeOk.newLeaf (s := State.reset) treeOk_nil 0x61#8 4#32 (by decide)).newLeaf 0x62#8 2#32
    (by decide)).newLeaf 0x63#8 1#32 (by decide) |>.newLeaf 0x64#8 1#32 (by decide)
  have h5 := h4.newInternal (l := 2) (r := 3) rfl rfl rfl rfl (by decide) (by decide) (by decide +kernel)
  have h6 := h5.newInternal (l := 1) (r := 4) rfl rfl rfl rfl (by decide) (by decide) (by decide +kernel)
  have h7 := h6.newInternal (l := 0) (r := 5) rfl rfl rfl rfl (by decide) (by decide) (by decide +kernel)
  exact h7

theorem q1_tree : TreeOk q1.nodes q1.heap := by
  have h4 := ((TreeOk.newLeaf (s := State.reset) treeOk_nil 0x78#8 5#32 (by decide)).newLeaf 0x79#8 3#32
    (by decide)).newLeaf 0x7A#8 3#32 (by decide) |>.newLeaf 0x77#8 1#32 (by decide)
  exact ((h4.heapInsert (i := 0) rfl rfl).heapInsert (i := 1) rfl rfl).heapInsert (i := 2) rfl rfl

theorem t6_tree : TreeOk t6.nodes t6.heap := by
  have h4 := ((TreeOk.newLeaf (s := State.reset) treeOk_nil 0x61#8 4#32 (by decide)).newLeaf 0x62#8 2#32
    (by decide)).newLeaf 0x63#8 1#32 (by decide) |>.newLeaf 0x64#8 1#32 (by decide)
  have h5 := h4.newInternal (l := 2) (r := 3) rfl rfl rfl rfl (by decide) (by decide) (by decide +kernel)
  exact ((h5.heapInsert (i := 1) rfl rfl).heapInsert (i := 0) rfl rfl).heapInsert (i := 4) rfl rfl

theorem t7_tree : TreeOk t7.nodes t7.heap := by
  have h2 := (TreeOk.newLeaf (s := State.reset) treeOk_nil 0x78#8 0xFFFFFFFF#32 (by decide)).newLeaf 0x79#8 1#32
    (by decide)
  exact (h2.heapInsert (i := 0) rfl rfl).heapInsert (i := 1) rfl rfl

theorem g4_tree : TreeOk g4.nodes g4.heap := by
  have h2 := (TreeOk.newLeaf (s := State.reset) treeOk_nil 0x61#8 1#32 (by decide)).newLeaf 0x61#8 1#32
    (by decide)
  exact h2.newInternal (l := 0) (r := 1) rfl rfl rfl rfl (by decide) (by decide) (by decide +kernel)

theorem single_tree : TreeOk single.nodes single.heap :=
  TreeOk.newLeaf (s := State.reset) treeOk_nil 0x61#8 4#32 (by decide)

/-- `k` more leaves. -/
def withLeaves (s : State) : Nat → State
  | 0 => s
  | k + 1 => (withLeaves s k).newLeaf 0#8 1#32

theorem withLeaves_spec (k : Nat) (h : 5 + k ≤ 511) :
    TreeOk (withLeaves t6 k).nodes (withLeaves t6 k).heap ∧ (withLeaves t6 k).ncount = 5 + k ∧
      (withLeaves t6 k).heap = t6.heap := by
  induction k with
  | zero => exact ⟨t6_tree, rfl, rfl⟩
  | succ k ih =>
    obtain ⟨h1, h2, h3⟩ := ih (by omega)
    refine ⟨h1.newLeaf 0#8 1#32 (by rw [h2, Config.nodeCap_eq]; omega), ?_, h3⟩
    simp only [withLeaves, State.ncount, State.newLeaf, List.length_append, List.length_singleton] at h2 ⊢
    omega

theorem s1_memOk : s1.MemOk where
  freqWf := by decide
  symWf := by decide
  wordWf := by decide
  freqIn := by decide
  symIn := by decide +kernel
  wordIn := by decide +kernel
  symRange := by decide +kernel
  wordRange := by decide +kernel

theorem s1_walk : (match s1.walkRoot with | .ok t => decide (t.table = s1Code) | .error _ => false) = true := by
  decide +kernel

theorem s1_inv : s1.Inv where
  tree := s1_tree
  valid := {
    root := fun _ => by decide
    noRoot := nofun
    tree := fun _ => rfl
    table := fun _ => by
      have h := s1_walk
      cases hw : s1.walkRoot with
      | error e => rw [hw] at h; cases h
      | ok t => rw [hw] at h; exact ⟨t, rfl, (of_decide_eq_true h).symm⟩ }
  mem := s1_memOk
  err := by decide

theorem reset_inv : State.reset.Inv where
  tree := treeOk_nil
  valid := ⟨nofun, fun _ => rfl, nofun, nofun⟩
  mem := ⟨.nil, .nil, .nil, nofun, nofun, nofun, by decide +kernel, by decide +kernel⟩
  err := by decide

/-! ### A witness for the hypotheses of each statement -/

/-- A next state with a property that decides, from an evaluation. -/
theorem exists_next {o : Host.Outcome State Fault Refusal} {p : State → Bool}
    (h : ((next o).any p) = true) : ∃ t, o = .next t ∧ p t = true := by
  cases o with
  | next t => exact ⟨t, rfl, h⟩
  | fault f => cases h
  | refused r => cases h

/-- A command that completes without an error. -/
theorem exists_success {i : Instr} {s : State} (h : ((next (exec i s)).any fun t => t.errcode = 0#8) = true) :
    ∃ t, exec i s = .next t ∧ t.errcode = 0#8 := by
  obtain ⟨t, h1, h2⟩ := exists_next h
  exact ⟨t, h1, of_decide_eq_true h2⟩

theorem hostReads_self (s : State) {a : Nat} : HostReads s a (s.hostRead (BitVec.ofNat 18 a)) :=
  hostReads_of fun b hb => by rw [← hb, BitVec.ofNat_toNat, BitVec.setWidth_eq]

theorem hostWrites_self (s : State) {a : Nat} (v : Word) : HostWrites s a v (s.hostWrite (BitVec.ofNat 18 a) v) :=
  hostWrites_of fun b hb => by rw [← hb, BitVec.ofNat_toNat, BitVec.setWidth_eq]

theorem witness_DecodeAndEncodeAgree :
    (Instr.hins 511).WellFormed ∧ (Instr.setroot 511).WellFormed ∧ decode 0x0001FF04#32 = .ok (.hins 511) := by decide

/-- Serves the clauses FormatF0, FormatFS and FormatFN of the other statements too: a word of each format that selects
its command and one that does not, and a busy state with any word in CMD. -/
theorem witness_EveryWordSelectsOrIsIllegal :
    (0x00000000#32).toNat % 2 ^ 8 = 0x00 ∧ (0x00000000#32).toNat / 2 ^ 8 = 0 ∧
      (0xFFFFFF00#32).toNat % 2 ^ 8 = 0x00 ∧ (0xFFFFFF00#32).toNat / 2 ^ 8 ≠ 0 ∧
      (0x0000FF03#32).toNat % 2 ^ 8 = 0x03 ∧ (0x0000FF03#32).toNat / 2 ^ 16 = 0 ∧ (0x00010003#32).toNat / 2 ^ 16 ≠ 0 ∧
      (0x0001FF04#32).toNat % 2 ^ 8 = 0x04 ∧ (0x0001FF04#32).toNat / 2 ^ 17 = 0 ∧ (0x00020004#32).toNat / 2 ^ 17 ≠ 0 ∧
      0x0C ≤ (0x0000000C#32).toNat % 2 ^ 8 ∧
      ∀ c, (State.reset.startCommand c).busy = true ∧ (State.reset.startCommand c).cmd = c :=
  ⟨by decide, by decide, by decide, by decide, by decide, by decide, by decide, by decide, by decide, by decide, by decide,
    fun _ => ⟨rfl, rfl⟩⟩

theorem witness_EngineStepRunsTheDecodedCommand :
    (State.reset.startCommand 5#32).busy = true ∧ decode (State.reset.startCommand 5#32).cmd = .ok .hpop ∧
      (State.reset.startCommand 5#32).turns = [] ∧ (State.reset.withFetchWord 32 5).busy = true ∧
      decode (State.reset.withFetchWord 32 5).cmd = .ok .hpop ∧ (State.reset.withFetchWord 32 5).turns = .engine :: [] ∧
      State.reset.busy = false ∧ State.reset.turns = [] ∧
      ({ State.reset with turns := [.engine] } : State).busy = false ∧
      ({ State.reset with turns := [.engine] } : State).turns = .engine :: [] := by decide +kernel

/-- A port cycle with both strobes. -/
def bothStrobes : PortCycle := ⟨false, true, true, 3#18, 8#32⟩

theorem witness_PortTurnIsOnePortCycle :
    ({ State.reset with turns := [.port bothStrobes] } : State).turns = .port bothStrobes :: [] := rfl

theorem witness_OnlyBothStrobesAreRefused :
    bothStrobes.rst = false ∧ bothStrobes.we = true ∧ bothStrobes.re = true ∧
      step { State.reset with turns := [.port bothStrobes] } = .refused .portConflict := ⟨rfl, rfl, rfl, rfl⟩

theorem witness_ResetGivesEveryRegisterItsValue :
    ∃ c : PortCycle, c.rst = true ∧ c.we = false ∧ c.re = false := ⟨⟨true, false, false, 0#18, 0#32⟩, rfl, rfl, rfl⟩

theorem witness_ResetWinsOverStrobes : ∃ c : PortCycle, c.rst = true ∧ c.we = true ∧ c.re = true :=
  ⟨⟨true, true, true, 0#18, 0#32⟩, rfl, rfl, rfl⟩

theorem witness_ErrorsChangeNothingElse : ∃ t, exec .hpop State.reset = .next t ∧ t.errcode ≠ 0#8 :=
  ⟨_, rfl, by decide⟩

theorem witness_ReissuedErrorRepeats : ∃ t, exec .hpop State.reset = .next t ∧ t.errcode ≠ 0#8 :=
  witness_ErrorsChangeNothingElse

theorem witness_SuccessWritesTheCompletionFields :
    (∃ t, exec .nop State.reset = .next t ∧ t.errcode = 0#8) ∧
      (∃ t, exec (.mkleaf 7#8) State.reset = .next t ∧ t.errcode = 0#8) ∧
      ∃ t, exec (.setroot 6) s1 = .next t ∧ t.errcode = 0#8 :=
  ⟨⟨_, rfl, rfl⟩, exists_success (by decide +kernel), exists_success (by decide +kernel)⟩

theorem witness_OnlyTheseCommandsWrite :
    (∃ t, exec .merge t6 = .next t) ∧ (∃ t, exec .nop t6 = .next t) ∧ ∃ t, exec .decode s1Decode = .next t := by
  refine ⟨?_, ⟨_, rfl⟩, ?_⟩
  · obtain ⟨t, h, -⟩ := exists_success (i := .merge) (s := t6) (by decide +kernel)
    exact ⟨t, h⟩
  · obtain ⟨t, h, -⟩ := exists_success (i := .decode) (s := s1Decode) (by decide +kernel)
    exact ⟨t, h⟩

theorem witness_ErrorCodesByCommand : ∃ t, exec .hpop State.reset = .next t ∧ t.errcode = 4#8 := ⟨_, rfl, rfl⟩

theorem witness_CommandsLeaveTheHostRegisters : ∃ t, exec .merge t6 = .next t := witness_OnlyTheseCommandsWrite.1

theorem witness_AllocatedNodesAreImmutable :
    Instr.merge ≠ .clr ∧ Instr.merge ≠ .build ∧ (∃ t, exec .merge t6 = .next t ∧ t.errcode = 0#8) ∧
      t6.nodes[4]? = some ⟨.internal, 0#8, 2#32, 2, 3, .inHeap⟩ :=
  ⟨nofun, nofun, exists_success (by decide +kernel), rfl⟩

theorem witness_InterruptFollowsDoneAndEnable :
    (∃ t, HostWrites s1 0x001 1#32 t) ∧ (∃ t, HostWrites s1 0x002 0xFFFFFFFF#32 t) ∧ s1.busy = false ∧
      ∃ t, HostWrites s1 0x003 9#32 t :=
  ⟨⟨_, hostWrites_self s1 _⟩, ⟨_, hostWrites_self s1 _⟩, rfl, ⟨_, hostWrites_self s1 _⟩⟩

theorem witness_SwimClimbsPastHeavierParents : 3 < [5, 6, 7, 8].length ∧ 3 ≤ 3 := by decide

theorem witness_SinkDescendsToTheLighterChild : 0 < [5, 6, 7, 8].length ∧ [5, 6, 7, 8].length ≤ 4 + 0 := by decide

theorem witness_TiesAreBrokenByTheHeapRules :
    ∃ w : Nat → Nat, w (heapAt [0, 2] (parent 1)) = w (heapAt [0, 2] 1) ∧
      w (heapAt [0, 2] (lighterChild w [0, 2] 0)) = w (heapAt [0, 2] 0) ∧
      w (heapAt [1, 2, 3] (2 * 0 + 2)) = w (heapAt [1, 2, 3] (2 * 0 + 1)) ∧ w 0 = 2 ∧ w 1 = 1 ∧ w 2 = 2 ∧ w 3 = 2 :=
  ⟨fun i => if i = 1 then 1 else 2, by decide⟩

theorem witness_HeapNeverOverflows :
    TreeOk q1.nodes q1.heap ∧ ∃ n, q1.nodes[3]? = some n ∧ n.own = .free := ⟨q1_tree, _, rfl, rfl⟩

theorem witness_HinsInsertsAFreeNode :
    q1.ncount ≤ 511 ∧ q1.ncount ≤ 4 ∧ (∃ n, q1.nodes[0]? = some n ∧ n.own ≠ .free) ∧
      (∃ n, s1.nodes[0]? = some n ∧ n.own ≠ .free) ∧
      (∃ n, q1.nodes[3]? = some n ∧ n.own = .free) ∧ TreeOk q1.nodes q1.heap :=
  ⟨by decide +kernel, by decide +kernel, ⟨_, rfl, nofun⟩, ⟨_, rfl, nofun⟩, ⟨_, rfl, rfl⟩, q1_tree⟩

theorem witness_HpopReturnsTheMinimum :
    State.reset.hsize = 0 ∧ q1.hsize ≠ 0 ∧ TreeOk q1.nodes q1.heap ∧ ((q1.heapPop).heapPop).hsize = 1 :=
  ⟨rfl, by decide, q1_tree, by decide +kernel⟩

theorem witness_MkleafAllocatesAFreeLeaf : (withLeaves t6 506).ncount = 511 ∧ (withLeaves t6 505).ncount ≠ 511 := by
  rw [(withLeaves_spec 506 (by decide)).2.1, (withLeaves_spec 505 (by decide)).2.1]
  decide

theorem witness_MergeCombinesTheTwoMinima :
    (TreeOk State.reset.nodes State.reset.heap ∧ State.reset.hsize < 2) ∧
      (∃ s : State, TreeOk s.nodes s.heap ∧ 2 ≤ s.hsize ∧ s.ncount = 511) ∧
      (TreeOk t7.nodes t7.heap ∧ 2 ≤ t7.hsize ∧ t7.ncount ≠ 511 ∧
        2 ^ 32 - 1 < t7.W (heapAt t7.heap 0) + t7.W (heapAt (heapDrop t7.W t7.heap) 0)) ∧
      TreeOk t6.nodes t6.heap ∧ 2 ≤ t6.hsize ∧ t6.ncount ≠ 511 ∧
        t6.W (heapAt t6.heap 0) + t6.W (heapAt (heapDrop t6.W t6.heap) 0) ≤ 2 ^ 32 - 1 := by
  refine ⟨⟨treeOk_nil, by decide⟩, ⟨withLeaves t6 506, (withLeaves_spec 506 (by decide)).1, ?_,
    (withLeaves_spec 506 (by decide)).2.1⟩, ⟨t7_tree, by decide, by decide, by decide +kernel⟩, t6_tree, by decide,
    by decide, by decide +kernel⟩
  rw [State.hsize, (withLeaves_spec 506 (by decide)).2.2]
  decide

theorem witness_SetrootNamesAnAllocatedNode : s1.ncount ≤ 7 ∧ 6 < s1.ncount := by decide

theorem read_zip (fs : List Word) (b k : Nat) : Memory.read ((List.range' b fs.length).zip fs) (b + k) = fs[k]? := by
  induction fs generalizing b k with
  | nil => rfl
  | cons f fs ih =>
    rw [List.length_cons, List.range'_succ, List.zip_cons_cons, Memory.read_cons]
    cases k with
    | zero => simp
    | succ k => rw [if_neg (by omega), show b + (k + 1) = b + 1 + k by omega, ih, List.getElem?_cons_succ]

theorem freqState_freqIs {fs : List Word} (h : fs.length = 256) : FreqIs (freqState fs) fs :=
  ⟨h, fun k _ => by have := read_zip fs 0 k; rwa [Nat.zero_add] at this⟩

theorem freqState_memOk {fs : List Word} (h : fs.length = 256) : (freqState fs).MemOk where
  freqWf := by
    have : ((List.range' 0 fs.length).zip fs).Pairwise (fun x y => x.1 < y.1) := by
      have hp := List.pairwise_lt_range' (s := 0) (n := fs.length) (step := 1) (by decide)
      rw [← List.map_fst_zip (l₁ := List.range' 0 fs.length) (l₂ := fs) (by simp), List.pairwise_map] at hp
      exact hp
    exact this
  symWf := .nil
  wordWf := .nil
  freqIn := fun e he => by
    have := List.mem_range'_1.1 (List.of_mem_zip (a := e.1) (b := e.2) he).1
    rw [Config.nSym_eq]
    omega
  symIn := nofun
  wordIn := nofun
  symRange := reset_inv.mem.symRange
  wordRange := reset_inv.mem.wordRange

theorem s1_freqIs : FreqIs s1Freq s1Table := freqState_freqIs (by decide +kernel)

theorem witness_BuildFollowsItsProcedure :
    (FreqIs (freqState (List.replicate 256 0#32)) (List.replicate 256 0#32) ∧
      symbolCount (List.replicate 256 0#32) = 0) ∧
      (FreqIs (freqState t5Table) t5Table ∧ symbolCount t5Table ≠ 0 ∧ 2 ^ 32 - 1 < freqTotal t5Table) ∧
      FreqIs s1Freq s1Table ∧ symbolCount s1Table ≠ 0 ∧ freqTotal s1Table ≤ 2 ^ 32 - 1 :=
  ⟨⟨freqState_freqIs (by decide +kernel), by decide +kernel⟩, ⟨freqState_freqIs (by decide +kernel), by decide +kernel,
    by decide +kernel⟩, s1_freqIs, by decide +kernel, by decide +kernel⟩

theorem witness_BuildLeavesOneFullTree :
    FreqIs s1Freq s1Table ∧ 4 = symbolCount s1Table ∧ 1 ≤ 4 ∧ freqTotal s1Table ≤ 2 ^ 32 - 1 :=
  ⟨s1_freqIs, by decide +kernel, by decide, by decide +kernel⟩

theorem witness_BuildDependsOnFrequenciesAlone :
    (∀ k, k < 256 → ({ g4 with freq := s1Freq.freq } : State).freq.read k = s1Freq.freq.read k) ∧ FreqIs s1Freq s1Table ∧
      ∃ t, exec .build s1Freq = .next t ∧ t.errcode = 0#8 :=
  ⟨fun k _ => by generalize s1Freq.freq = m; rfl, s1_freqIs, exists_success (by decide +kernel)⟩

theorem witness_NoDuplicatesAfterBuild :
    FreqIs s1Freq s1Table ∧ ∃ t, exec .build s1Freq = .next t ∧ t.errcode = 0#8 :=
  witness_BuildDependsOnFrequenciesAlone.2

theorem g4_leaf {p : List Bool} {x : Sym} (h : LeafAt g4.nodes 2 p x) : p = [false] ∨ p = [true] := by
  have hn : g4.nodes[2]? = some ⟨.internal, 0#8, 2#32, 0, 1, .free⟩ := rfl
  cases p with
  | nil => exact absurd h (not_leafAt_nil hn rfl)
  | cons b q =>
    have h' := (leafAt_cons hn rfl).1 h
    cases b
    · exact .inl (by rw [((leafAt_of_leaf (show g4.nodes[0]? = _ from rfl) rfl).1 h').1])
    · exact .inr (by rw [((leafAt_of_leaf (show g4.nodes[1]? = _ from rfl) rfl).1 h').1])

theorem g4_duplicate : FirstDuplicate g4.nodes g4.root 0x61#8 := by
  refine ⟨[true], ⟨1, _, rfl, rfl, rfl, rfl⟩, ⟨[false], by decide, ⟨0, _, rfl, rfl, rfl, rfl⟩⟩, ?_⟩
  intro q1 q2 y h1 h2 l1 l2
  rcases g4_leaf l1 with rfl | rfl
  · rcases g4_leaf l2 with rfl | rfl
    · rfl
    · exact absurd h2 (by decide)
  · exact absurd h1 (by decide)

theorem s1_noDuplicate (x : Sym) : ¬ FirstDuplicate s1.nodes s1.root x := by
  intro h
  obtain ⟨q, a1, ⟨q', a2, a3⟩, -⟩ := h.found
  obtain ⟨t, hw, -⟩ := s1_inv.valid.table rfl
  have h1 := (walkRoot_table hw).2.1 q x a1
  rw [(walkRoot_table hw).2.1 q' x a3] at h1
  have : q' = q := by simpa [codeOf] using h1
  exact absurd a2 (this ▸ List.lt_irrefl q)

theorem witness_GencodeRecordsThePaths :
    State.reset.rootv = false ∧
      (g4.rootv = true ∧ TreeOk g4.nodes g4.heap ∧ g4.root < g4.ncount ∧ FirstDuplicate g4.nodes g4.root 0x61#8) ∧
      s1.rootv = true ∧ TreeOk s1.nodes s1.heap ∧ s1.root < s1.ncount ∧ ∀ x, ¬ FirstDuplicate s1.nodes s1.root x :=
  ⟨rfl, ⟨rfl, g4_tree, by decide, g4_duplicate⟩, rfl, s1_tree, by decide, s1_noDuplicate⟩

theorem witness_CodesHaveAtMost255Bits :
    s1.Inv ∧ follow s1.nodes 6 [true, true, true] = some 3 ∧ s1.codetv = true := ⟨s1_inv, rfl, rfl⟩

theorem witness_CodesArePrefixFree :
    ∃ t, exec .gencode s1 = .next t ∧ t.errcode = 0#8 ∧
      t.code[(0x61#8 : Sym).toNat]? = some { codev := true, path := [false] } ∧ [false] <+: [false] := by
  obtain ⟨t, h1, h2⟩ := exists_next (o := exec .gencode s1)
    (p := fun t => t.errcode = 0#8 ∧ t.code[0x61]? = some { codev := true, path := [false] }) (by decide +kernel)
  exact ⟨t, h1, (of_decide_eq_true h2).1, (of_decide_eq_true h2).2, List.prefix_refl _⟩

/-- A state with the tree of `t` and one more node, another ARG0, no table and another queue has the same tree. -/
theorem sameTree_more (t : State) (n : Node) :
    SameTree t { t with nodes := t.nodes ++ [n], arg0 := 5#32, codetv := false, code := [] } :=
  ⟨rfl, rfl, fun i m hm => ⟨m, by
    rw [show ({ t with nodes := t.nodes ++ [n], arg0 := 5#32, codetv := false, code := [] } : State).nodes = t.nodes ++ [n] from rfl,
      List.getElem?_append_left (lt_length_of_getElem? hm), hm], rfl⟩⟩

theorem witness_GencodeIsIdempotent :
    ∃ t u, exec .gencode s1 = .next t ∧ t.errcode = 0#8 ∧ SameTree t u := by
  obtain ⟨t, h1, h2⟩ := exists_success (i := .gencode) (s := s1) (by decide +kernel)
  exact ⟨t, _, h1, h2, sameTree_more t (leaf 7#8 7#32 .free)⟩

/-- "abacabad" and its codes. -/
def s1Text : List Sym := [0x61#8, 0x62#8, 0x61#8, 0x63#8, 0x61#8, 0x62#8, 0x61#8, 0x64#8]

/-- The codes of "abacabad". -/
def s1Codes : List (List Bool) :=
  [[false], [true, false], [false], [true, true, false], [false], [true, false], [false], [true, true, true]]

theorem s1_symsAre : SymsAre s1 0 s1Text := by
  intro k hk
  have : ∀ k, k < 8 → s1.symmem.read (0 + k) = s1Text[k]? := by decide +kernel
  rw [this k hk, List.getElem?_eq_getElem hk]

theorem s1_codesAre : CodesAre s1 s1Text s1Codes := by
  repeat (refine .cons (by decide +kernel) ?_)
  exact .nil

theorem s1_leaves : List.Forall₂ (fun x p => LeafAt s1.nodes s1.root p x) s1Text s1Codes := by
  repeat (refine .cons ⟨_, _, rfl, rfl, rfl, rfl⟩ ?_)
  exact .nil

theorem witness_EncodeWritesThePackedBuffer :
    s1Text.length = s1.arg1.toNat ∧ s1.codetv = true ∧ s1.arg0.toNat + s1Text.length ≤ s1.symSize ∧
      SymsAre s1 s1.arg0.toNat s1Text ∧ CodesAre s1 s1Text s1Codes ∧ 14 = s1Codes.flatten.length ∧
      1 = max 1 ((14 + 31) / 32) ∧ s1.arg2.toNat + 1 + 1 ≤ s1.wordSize :=
  ⟨by decide, rfl, by decide +kernel, s1_symsAre, s1_codesAre, by decide, by decide, by decide +kernel⟩

theorem witness_EncodeChecksInOrder :
    (0 < ({ State.reset with arg1 := 1#32 } : State).arg1.toNat ∧ State.reset.codetv = false) ∧
      ({ s1 with arg0 := 65535#32, arg1 := 2#32 } : State).symSize < (65535#32).toNat + (2#32).toNat ∧
      (SymsAre { s1 with symmem := [(0, 0x61#8), (1, 0x65#8)], arg1 := 2#32 } 0 ([0x61#8] ++ [0x65#8]) ∧
        CodesAre { s1 with symmem := [(0, 0x61#8), (1, 0x65#8)], arg1 := 2#32 } [0x61#8] [[false]] ∧
        s1.code[(0x65#8 : Sym).toNat]? = some noCode ∧ noCode.codev = false ∧ [0x61#8].length < (2#32).toNat) ∧
      s1Text.length = s1.arg1.toNat ∧ SymsAre s1 s1.arg0.toNat s1Text ∧ CodesAre s1 s1Text s1Codes ∧
      s1.wordSize < (65535#32).toNat + max 1 ((s1Codes.flatten.length + 31) / 32) + 1 := by
  refine ⟨⟨by decide, rfl⟩, by decide +kernel, ⟨?_, .cons (by decide +kernel) .nil, by decide +kernel, rfl, by decide⟩,
    by decide, s1_symsAre, s1_codesAre, by decide +kernel⟩
  intro k hk
  have : ∀ k, k < 2 → Memory.read [(0, 0x61#8), (1, 0x65#8)] (0 + k) = ([0x61#8, 0x65#8] : List Sym)[k]? := by decide
  exact (this k hk).trans (List.getElem?_eq_getElem hk)

theorem witness_EncodeBitCountNeverWraps : s1.Inv ∧ ∃ t, exec .encode s1 = .next t ∧ t.errcode = 0#8 :=
  ⟨s1_inv, exists_success (by decide +kernel)⟩

theorem streamIs_of {s : State} {a : Nat} {bits : List Bool}
    (h : ((List.range bits.length).all fun p => decide
      ((s.wordmem.read (a + 1 + p / 32)).map (fun v => v.getLsbD (31 - p % 32)) = some (bits.getD p false))) = true) :
    StreamIs s a bits := by
  intro p hp
  have := of_decide_eq_true (List.all_eq_true.1 h p (List.mem_range.2 hp))
  exact Option.map_eq_some_iff.1 this

theorem witness_DecodeEmitsTheCodedSymbols :
    s1Decode.rootv = true ∧ (∃ n, s1Decode.nodes[s1Decode.root]? = some n ∧ n.kind = .internal) ∧
      List.Forall₂ (fun x p => LeafAt s1Decode.nodes s1Decode.root p x) s1Text s1Codes ∧
      s1Decode.wordmem.read s1Decode.arg0.toNat = some 14#32 ∧ (14#32).toNat = s1Codes.flatten.length ∧ s1Text ≠ [] ∧
      s1Decode.arg0.toNat + ((14#32).toNat + 31) / 32 < s1Decode.wordSize ∧
      StreamIs s1Decode s1Decode.arg0.toNat s1Codes.flatten ∧
      s1Decode.arg2.toNat + s1Text.length ≤ s1Decode.symSize :=
  ⟨rfl, ⟨_, rfl, rfl⟩, s1_leaves, by decide, by decide, nofun, by decide +kernel, streamIs_of (by decide +kernel),
    by decide +kernel⟩

/-- No ROOT and a length word of 0. -/
def noBits : State := { State.reset with wordmem := [(0, 0#32)] }

theorem witness_DecodeOfNoBitsRepeatsASingleLeaf :
    (noBits.arg0.toNat < noBits.wordSize ∧ noBits.wordmem.read noBits.arg0.toNat = some 0#32 ∧ noBits.rootv = false ∧
      noBits.symSize < (65537#32).toNat ∧ noBits.arg2.toNat ≤ noBits.symSize) ∧
      (single.wordmem.read single.arg0.toNat = some 0#32 ∧ single.rootv = true ∧
        (∃ n, single.nodes[single.root]? = some n ∧ n.kind = .leaf) ∧
        single.symSize < (65533#32).toNat + single.arg1.toNat ∧ single.arg2.toNat + single.arg1.toNat ≤ single.symSize) ∧
      s1.rootv = true ∧ ∃ n, s1.nodes[s1.root]? = some n ∧ n.kind = .internal :=
  ⟨⟨by decide +kernel, by decide, rfl, by decide +kernel, by decide +kernel⟩,
    ⟨by decide, rfl, ⟨_, rfl, rfl⟩, by decide +kernel, by decide +kernel⟩, rfl, ⟨_, rfl, rfl⟩⟩

/-- Vector K9's buffer: 'a' and then the beginning of a longer code. -/
def k9 : State := { s1Decode with wordmem := [(0, 3#32), (1, 0x60000000#32)] }

theorem witness_DecodeChecksInOrder :
    State.reset.wordSize ≤ (65536#32).toNat ∧ 3#32 ≠ 0#32 ∧ noBits.rootv = false ∧
      s1.wordSize ≤ (65535#32).toNat + ((14#32).toNat + 31) / 32 ∧
      (∃ n, single.nodes[single.root]? = some n ∧ n.kind = .leaf) ∧
      (k9.rootv = true ∧ (∃ n, k9.nodes[k9.root]? = some n ∧ n.kind = .internal) ∧
        List.Forall₂ (fun x p => LeafAt k9.nodes k9.root p x) [0x61#8] [[false]] ∧
        (3#32).toNat = ([[false]].flatten ++ [true, true]).length ∧
        StreamIs k9 k9.arg0.toNat ([[false]].flatten ++ [true, true]) ∧ [true, true] ≠ [] ∧
        follow k9.nodes k9.root [true, true] = some 4 ∧ ∃ m, k9.nodes[4]? = some m ∧ m.kind = .internal) ∧
      (14#32).toNat = (s1Codes.flatten ++ []).length ∧ StreamIs s1Decode s1Decode.arg0.toNat (s1Codes.flatten ++ []) ∧
      s1Decode.symSize < (65532#32).toNat + s1Text.length :=
  ⟨by decide +kernel, by decide, rfl, by decide +kernel, ⟨_, rfl, rfl⟩,
    ⟨rfl, ⟨_, rfl, rfl⟩, .cons ⟨_, _, rfl, rfl, rfl, rfl⟩ .nil, by decide, streamIs_of (by decide +kernel), nofun, rfl,
      ⟨_, rfl, rfl⟩⟩, by decide, streamIs_of (by decide +kernel), by decide +kernel⟩

theorem witness_DecodeIgnoresPadding :
    s1Decode.wordmem.read s1Decode.arg0.toNat = some 14#32 ∧
      Memory.read [(0, 14#32), (1, 0x4C9FFFFF#32)] s1Decode.arg0.toNat = some 14#32 ∧
      (∀ p, p < (14#32).toNat →
        (Memory.read [(0, 14#32), (1, 0x4C9FFFFF#32)] (s1Decode.arg0.toNat + 1 + p / 32)).map
            (fun v => v.getLsbD (31 - p % 32)) =
          (s1Decode.wordmem.read (s1Decode.arg0.toNat + 1 + p / 32)).map (fun v => v.getLsbD (31 - p % 32))) ∧
      ∃ t, exec .decode s1Decode = .next t ∧ t.errcode = 0#8 :=
  ⟨by decide, by decide, by decide +kernel, exists_success (by decide +kernel)⟩

theorem witness_DecodeInvertsEncode :
    ∃ t u, s1.Inv ∧ s1.codetv = true ∧ exec .encode s1 = .next t ∧ t.errcode = 0#8 ∧ s1Text.length = s1.arg1.toNat ∧
      SymsAre s1 s1.arg0.toNat s1Text ∧ SameTree t u ∧ u.wordcap = t.wordcap ∧ u.arg0 = s1.arg2 ∧ u.arg1 = s1.arg1 ∧
      (∀ j, s1.arg2.toNat ≤ j → j ≤ s1.arg2.toNat + t.result1.toNat → u.wordmem.read j = t.wordmem.read j) ∧
      u.arg2.toNat + s1Text.length ≤ u.symSize := by
  obtain ⟨t, h1, h2⟩ := exists_next (o := exec .encode s1) (p := fun t => t.errcode = 0#8 ∧ t.symcap = 65536#32) (by decide +kernel)
  refine ⟨t, { t with arg0 := s1.arg2, arg1 := s1.arg1, arg2 := 65528#32 }, s1_inv, rfl, h1, (of_decide_eq_true h2).1,
    by decide, s1_symsAre, ⟨rfl, rfl, fun i n h => ⟨n, h, rfl⟩⟩, rfl, rfl, rfl, fun _ _ _ => rfl, ?_⟩
  show (65528#32).toNat + 8 ≤ t.symcap.toNat
  rw [(of_decide_eq_true h2).2]
  decide

/-- The first payload word is specified, the second is not. -/
def halfStream : State := { s1Decode with wordmem := [(0, 33#32), (1, 0#32)] }

theorem witness_UnspecifiedInputsFault :
    (State.reset.freq.read 0 = none ∧
      ({ State.reset with freq := [(0, 5#32)] } : State).freq.read 1 = none ∧
      ∀ j, j < 1 → ({ State.reset with freq := [(0, 5#32)] } : State).freq.read j ≠ none) ∧
      (SymsAre { s1 with symmem := [(0, 0x61#8)] } s1.arg0.toNat [0x61#8] ∧
        CodesAre { s1 with symmem := [(0, 0x61#8)] } [0x61#8] [[false]] ∧
        ({ s1 with symmem := [(0, 0x61#8)] } : State).symmem.read (s1.arg0.toNat + 1) = none ∧
        s1.arg0.toNat + s1.arg1.toNat ≤ s1.symSize ∧ [0x61#8].length < s1.arg1.toNat) ∧
      (State.reset.arg0.toNat < State.reset.wordSize ∧ State.reset.wordmem.read State.reset.arg0.toNat = none) ∧
      TreeOk halfStream.nodes halfStream.heap ∧ halfStream.rootv = true ∧
      (∃ n, halfStream.nodes[halfStream.root]? = some n ∧ n.kind = .internal) ∧
      halfStream.wordmem.read halfStream.arg0.toNat = some 33#32 ∧
      halfStream.arg0.toNat + ((33#32).toNat + 31) / 32 < halfStream.wordSize ∧
      StreamIs halfStream halfStream.arg0.toNat (List.replicate 32 false) ∧
      (List.replicate 32 false).length = 32 * 1 ∧ 32 * 1 < (33#32).toNat ∧
      halfStream.wordmem.read (halfStream.arg0.toNat + 1 + 1) = none := by
  refine ⟨⟨rfl, by decide, by decide⟩, ⟨?_, .cons (by decide +kernel) .nil, by decide, by decide +kernel, by decide⟩,
    ⟨by decide +kernel, rfl⟩, s1_tree, rfl, ⟨_, rfl, rfl⟩, by decide, by decide +kernel, streamIs_of (by decide +kernel),
    by decide, by decide, by decide⟩
  intro k hk
  have h0 : k = 0 := by simpa using hk
  subst h0
  rfl

theorem witness_OnlyInputMemoriesFault :
    (State.reset.startCommand 8#32).Inv ∧ step (State.reset.startCommand 8#32) = .fault (.unspecifiedRead .freq 0) :=
  ⟨⟨treeOk_nil, ⟨nofun, fun _ => rfl, nofun, nofun⟩,
    ⟨.nil, .nil, .nil, nofun, nofun, nofun, by decide +kernel, by decide +kernel⟩, by decide⟩, by rfl⟩

theorem s1Freq_inv : s1Freq.Inv where
  tree := treeOk_nil
  valid := ⟨nofun, fun _ => rfl, nofun, nofun⟩
  mem := freqState_memOk (by decide +kernel)
  err := by decide

theorem witness_EveryCommandCompletes :
    (s1Freq.Inv ∧ InputsSpecified .build s1Freq) ∧ (s1.Inv ∧ InputsSpecified .encode s1) ∧
      (s1.Inv ∧ InputsSpecified .decode s1) ∧ State.reset.Inv ∧ InputsSpecified .merge State.reset := by
  refine ⟨⟨s1Freq_inv, fun k hk h => ?_⟩, ⟨s1_inv, fun k hk _ h => ?_⟩, ⟨s1_inv, fun _ => ⟨14#32, by decide, fun m hm _ h => ?_⟩⟩,
    reset_inv, trivial⟩
  · have h256 : s1Table.length = 256 := s1_freqIs.length
    have hk' : k < s1Table.length := by rw [h256]; exact hk
    rw [s1_freqIs.entry k hk, List.getElem?_eq_getElem hk'] at h
    cases h
  · have := s1_symsAre k hk
    rw [show s1.arg0.toNat = 0 from rfl] at h
    rw [h] at this
    cases this
  · have h0 : m = 0 := by
      have : ((14#32 : Word).toNat + 31) / 32 = 1 := by decide
      omega
    subst h0
    exact absurd h (by decide)

theorem witness_InvariantsHoldAfterReset :
    (1 ≤ (1#32).toNat ∧ (1#32).toNat ≤ 65536 ∧ 2 ≤ (2#32).toNat ∧ (2#32).toNat ≤ 65536) ∧
      1 ≤ (65536#32).toNat ∧ (65536#32).toNat ≤ 65536 ∧ 2 ≤ (65536#32).toNat := by decide

theorem witness_EveryStepKeepsTheInvariants : s1.Inv ∧ ∃ t, step s1 = .next t := ⟨s1_inv, _, rfl⟩

theorem witness_RegistersReadAsTheTableSays : s1.busy = false := rfl

theorem witness_RegisterWrites : s1.busy = false := rfl

theorem witness_MemoryWindows :
    (255 < 256 ∧ s1Freq.freq.read 255 = some 0#32 ∧ State.reset.freq.read 255 = none) ∧
      (2 < 511 ∧ q1.heap[2]? = some 2 ∧ q1.hsize ≤ 510) ∧ 0x7FB < 0x7FC ∧ 0xFFF < 0x1000 ∧
      (7 < s1.symSize ∧ s1.symmem.read 7 = some 0x64#8 ∧ 65535 < s1.symSize ∧ s1.symmem.read 65535 = none) ∧
      1 < s1.wordSize ∧ s1.wordmem.read 1 = some 0x4C9C0000#32 ∧ 65535 < s1.wordSize ∧ s1.wordmem.read 65535 = none ∧
      q1.busy = false ∧ s1.busy = false ∧ s1Freq.busy = false := by decide +kernel

theorem witness_NodeWindowLayout :
    s1.busy = false ∧ 6 < 511 ∧ (∃ n, s1.nodes[6]? = some n ∧ n.left < 512 ∧ n.right < 512) ∧ s1.ncount ≤ 510 ∧ 3 < 4 :=
  ⟨rfl, by decide, ⟨_, rfl, by decide, by decide⟩, by decide, by decide⟩

theorem witness_CodeWindowLayout :
    (State.reset.busy = false ∧ State.reset.codetv = false) ∧ s1.busy = false ∧ s1.codetv = true ∧
      s1.code[0x64]? = some (codeOf [true, true, true]) ∧ (codeOf [true, true, true]).path.length ≤ 255 ∧
      s1.code[255]? = some noCode := by decide +kernel

theorem witness_ReservedAndReadOnlyLocations :
    s1.busy = false ∧ ReservedAddress s1 0x00010 ∧ ReservedAddress s1 0x027FC ∧ ReservedAddress s1 0x3FFFF ∧
      ReservedAddress { s1 with symcap := 1#32 } 0x10001 ∧ ReservedAddress { s1 with wordcap := 2#32 } 0x20002 ∧
      s1.Inv ∧ (∃ t, HostReads s1 0x001 t) ∧ (∃ t, HostReads s1 0x002 t) ∧ (∃ t, HostReads s1 0x009 t) ∧
      (∃ t, HostReads s1 0x00B t) ∧ (∃ t, HostReads s1 0x00C t) ∧ ∃ t, HostReads s1 0x00D t := by
  refine ⟨rfl, by unfold ReservedAddress; decide +kernel, by unfold ReservedAddress; decide +kernel,
    by unfold ReservedAddress; decide +kernel, by unfold ReservedAddress; decide +kernel,
    by unfold ReservedAddress; decide +kernel, s1_inv, ⟨_, hostReads_self s1⟩, ⟨_, hostReads_self s1⟩,
    ⟨_, hostReads_self s1⟩, ⟨_, hostReads_self s1⟩, ⟨_, hostReads_self s1⟩, ⟨_, hostReads_self s1⟩⟩

theorem witness_HostReadsHaveNoOtherEffect :
    ∃ c : PortCycle, c.rst = false ∧ c.we = false ∧ c.re = true := ⟨⟨false, false, true, 2#18, 0#32⟩, rfl, rfl, rfl⟩

theorem witness_BusyAccessesOnlySetHaz :
    (s1.startCommand 0#32).busy = true ∧ 2 < 0x00B ∧ 3 ≠ 1 ∧ 3 ≠ 2 ∧ ∃ t, exec .nop (s1.startCommand 0#32) = .next t :=
  ⟨rfl, by decide, by decide, by decide, _, rfl⟩

end Sys2Proof.Tests
end

section
/-! Scope (spec/00_scope.md): what reset leaves (R5, R210) and the exact bit count of ENCODE (R6). -/

namespace Sys2Proof.Machine

/-! ### Reset -/

/-- The invariant holds of a reset block with memory sizes in R5's ranges: every list is empty and no flag is set. -/
theorem resetSized_inv {symcap wordcap : Word} (hsym : 1 ≤ symcap.toNat ∧ symcap.toNat ≤ 65536)
    (hword : 2 ≤ wordcap.toNat ∧ wordcap.toNat ≤ 65536) : (State.resetSized symcap wordcap).Inv where
  tree := treeOk_nil
  valid := { root := nofun, noRoot := fun _ => rfl, tree := nofun, table := nofun }
  mem :=
    { freqWf := .nil, symWf := .nil, wordWf := .nil
      freqIn := nofun, symIn := nofun, wordIn := nofun
      symRange := hsym, wordRange := hword }
  err := Nat.zero_le _

/-- Settles O48: both premises are R5's ranges, and the rest holds of empty lists. -/
theorem invariantsHoldAfterReset : Obligations.InvariantsHoldAfterReset :=
  fun _ _ hs hs' hw hw' => resetSized_inv ⟨hs, hs'⟩ ⟨hw, hw'⟩

/-- A reset cycle leaves the values of R210's table, from any state (R216). -/
theorem applyReset_afterReset (s : State) : AfterReset s.applyReset where
  ctrl := rfl
  status := ⟨rfl, rfl, rfl, rfl, rfl⟩
  operands := ⟨rfl, rfl, rfl, rfl⟩
  results := ⟨rfl, rfl⟩
  error := ⟨rfl, rfl⟩
  counts := ⟨rfl, rfl, rfl⟩
  memories := ⟨fun _ => rfl, fun _ => rfl, fun _ => rfl⟩
  quiet := rfl

/-- `rst` is tested before the strobes (R217, log 7). -/
theorem portCycle_rst {c : PortCycle} (h : c.rst = true) (s : State) : portCycle c s = .next s.applyReset :=
  if_pos h

/-- Settles O8: a cycle with `rst` is `applyReset`, which keeps `turns` and `draws`. -/
theorem resetWinsOverStrobes : Obligations.ResetWinsOverStrobes :=
  ⟨rfl, fun s _ h =>
    ⟨s.applyReset, portCycle_rst h s, applyReset_afterReset s, State.applyReset_turns s, State.applyReset_draws s⟩⟩

/-! ### The bit count of ENCODE -/

/-- What a successful ENCODE gathered and left (R152): the input symbols and their codes, the bit count in RESULT, and
the same word at WORDMEM[ARG2]. Without the invariants the count is known only modulo 2^32. -/
theorem encode_success {s t : State} (h : exec .encode s = .next t) (h0 : t.errcode = 0#8) :
    ¬ (s.opArg1 > 0 ∧ s.codetv = false) ∧ ¬ (s.opArg1 > 0 ∧ s.opArg0 + s.opArg1 > s.symSize) ∧
      ∃ (xs : List Sym) (codes : List (List Bool)), xs.length = s.arg1.toNat ∧ SymsAre s s.arg0.toNat xs ∧
        CodesAre s xs codes ∧ t.result = toWord (bitCount codes) ∧ t.wordmem.read s.arg2.toNat = some t.result := by
  obtain ⟨d, hbody, rfl⟩ := exec_success h h0
  obtain ⟨htable, hroom, codes, hgather, -, rfl⟩ := encodeBody_ok hbody
  obtain ⟨xs, hlen, hsyms, hcodes⟩ := gatherCodes_inv hgather
  exact ⟨htable, hroom, xs, codes, hlen, hsyms, hcodes, rfl,
    Memory.read_writeList_get s.wordmem (toWord (bitCount codes) :: packWords codes) s.opArg2 0 (Nat.zero_lt_succ _)⟩

/-- Settles O39: R6's bound on the bit count (at most 65536 codes of at most 255 bits) is below 2^32, so the word that
carries the count is exact. -/
theorem encodeBitCountNeverWraps : Obligations.EncodeBitCountNeverWraps := by
  intro s t hInv h h0
  obtain ⟨htable, hroom, xs, codes, hlen, hsyms, hcodes, hresult, hword⟩ := encode_success h h0
  have hbound : bitCount codes ≤ 16711680 :=
    bitCount_eq codes ▸ encode_bound hInv hlen htable hroom hcodes
  have hexact : t.result.toNat = bitCount codes := by
    rw [hresult, toWord_toNat_of_lt (by omega)]
  exact ⟨hexact ▸ hbound, hword, xs, codes, hlen, hsyms, hcodes, hexact⟩

end Sys2Proof.Machine
end

section
/-! The engine's state (spec/10_state.md): the turns of a step, what each command writes, the invariants R32 to R35 and
R109 under every step, the code lengths (R143), GENCODE on a kept tree (R145), and the register table. -/

namespace Sys2Proof.Machine

variable {s t u : State} {i : Instr} {d : Done}

/-! ### Whose turn it is (R20, R73, log 5) -/

theorem step_noTurns (h : s.turns = []) : step s = engineTurn s := by
  rw [step, h]

theorem step_engine {ts : List Turn} (h : s.turns = .engine :: ts) : step s = engineTurn { s with turns := ts } := by
  rw [step, h]

theorem step_port {c : PortCycle} {ts : List Turn} (h : s.turns = .port c :: ts) :
    step s = portCycle c { s with turns := ts } := by
  rw [step, h]

/-- Settles O4: the engine's turn runs the decoded command while BUSY = 1 and does nothing while BUSY = 0. -/
theorem engineStepRunsTheDecodedCommand : Obligations.EngineStepRunsTheDecodedCommand := fun s ts =>
  ⟨fun _ hb hdec =>
    ⟨fun h => (step_noTurns h).trans (engineTurn_of_ok hb hdec),
      fun h => (step_engine h).trans (engineTurn_of_ok (s := { s with turns := ts }) hb hdec)⟩,
    fun hb =>
    ⟨fun h => (step_noTurns h).trans (engineTurn_idle hb),
      fun h => (step_engine h).trans (engineTurn_idle (s := { s with turns := ts }) hb)⟩⟩

/-! ### What each command writes (R23, R25, R27 to R31) -/

/-- `s` with the parts that command `i` may write taken from `t`; the completion fields of R182 and R183 apart. -/
def writtenBy (i : Instr) (s t : State) : State :=
  match i with
  | .nop => s
  | .clr | .build =>
    { s with nodes := t.nodes, heap := t.heap, root := t.root, rootv := t.rootv, codetv := t.codetv }
  | .frqclr => { s with freq := t.freq }
  | .mkleaf _ => { s with nodes := t.nodes }
  | .hins _ | .hpop | .merge => { s with nodes := t.nodes, heap := t.heap }
  | .setroot _ => { s with root := t.root, rootv := t.rootv, codetv := t.codetv }
  | .gencode => { s with code := t.code, codetv := t.codetv }
  | .encode => { s with wordmem := t.wordmem }
  | .decode => { s with symmem := t.symmem }

theorem body_writtenBy (h : body i s = .ok d) : d.state = writtenBy i s d.state := by
  cases i with
  | nop => cases h; rfl
  | clr => cases h; rfl
  | frqclr => injection h with h; subst h; rw [State.zeroFreq, writtenBy]
  | mkleaf x => obtain ⟨-, rfl⟩ := mkleafBody_ok h; rfl
  | hins k => obtain ⟨-, -, -, -, -, rfl⟩ := hinsBody_ok h; rfl
  | hpop => obtain ⟨-, -, rfl⟩ := hpopBody_ok h; rfl
  | merge => obtain ⟨t, n, hstep, rfl⟩ := mergeBody_ok h; exact mergeStep_frame hstep
  | setroot k => obtain ⟨-, rfl⟩ := setrootBody_ok h; rfl
  | build =>
    obtain ⟨fs, r, -, -, hbuilt, -, -⟩ := buildBody_built h
    rw [hbuilt.frame]
    rfl
  | gencode => obtain ⟨-, t, -, rfl⟩ := gencodeBody_ok h; rfl
  | encode => obtain ⟨-, -, codes, -, -, rfl⟩ := encodeBody_ok h; rfl
  | decode => obtain ⟨-, l, out, -, -, -, rfl⟩ := decodeBody_ok h; rfl

/-- A command's next state, error completions included: its own writes and the completion fields, nothing else. -/
theorem exec_writtenBy (h : exec i s = .next t) :
    t = { writtenBy i s t with
      result := t.result, result1 := t.result1, errcode := t.errcode, errinfo := t.errinfo,
      done := true, busy := false } := by
  rcases exec_next h with ⟨d, hbody, rfl⟩ | ⟨e, info, -, rfl⟩
  · rw [body_writtenBy hbody]
    cases i <;> rfl
  · cases i <;> rfl

/-- Settles O13: none of these fields is a completion field or one that some command writes. -/
theorem commandsLeaveTheHostRegisters : Obligations.CommandsLeaveTheHostRegisters := by
  intro i s t h
  rw [exec_writtenBy h]
  cases i <;> exact ⟨rfl, rfl, rfl, rfl, rfl, rfl, rfl, rfl, rfl, rfl, rfl⟩

/-- Settles O14: each clause is read off the command's row of `writtenBy`. -/
theorem onlyTheseCommandsWrite : Obligations.OnlyTheseCommandsWrite := by
  intro i s t h
  rw [exec_writtenBy h]
  cases i <;> simp [writtenBy]

/-- Settles O15: outside CLR and BUILD the node store only grows and changes OWN, and an error leaves it alone. -/
theorem allocatedNodesAreImmutable : Obligations.AllocatedNodesAreImmutable := by
  intro i s t hclr hbuild h k n hn
  rcases exec_next h with ⟨d, hbody, rfl⟩ | ⟨e, info, -, rfl⟩
  · obtain ⟨m, hm, hshape⟩ := body_extends hclr hbuild hbody k n hn
    exact ⟨m, hm, Node.shape_eq_iff.1 hshape⟩
  · exact ⟨n, hn, rfl, rfl, rfl, rfl, rfl⟩

/-! ### The invariants under the engine's turn -/

/-- A successful completion writes none of what R32 to R35 speak of, and ERRCODE 0 (R183). -/
theorem completeOk_inv (htree : TreeOk u.nodes u.heap) (hvalid : u.Valid) (hmem : u.MemOk) (r r1 : Word) :
    (u.completeOk r r1).Inv where
  tree := htree
  valid := valid_of_same hvalid (Extends.refl _) rfl rfl rfl rfl
  mem := mem_of_same hmem rfl rfl rfl rfl rfl
  err := Nat.zero_le _

theorem ErrorKind.code_le (e : ErrorKind) : e.code.toNat ≤ 11 := by cases e <;> decide

theorem completeError_inv (h : s.Inv) (e : ErrorKind) (info : Word) : (s.completeError e info).Inv where
  tree := h.tree
  valid := valid_of_same h.valid (Extends.refl _) rfl rfl rfl rfl
  mem := mem_of_same h.mem rfl rfl rfl rfl rfl
  err := e.code_le

theorem exec_inv (h : s.Inv) (hx : exec i s = .next t) : t.Inv := by
  rcases exec_next hx with ⟨d, hbody, rfl⟩ | ⟨e, info, -, rfl⟩
  · exact completeOk_inv (body_tree h.tree hbody) (body_valid h.valid hbody) (body_mem h.mem hbody) _ _
  · exact completeError_inv h e info

theorem engineTurn_inv (h : s.Inv) (hx : engineTurn s = .next t) : t.Inv := by
  cases hb : s.busy with
  | false => rw [engineTurn_idle hb] at hx; cases hx; exact h
  | true =>
    cases hdec : decode s.cmd with
    | ok i => exact exec_inv h (engineTurn_of_ok hb hdec ▸ hx)
    | error r =>
      rw [engineTurn_of_error hb hdec] at hx
      cases hx
      exact completeError_inv h _ _

/-! ### The invariants under a port cycle -/

/-- The invariants speak of no flag of the host's, no operand, no result and none of the model's own fields. -/
theorem inv_of_hostFields (h : s.Inv)
    (ht : t = { s with
      ie := t.ie, busy := t.busy, done := t.done, haz := t.haz, cmd := t.cmd, arg0 := t.arg0, arg1 := t.arg1,
      arg2 := t.arg2, rdata := t.rdata, draws := t.draws, turns := t.turns }) : t.Inv := by
  rw [ht]
  exact inv_of_same h rfl rfl rfl rfl rfl rfl rfl (mem_of_same h.mem rfl rfl rfl rfl rfl)

theorem Memory.write_indices_lt {w n k : Nat} {m : Memory w} (h : ∀ e ∈ m, e.1 < n) (hk : k < n) (v : BitVec w) :
    ∀ e ∈ m.write k v, e.1 < n := fun e he =>
  (Memory.mem_write he).elim (fun hnew => hnew ▸ hk) (h e)

theorem writeFreq_inv (h : s.Inv) {k : Nat} (hk : k < Config.nSym) (v : Word) :
    ({ s with freq := s.freq.write k v } : State).Inv :=
  inv_of_same h rfl rfl rfl rfl rfl rfl rfl
    { h.mem with
      freqWf := Memory.write_wf k v h.mem.freqWf
      freqIn := Memory.write_indices_lt h.mem.freqIn hk v }

theorem writeSym_inv (h : s.Inv) {k : Nat} (hk : k < s.symSize) (x : Sym) :
    ({ s with symmem := s.symmem.write k x } : State).Inv :=
  inv_of_same h rfl rfl rfl rfl rfl rfl rfl
    { h.mem with
      symWf := Memory.write_wf k x h.mem.symWf
      symIn := Memory.write_indices_lt h.mem.symIn hk x }

theorem writeWord_inv (h : s.Inv) {k : Nat} (hk : k < s.wordSize) (v : Word) :
    ({ s with wordmem := s.wordmem.write k v } : State).Inv :=
  inv_of_same h rfl rfl rfl rfl rfl rfl rfl
    { h.mem with
      wordWf := Memory.write_wf k v h.mem.wordWf
      wordIn := Memory.write_indices_lt h.mem.wordIn hk v }

/-- A register write changes host fields only. -/
theorem poke_reg_inv (h : s.Inv) (v : Word) (r : Reg) : (s.poke v (.reg r)).Inv := by
  cases r <;> exact inv_of_hostFields h rfl

/-- A write to a location that exists: the address map names no element past a memory's end. -/
theorem poke_locate_inv (h : s.Inv) (v : Word) (a : BitVec 18) : (s.poke v (s.locate a)).Inv := by
  have hbound := locate_bounds s a
  cases hl : s.locate a <;> rw [hl] at hbound
  case reg r => exact poke_reg_inv h v r
  case freq k => exact writeFreq_inv h hbound v
  case sym k => exact writeSym_inv h hbound _
  case word k => exact writeWord_inv h hbound v
  case node | heap | code | reserved => exact h

theorem hostWrite_inv (h : s.Inv) (a : BitVec 18) (v : Word) : (s.hostWrite a v).Inv := by
  rw [State.hostWrite]
  split
  · exact inv_of_hostFields h rfl
  · exact poke_locate_inv h v a

theorem hostRead_inv (h : s.Inv) (a : BitVec 18) : (s.hostRead a).Inv := by
  rw [State.hostRead]
  split
  · exact inv_of_hostFields h rfl
  · cases s.peek (s.locate a) <;> exact inv_of_hostFields h rfl

/-- A reset block keeps its memory sizes, so R5's ranges still hold (R210). -/
theorem applyReset_inv (h : s.Inv) : s.applyReset.Inv :=
  inv_of_hostFields (resetSized_inv h.mem.symRange h.mem.wordRange) rfl

theorem portCycle_inv {c : PortCycle} (h : s.Inv) (hx : portCycle c s = .next t) : t.Inv := by
  rw [portCycle] at hx
  split at hx
  · cases hx; exact applyReset_inv h
  · split at hx
    · cases hx
    · split at hx
      · cases hx; exact hostWrite_inv h _ _
      · split at hx
        · cases hx; exact hostRead_inv h _
        · cases hx; exact h

/-- Settles O49: the engine's turn and the port cycle each keep the invariants, as does taking a turn off the list. -/
theorem everyStepKeepsTheInvariants : Obligations.EveryStepKeepsTheInvariants := by
  intro s t h hstep
  cases hturns : s.turns with
  | nil => exact engineTurn_inv h (step_noTurns hturns ▸ hstep)
  | cons turn ts =>
    have hrest : ({ s with turns := ts } : State).Inv := inv_of_hostFields h rfl
    cases turn with
    | engine => exact engineTurn_inv hrest (step_engine hturns ▸ hstep)
    | port c => exact portCycle_inv hrest (step_port hturns ▸ hstep)

/-! ### Codes (R143, R145) -/

/-- An entry of the table GENCODE makes is no code, or the path to a leaf under ROOT (R140, R141). -/
theorem walkRoot_entry {w : WalkState} (h : s.walkRoot = .ok w) {e : CodeEntry} (he : e ∈ w.table) :
    e = noCode ∨ ∃ q x, LeafAt s.nodes s.root q x ∧ e = codeOf q := by
  obtain ⟨hlen, hleaf, hother, -⟩ := walkRoot_table h
  obtain ⟨k, hk⟩ := List.getElem?_of_mem he
  have hk256 : k < 256 := hlen ▸ lt_length_of_getElem? hk
  obtain ⟨x, rfl⟩ : ∃ x : Sym, x.toNat = k := ⟨BitVec.ofNatLT k hk256, rfl⟩
  by_cases hex : ∃ q, LeafAt s.nodes s.root q x
  · obtain ⟨q, hq⟩ := hex
    exact .inr ⟨q, x, hq, Option.some_injective _ (hk.symm.trans (hleaf q x hq))⟩
  · exact .inl (Option.some_injective _ (hk.symm.trans (hother x (not_exists.1 hex))))

/-- Settles O33: a code is the path to a leaf, and no path is longer than 255 steps. -/
theorem codesHaveAtMost255Bits : Obligations.CodesHaveAtMost255Bits := by
  intro s h
  refine ⟨fun _ _ _ hp => h.tree.owned.depth_le hp, fun hcodetv => ?_⟩
  obtain ⟨w, hw, hcode⟩ := h.valid.table hcodetv
  rw [hcode]
  refine ⟨(walkRoot_table hw).1, fun e he => ?_⟩
  rcases walkRoot_entry hw he with rfl | ⟨q, x, ⟨_, _, hfollow, -⟩, rfl⟩
  · exact Nat.zero_le _
  · exact h.tree.owned.depth_le hfollow

/-- GENCODE when its walk ends (R140). -/
theorem gencode_completes {w : WalkState} (hrootv : s.rootv = true) (hw : s.walkRoot = .ok w) :
    Completes .gencode s (s.setCode w.table) w.leaves w.maxlen :=
  completes_of_body <| by rw [body, gencodeBody, if_neg (by simp [hrootv]), hw]

/-- Settles O35: the walk reads nothing of the state but ROOT and the node fields that OWN is not one of. -/
theorem gencodeIsIdempotent : Obligations.GencodeIsIdempotent := by
  intro s t u h h0 hsame
  obtain ⟨d, hbody, rfl⟩ := exec_success h h0
  obtain ⟨hrootv, w, hw, rfl⟩ := gencodeBody_ok hbody
  have hwu : u.walkRoot = .ok w := walkRoot_extends (s := s) hsame.nodes hsame.root hw
  exact ⟨_, gencode_completes (hsame.rootv.trans hrootv) hwu, rfl, rfl, rfl, rfl⟩

/-! ### The register table (R21 to R25) -/

theorem regList_addr (r : Reg) : regList[r.addr]? = some r := by cases r <;> rfl

theorem locate_addr {a : BitVec 18} {r : Reg} (ha : a.toNat = r.addr) : s.locate a = .reg r := by
  have hr := regList_addr r
  have hlt : r.addr < 16 := lt_length_of_getElem? hr
  rw [locate_reg s (by omega), ha, hr]
  rfl

theorem readsValue_reg (hb : s.busy = false) (r : Reg) : ReadsValue s r.addr (s.readReg r) :=
  readsValue_of hb fun _ ha => by rw [locate_addr ha]; rfl

/-- A write to a register, while BUSY = 0 or where R212 allows it while BUSY = 1. -/
theorem hostWrites_reg (r : Reg) (h : s.busy = false ∨ writeAllowedBusy (.reg r) = true) (v : Word) :
    HostWrites s r.addr v (s.poke v (.reg r)) :=
  hostWrites_of fun _ ha => by
    rw [State.hostWrite, locate_addr ha, if_neg]
    rcases h with h | h <;> simp [h]

/-- CTRL's layout (R22). -/
theorem ctrlWord_eq (s : State) : s.ctrlWord = toWord s.ie.toNat := by
  have hlayout : ∀ b : Bool, bitAt 0 b = toWord b.toNat := by decide
  exact hlayout s.ie

/-- STATUS's layout (R23). -/
theorem statusWord_eq (s : State) : s.statusWord = toWord s.statusNumber := by
  have hlayout : ∀ b0 b1 b2 b3 b4 b5 : Bool,
      bitAt 0 b0 ||| bitAt 1 b1 ||| bitAt 2 b2 ||| bitAt 3 b3 ||| bitAt 4 b4 ||| bitAt 5 b5 =
        toWord (b0.toNat + 2 * b1.toNat + 4 * b2.toNat + 8 * b3.toNat + 16 * b4.toNat + 32 * b5.toNat) := by decide
  exact hlayout s.busy s.done s.err s.haz s.rootv s.codetv

theorem readReg_errcode (s : State) : s.readReg .errcode = toWord s.errcode.toNat :=
  (BitVec.ofNat_toNat 32 s.errcode).symm

/-- Settles O50: each address is a register's place in the table, and CTRL, STATUS and ERRCODE have their layouts. -/
theorem registersReadAsTheTableSays : Obligations.RegistersReadAsTheTableSays := by
  intro s hb
  rw [← ctrlWord_eq, ← statusWord_eq, ← readReg_errcode]
  have hread := readsValue_reg hb
  exact ⟨hread .id, hread .ctrl, hread .status, hread .cmd, hread .arg0, hread .arg1, hread .arg2, hread .result,
    hread .result1, hread .errcode, hread .errinfo, hread .root, hread .ncount, hread .hsize, hread .symcap,
    hread .wordcap⟩

/-- Settles O51: each address is a register's place in the table; CTRL and STATUS take a write while BUSY = 1 too. -/
theorem registerWrites : Obligations.RegisterWrites := fun _ v =>
  ⟨hostWrites_reg .ctrl (.inr rfl) v, hostWrites_reg .status (.inr rfl) v, fun hb =>
    ⟨hostWrites_reg .cmd (.inl hb) v, hostWrites_reg .arg0 (.inl hb) v, hostWrites_reg .arg1 (.inl hb) v,
      hostWrites_reg .arg2 (.inl hb) v⟩⟩

end Sys2Proof.Machine
end

section
/-! Memory (spec/20_memory.md): which engine reads fault (R66, R211), and what the host reads and writes in the windows
of the address map (R60 to R65, R70). -/

namespace Sys2Proof.Machine

variable {s t : State}

/-! ### Engine reads of the input memories (R66) -/

/-- BUILD reads FREQ in order, so the first unspecified element is the one its fault names. -/
theorem readFreqs_first_unspecified {ks : List Nat} (hks : ∀ j ∈ ks, s.freq.read j ≠ none) {k : Nat}
    (hk : s.freq.read k = none) (rest : List Nat) : s.readFreqs (ks ++ k :: rest) = unspecified .freq k := by
  induction ks with
  | nil =>
    rw [List.nil_append, State.readFreqs, State.engineFreq, hk]
    rfl
  | cons j ks ih =>
    obtain ⟨f, hf⟩ := Option.ne_none_iff_exists'.1 (hks j List.mem_cons_self)
    rw [List.cons_append, State.readFreqs, State.engineFreq, hf, ih fun i hi => hks i (List.mem_cons_of_mem j hi)]
    rfl

theorem buildBody_unspecified {k : Nat} (hk : k < 256) (hnone : s.freq.read k = none)
    (hfirst : ∀ j, j < k → s.freq.read j ≠ none) : buildBody s = unspecified .freq k := by
  obtain ⟨rest, hrest⟩ : ∃ rest, List.range Config.nSym = List.range k ++ k :: rest := by
    rw [Config.nSym_eq, show 256 = k + ((255 - k) + 1) by omega, List.range_add, List.range_succ_eq_map, List.map_cons]
    exact ⟨_, rfl⟩
  rw [buildBody, hrest, readFreqs_first_unspecified (fun j hj => hfirst j (List.mem_range.1 hj)) hnone]
  rfl

/-- One symbol with a code is gathered in front of the rest (R152). -/
theorem gatherCodes_succ {a n k : Nat} {x : Sym} {p : List Bool} (hx : s.symmem.read (a + k) = some x)
    (hcode : s.code[x.toNat]? = some { codev := true, path := p }) :
    s.gatherCodes a (n + 1) k = (s.gatherCodes a n (k + 1)).map (p :: ·) := by
  simp only [State.gatherCodes, State.engineSym, hx, State.engineCode, hcode, specified, bind, Except.bind]
  cases s.gatherCodes a n (k + 1) <;> rfl

/-- ENCODE gathers symbol by symbol, so it stops at an unspecified symbol once all before it are known. -/
theorem gatherCodes_unspecified {a n k : Nat} {xs : List Sym} {codes : List (List Bool)} (hsyms : SymsAre s (a + k) xs)
    (hcodes : CodesAre s xs codes) (hnone : s.symmem.read (a + k + xs.length) = none) :
    s.gatherCodes a (xs.length + 1 + n) k = unspecified .symmem (a + k + xs.length) := by
  induction hcodes generalizing k with
  | nil =>
    rw [show ([] : List Sym).length + 1 + n = n + 1 from Nat.add_comm 1 n, State.gatherCodes, State.engineSym]
    rw [List.length_nil, Nat.add_zero] at hnone
    rw [hnone]
    rfl
  | @cons x p xs codes hx _ ih =>
    have hread : s.symmem.read (a + k) = some x := hsyms 0 (Nat.zero_lt_succ _)
    have hshift : ∀ j, a + (k + 1) + j = a + k + (j + 1) := by omega
    have hrest := ih (k := k + 1) (fun j hj => hshift j ▸ hsyms (j + 1) (Nat.succ_lt_succ hj)) (hshift _ ▸ hnone)
    rw [hshift] at hrest
    rw [List.length_cons, show xs.length + 1 + 1 + n = (xs.length + 1 + n) + 1 by omega, gatherCodes_succ hread hx,
      hrest]
    rfl

theorem encodeBody_unspecified {xs : List Sym} {codes : List (List Bool)} (hcodetv : s.codetv = true)
    (hroom : s.arg0.toNat + s.arg1.toNat ≤ s.symSize) (hlen : xs.length < s.arg1.toNat)
    (hsyms : SymsAre s s.arg0.toNat xs) (hcodes : CodesAre s xs codes)
    (hnone : s.symmem.read (s.arg0.toNat + xs.length) = none) :
    encodeBody s = unspecified .symmem (s.arg0.toNat + xs.length) := by
  have hgather := gatherCodes_unspecified (a := s.arg0.toNat) (k := 0) (n := s.arg1.toNat - (xs.length + 1)) hsyms
    hcodes hnone
  rw [show xs.length + 1 + (s.arg1.toNat - (xs.length + 1)) = s.arg1.toNat by omega] at hgather
  rw [encodeBody, if_neg (by simp [hcodetv]), if_neg (by simp only [State.opArg0, State.opArg1]; omega), State.opArg0,
    State.opArg1, hgather]
  rfl

theorem engineWord_none {k : Nat} (h : s.wordmem.read k = none) : s.engineWord k = unspecified .wordmem k := by
  rw [State.engineWord, h]
  rfl

theorem decodeBody_noLength (ha : s.arg0.toNat < s.wordSize) (hnone : s.wordmem.read s.arg0.toNat = none) :
    decodeBody s = unspecified .wordmem s.arg0.toNat := by
  rw [decodeBody, State.opArg0, if_neg (Nat.not_le.2 ha), engineWord_none hnone]
  rfl

/-- The traversal of a sound tree passes the specified payload words and stops at the first word it then finds
unspecified (R156). -/
theorem traverseFrom_unspecified (ho : Owned s.nodes s.heap) {root : Node} (hroot : s.nodes[s.root]? = some root)
    (hkind : root.kind = .internal) {a m l : Nat} {bits : List Bool} (hstream : StreamIs s a bits)
    (hbits : bits.length = 32 * m) (hl : 32 * m < l) (hnone : s.wordmem.read (a + 1 + m) = none) :
    s.traverseFrom a l 0 { cur := s.root, out := [], start := 0 } = unspecified .wordmem (a + 1 + m) := by
  obtain ⟨c, hc⟩ := traverseBits_total ho hroot hkind (bits := bits) (p := 0)
    (c := { cur := s.root, out := [], start := 0 }) hroot hkind
  have hfirst := traverse_eq hstream
  rw [State.traverse, hc, hbits] at hfirst
  have hword : a + 1 + (0 + 32 * m) / 32 = a + 1 + m := by omega
  rw [show l = 32 * m + ((l - 32 * m - 1) + 1) by omega, traverseFrom_add, hfirst, Except.bind, State.traverseFrom,
    State.streamBit, hword, engineWord_none hnone]
  rfl

theorem decodeBody_unspecified (ho : Owned s.nodes s.heap) (hrootv : s.rootv = true) {root : Node}
    (hroot : s.nodes[s.root]? = some root) (hkind : root.kind = .internal) {l : Word}
    (hlength : s.wordmem.read s.arg0.toNat = some l) (hroom : s.arg0.toNat + (l.toNat + 31) / 32 < s.wordSize)
    {bits : List Bool} {m : Nat} (hstream : StreamIs s s.arg0.toNat bits) (hbits : bits.length = 32 * m)
    (hl : 32 * m < l.toNat) (hnone : s.wordmem.read (s.arg0.toNat + 1 + m) = none) :
    body .decode s = unspecified .wordmem (s.arg0.toNat + 1 + m) := by
  rw [decodeBody_eq (Nat.lt_of_le_of_lt (Nat.le_add_right ..) hroom) hlength,
    decodeOut_internal (Nat.ne_of_gt (Nat.zero_lt_of_lt hl)) hrootv hroom hroot hkind,
    traverseFrom_unspecified ho hroot hkind hstream hbits hl hnone]
  rfl

/-- Settles O45: each body reads its inputs in order and stops at the first read that finds nothing. -/
theorem unspecifiedInputsFault : Obligations.UnspecifiedInputsFault :=
  ⟨fun _ _ hk hnone hfirst => exec_of_body_fault (i := .build) (buildBody_unspecified hk hnone hfirst),
    fun _ _ _ hcodetv hroom hlen hsyms hcodes hnone =>
      exec_of_body_fault (i := .encode) (encodeBody_unspecified hcodetv hroom hlen hsyms hcodes hnone),
    fun _ ha hnone => exec_of_body_fault (i := .decode) (decodeBody_noLength ha hnone),
    fun _ _ _ _ _ htree hrootv hroot hkind hlength hroom hstream hbits hl hnone =>
      exec_of_body_fault
        (decodeBody_unspecified htree.owned hrootv hroot hkind hlength hroom hstream hbits hl hnone)⟩

/-! ### Which faults a step can end in (R66, R189) -/

/-- `f` is the engine's read of an element of FREQ, SYMMEM or WORDMEM that exists and has no contents. -/
def UnspecifiedInput (s : State) (f : Fault) : Prop :=
  (∃ k, k < 256 ∧ s.freq.read k = none ∧ f = .unspecifiedRead .freq k) ∨
    (∃ k, k < s.symSize ∧ s.symmem.read k = none ∧ f = .unspecifiedRead .symmem k) ∨
    ∃ k, k < s.wordSize ∧ s.wordmem.read k = none ∧ f = .unspecifiedRead .wordmem k

theorem exec_fault_unspecifiedInput (h : s.Inv) {i : Instr} {f : Fault} (hx : exec i s = .fault f) :
    UnspecifiedInput s f := by
  rcases body_fault h (exec_fault hx) with ⟨-, hfreq⟩ | ⟨-, j, hj, hroom, hnone, rfl⟩ |
    ⟨-, ha, ⟨hnone, rfl⟩ | ⟨l, m, -, hm, hroom, hnone, rfl⟩⟩
  · exact .inl hfreq
  · exact .inr (.inl ⟨_, by omega, hnone, rfl⟩)
  · exact .inr (.inr ⟨_, ha, hnone, rfl⟩)
  · exact .inr (.inr ⟨_, by omega, hnone, rfl⟩)

theorem engineTurn_fault_unspecifiedInput (h : s.Inv) {f : Fault} (hx : engineTurn s = .fault f) :
    UnspecifiedInput s f := by
  cases hb : s.busy with
  | false => rw [engineTurn_idle hb] at hx; cases hx
  | true =>
    cases hdec : decode s.cmd with
    | ok i => exact exec_fault_unspecifiedInput h (engineTurn_of_ok hb hdec ▸ hx)
    | error r => rw [engineTurn_of_error hb hdec] at hx; cases hx

theorem portCycle_ne_fault (c : PortCycle) (s : State) (f : Fault) : portCycle c s ≠ .fault f :=
  ite_ne_of nofun (ite_ne_of nofun (ite_ne_of nofun (ite_ne_of nofun nofun)))

/-- Settles O46: a port cycle never faults, and no command reads an internal array where it has no contents. -/
theorem onlyInputMemoriesFault : Obligations.OnlyInputMemoriesFault := by
  intro s f h hstep
  cases hturns : s.turns with
  | nil => exact engineTurn_fault_unspecifiedInput h (step_noTurns hturns ▸ hstep)
  | cons turn ts =>
    cases turn with
    | engine =>
      have hrest : ({ s with turns := ts } : State).Inv := inv_of_hostFields h rfl
      exact engineTurn_fault_unspecifiedInput hrest (step_engine hturns ▸ hstep)
    | port c => exact absurd (step_port hturns ▸ hstep) (portCycle_ne_fault c _ f)

/-! ### What a port address names (R61) -/

/-- The port's word address `a` names the location `l`. -/
def AddressNames (s : State) (a : Nat) (l : Loc) : Prop := ∀ b : BitVec 18, b.toNat = a → s.locate b = l

section Access

variable {a : Nat} {l : Loc}

theorem AddressNames.readsValue (h : AddressNames s a l) (hb : s.busy = false) {v : Word} (hv : s.peek l = some v) :
    ReadsValue s a v :=
  readsValue_of hb fun b ha => (congrArg s.peek (h b ha)).trans hv

theorem AddressNames.readsAnything (h : AddressNames s a l) (hb : s.busy = false) (hv : s.peek l = none) :
    ReadsAnything s a :=
  readsAnything_of hb fun b ha => (congrArg s.peek (h b ha)).trans hv

theorem AddressNames.hostWrites (h : AddressNames s a l) (hb : s.busy = false) (v : Word) :
    HostWrites s a v (s.poke v l) :=
  hostWrites_idle hb fun b ha => congrArg (s.poke v) (h b ha)

end Access

theorem names_freq {k : Nat} (hk : k < 256) : AddressNames s (0x01000 + k) (.freq k) :=
  fun _ ha => locate_freq s ha hk

theorem names_node {i w : Nat} (hi : i < 511) (hw : w < 4) : AddressNames s (0x02000 + 4 * i + w) (.node i w) :=
  fun _ ha => locate_node s ha hi hw

theorem names_heap {k : Nat} (hk : k < 511) : AddressNames s (0x03000 + k) (.heap k) :=
  fun _ ha => locate_heap s ha hk

theorem names_code {x w : Nat} (hx : x < 256) (hw : w < 16) : AddressNames s (0x04000 + 16 * x + w) (.code x w) :=
  fun _ ha => locate_code s ha hx hw

theorem names_sym {k : Nat} (hk : k < s.symSize) (hk' : k < 65536) : AddressNames s (0x10000 + k) (.sym k) :=
  fun _ ha => locate_sym s ha hk' hk

theorem names_word {k : Nat} (hk : k < s.wordSize) (hk' : k < 65536) : AddressNames s (0x20000 + k) (.word k) :=
  fun _ ha => locate_word s ha hk' hk

theorem names_reg (r : Reg) : AddressNames s r.addr (.reg r) := fun _ ha => locate_addr ha

theorem names_reserved {a : Nat} (h : ReservedAddress s a) : AddressNames s a .reserved :=
  fun _ ha => locate_reserved s (ha ▸ h)

/-- Every word of the NODE window ignores writes (R62). -/
theorem hostWrites_nodeWindow (hb : s.busy = false) {k : Nat} (hk : k < 0x7FC) (v : Word) :
    HostWrites s (0x02000 + k) v s := by
  have hnames := names_node (s := s) (i := k / 4) (w := k % 4) (by omega) (by omega)
  rw [show 0x02000 + 4 * (k / 4) + k % 4 = 0x02000 + k by omega] at hnames
  exact hnames.hostWrites hb v

/-- Every word of the HEAP window ignores writes (R62). -/
theorem hostWrites_heapWindow (hb : s.busy = false) {k : Nat} (hk : k < 511) (v : Word) :
    HostWrites s (0x03000 + k) v s :=
  (names_heap hk).hostWrites hb v

/-- Every word of the CODE window ignores writes (R62). -/
theorem hostWrites_codeWindow (hb : s.busy = false) {k : Nat} (hk : k < 0x1000) (v : Word) :
    HostWrites s (0x04000 + k) v s := by
  have hnames := names_code (s := s) (x := k / 16) (w := k % 16) (by omega) (by omega)
  rw [show 0x04000 + 16 * (k / 16) + k % 16 = 0x04000 + k by omega] at hnames
  exact hnames.hostWrites hb v

/-- Settles O52: each address is one element's, and a write to an element changes what that element reads as only. -/
theorem memoryWindows : Obligations.MemoryWindows := by
  intro s k hb
  refine ⟨fun hk => ?freq, fun hk => ?heap, fun hk => hostWrites_nodeWindow hb hk,
    fun hk => hostWrites_codeWindow hb hk, fun hk hk' => ?sym, fun hk hk' => ?word⟩
  case freq =>
    have hnames := names_freq (s := s) hk
    exact ⟨fun _ hf => hnames.readsValue hb hf, hnames.readsAnything hb,
      fun v => ⟨s.freq.write k v, hnames.hostWrites hb v, fun j => Memory.read_write s.freq k j v⟩⟩
  case heap =>
    have hnames := names_heap (s := s) hk
    exact ⟨fun _ hi => hnames.readsValue hb (congrArg (Option.map toWord) hi),
      fun hsize => hnames.readsAnything hb (congrArg (Option.map toWord) (List.getElem?_eq_none hsize)),
      hostWrites_heapWindow hb hk⟩
  case sym =>
    have hnames := names_sym hk hk'
    refine ⟨fun x hx => hnames.readsValue hb ?_, fun hnone => hnames.readsAnything hb ?_,
      fun v => ⟨_, hnames.hostWrites hb v, fun j => Memory.read_write s.symmem k j (BitVec.ofNat 8 v.toNat)⟩⟩
    · rw [State.peek, hx]; exact congrArg some (BitVec.ofNat_toNat 32 x).symm
    · rw [State.peek, hnone]; rfl
  case word =>
    have hnames := names_word hk hk'
    exact ⟨fun _ hv => hnames.readsValue hb hv, hnames.readsAnything hb,
      fun v => ⟨s.wordmem.write k v, hnames.hostWrites hb v, fun j => Memory.read_write s.wordmem k j v⟩⟩

/-! ### The words of a node and of a code entry (R63, R64) -/

/-- Fields laid side by side, as numbers. -/
theorem toNat_append_eq_add {m n : Nat} (x : BitVec m) (y : BitVec n) :
    (x ++ y).toNat = x.toNat * 2 ^ n + y.toNat := by
  rw [BitVec.toNat_append, ← Nat.shiftLeft_add_eq_or_of_lt y.isLt, Nat.shiftLeft_eq]

theorem nodeWord_zero (n : Node) :
    nodeWord n 0 = toWord (n.kind.bits.toNat * 2 ^ 31 + n.own.bits.toNat * 2 ^ 29 + n.sym.toNat) := by
  refine BitVec.eq_of_toNat_eq ?_
  rw [nodeWord, toNat_append_eq_add, toNat_append_eq_add, toNat_append_eq_add, toWord_toNat]
  have hkind := n.kind.bits.isLt
  have hown := n.own.bits.isLt
  have hsym := n.sym.isLt
  rw [BitVec.toNat_ofNat]
  omega

theorem nodeWord_two {n : Node} (hleft : n.left < 512) (hright : n.right < 512) :
    nodeWord n 2 = toWord (n.right * 2 ^ 16 + n.left) := by
  refine BitVec.eq_of_toNat_eq ?_
  rw [nodeWord, toNat_append_eq_add, toNat_append_eq_add, toNat_append_eq_add, toWord_toNat]
  simp only [BitVec.toNat_ofNat]
  omega

/-- Settles O53: word `w` of node `i` is `nodeWord`, and an element past NCOUNT has no words. -/
theorem nodeWindowLayout : Obligations.NodeWindowLayout := by
  intro s i hb hi
  refine ⟨fun n hn hleft hright => ?_, fun hcount w hw =>
    (names_node hi hw).readsAnything hb
      (congrArg (Option.map fun n => nodeWord n w) (List.getElem?_eq_none hcount))⟩
  have hread : ∀ w, w < 4 → ReadsValue s (0x02000 + 4 * i + w) (nodeWord n w) := fun w hw =>
    (names_node hi hw).readsValue hb (congrArg (Option.map fun n => nodeWord n w) hn)
  refine ⟨?_, hread 1 (by decide), nodeWord_two hleft hright ▸ hread 2 (by decide), hread 3 (by decide)⟩
  have hword := hread 0 (by decide)
  rw [nodeWord_zero] at hword
  revert hword
  cases n.kind <;> cases n.own <;> exact id

theorem codeWord_zero {e : CodeEntry} (hlen : e.path.length ≤ 255) :
    codeWord e 0 = toWord (e.codev.toNat * 2 ^ 31 + e.path.length) := by
  refine BitVec.eq_of_toNat_eq ?_
  have hcodev := e.codev.toNat_lt
  rw [codeWord, if_pos rfl, toNat_append_eq_add, toNat_append_eq_add, toWord_toNat, BitVec.toNat_ofBool, CodeEntry.len]
  simp only [BitVec.toNat_ofNat]
  omega

theorem codeWord_bits {w : Nat} (e : CodeEntry) (h1 : 1 ≤ w) (h8 : w ≤ 8) : codeWord e w = codeBits e w := by
  rw [codeWord, if_neg (by omega), if_pos h8]

theorem codeWord_reserved {w : Nat} (e : CodeEntry) (h9 : 9 ≤ w) : codeWord e w = 0#32 := by
  rw [codeWord, if_neg (by omega), if_neg (by omega)]

/-- Past LEN an entry's bits are 0, the bit BITS[255] that does not exist among them (R30, R64). -/
theorem CodeEntry.bit_eq {e : CodeEntry} (hlen : e.path.length ≤ 255) (j : Nat) : e.bit j = e.path.getD j false := by
  rw [CodeEntry.bit, Config.maxCodeLen_eq]
  by_cases hj : j < 255
  · simp [hj]
  · simp [List.getElem?_eq_none (show e.path.length ≤ j by omega)]

theorem getLsbD_bitAt {n j : Nat} (hj : j < 32) (b : Bool) : (bitAt n b).getLsbD j = (decide (j = n) && b) := by
  rw [bitAt, BitVec.getLsbD_shiftLeft, BitVec.getLsbD_setWidth, BitVec.getLsbD_ofBool]
  rcases Nat.lt_trichotomy j n with hlt | rfl | hgt
  · simp [hlt, Nat.ne_of_lt hlt]
  · simp [hj]
  · simp [Nat.ne_of_gt hgt, Nat.sub_ne_zero_of_lt hgt]

theorem getLsbD_foldl_or (f : Nat → Word) (l : List Nat) (v : Word) (j : Nat) :
    (l.foldl (fun v t => v ||| f t) v).getLsbD j = (v.getLsbD j || l.any fun t => (f t).getLsbD j) := by
  induction l generalizing v with
  | nil => simp
  | cons t l ih => rw [List.foldl_cons, ih, BitVec.getLsbD_or, List.any_cons, Bool.or_assoc]

/-- Of the bits that make up the word only the one placed at `31 - t` shows there. -/
theorem codeBits_getLsbD (e : CodeEntry) (w : Nat) {t : Nat} (ht : t < 32) :
    (codeBits e w).getLsbD (31 - t) = e.bit (32 * (w - 1) + t) := by
  rw [codeBits, getLsbD_foldl_or, BitVec.getLsbD_zero, Bool.false_or, Bool.eq_iff_iff, List.any_eq_true]
  simp only [getLsbD_bitAt (show 31 - t < 32 by omega), Bool.and_eq_true, decide_eq_true_eq, List.mem_range]
  constructor
  · rintro ⟨t', ht', hpos, hbit⟩
    rwa [show t = t' by omega]
  · exact fun hbit => ⟨t, ht, rfl, hbit⟩

/-- Settles O54: word `w` of an entry is `codeWord` while CODETV = 1, and nothing while CODETV = 0. -/
theorem codeWindowLayout : Obligations.CodeWindowLayout := by
  intro s x hb hx
  refine ⟨fun hcodetv w hw => (names_code hx hw).readsAnything hb (by rw [State.peek, hcodetv]; rfl),
    fun hcodetv e he hlen => ?_⟩
  have hread : ∀ w, w < 16 → ReadsValue s (0x04000 + 16 * x + w) (codeWord e w) := fun w hw =>
    (names_code hx hw).readsValue hb (by rw [State.peek, hcodetv, he]; rfl)
  refine ⟨codeWord_zero hlen ▸ hread 0 (by decide), fun w h1 h8 => ⟨codeBits e w, ?_, fun t ht => ?_⟩,
    fun w h9 h15 => codeWord_reserved e h9 ▸ hread w (by omega)⟩
  · exact codeWord_bits e h1 h8 ▸ hread w (by omega)
  · rw [codeBits_getLsbD e w ht, CodeEntry.bit_eq hlen]

/-! ### Reserved and read-only locations (R65) -/

theorem exists_reg_addr {a : Nat} (ha : a < 16) : ∃ r : Reg, r.addr = a := by
  have hall : ∀ k < 16, ∃ r ∈ regList, r.addr = k := by decide
  obtain ⟨r, -, hr⟩ := hall a ha
  exact ⟨r, hr⟩

/-- ID and the registers from RESULT on ignore writes (R65). -/
theorem poke_readOnlyReg {r : Reg} (h : r.addr = 0x000 ∨ 0x007 ≤ r.addr) (v : Word) : s.poke v (.reg r) = s := by
  cases r
  case ctrl | status | cmd | arg0 | arg1 | arg2 => exact absurd h (by decide)
  all_goals rfl

theorem hostWrites_readOnlyReg (hb : s.busy = false) {a : Nat} (ha : a = 0x000 ∨ (0x007 ≤ a ∧ a ≤ 0x00F)) (v : Word) :
    HostWrites s a v s := by
  obtain ⟨r, rfl⟩ := exists_reg_addr (show a < 16 by omega)
  have hwrites := (names_reg r).hostWrites hb v
  rwa [poke_readOnlyReg (by omega)] at hwrites

/-- Every read-only address ignores writes, register or window (R62, R65). -/
theorem hostWrites_readOnly (hb : s.busy = false) {a : Nat} (v : Word)
    (ha : a = 0x000 ∨ (0x007 ≤ a ∧ a ≤ 0x00F) ∨ (0x02000 ≤ a ∧ a < 0x027FC) ∨ (0x03000 ≤ a ∧ a < 0x031FF) ∨
      (0x04000 ≤ a ∧ a < 0x05000)) : HostWrites s a v s := by
  rcases ha with ha | ha | ⟨hlo, hhi⟩ | ⟨hlo, hhi⟩ | ⟨hlo, hhi⟩
  · exact hostWrites_readOnlyReg hb (.inl ha) v
  · exact hostWrites_readOnlyReg hb (.inr ha) v
  · obtain ⟨k, rfl⟩ := Nat.exists_eq_add_of_le hlo
    exact hostWrites_nodeWindow hb (by omega) v
  · obtain ⟨k, rfl⟩ := Nat.exists_eq_add_of_le hlo
    exact hostWrites_heapWindow hb (by omega) v
  · obtain ⟨k, rfl⟩ := Nat.exists_eq_add_of_le hlo
    exact hostWrites_codeWindow hb (by omega) v

theorem hostReads_reg_rdata (hb : s.busy = false) (r : Reg) (h : HostReads s r.addr t) : t.rdata = s.readReg r := by
  have haddr : r.addr < 2 ^ 18 := by cases r <;> decide
  rw [hostReads_eq haddr h, ← hostReads_eq haddr (readsValue_reg hb r)]

theorem statusNumber_lt (s : State) : s.statusNumber < 64 := by
  have hbound : ∀ b0 b1 b2 b3 b4 b5 : Bool,
      b0.toNat + 2 * b1.toNat + 4 * b2.toNat + 8 * b3.toNat + 16 * b4.toNat + 32 * b5.toNat < 64 := by decide
  exact hbound ..

/-- ROOT is the index of an allocated node, or 0 (R25, R35). -/
theorem State.Inv.root_lt (h : s.Inv) : s.root < 512 := by
  have hcap : s.ncount ≤ 511 := h.tree.owned.cap
  cases hrootv : s.rootv with
  | true => have := h.valid.root hrootv; omega
  | false => rw [h.valid.noRoot hrootv]; decide

/-- A word that carries a small number reads as that number (R9). -/
theorem toWord_toNat_lt {n bound : Nat} (h : n < bound) : (toWord n).toNat < bound :=
  Nat.lt_of_le_of_lt (toWord_toNat n ▸ Nat.mod_le ..) h

/-- Settles O55: reserved addresses and read-only locations each by what they name, reserved bits by the invariants. -/
theorem reservedAndReadOnlyLocations : Obligations.ReservedAndReadOnlyLocations := by
  intro s a v hb
  refine ⟨fun ha => ⟨(names_reserved ha).readsValue hb rfl, (names_reserved ha).hostWrites hb v⟩,
    hostWrites_readOnly hb v, fun h t => ?_⟩
  have hncount : s.ncount ≤ 511 := h.tree.owned.cap
  have hhsize : s.hsize ≤ s.ncount := h.tree.owned.hsize_le
  have hread := hostReads_reg_rdata (t := t) hb
  refine ⟨fun ht => ?ctrl, fun ht => ?status, fun ht => ?errcode, fun ht => ?root, fun ht => ?ncount, fun ht => ?hsize⟩
  case ctrl => rw [hread .ctrl ht, State.readReg, ctrlWord_eq]; exact toWord_toNat_lt s.ie.toNat_lt
  case status => rw [hread .status ht, State.readReg, statusWord_eq]; exact toWord_toNat_lt (statusNumber_lt s)
  case errcode => rw [hread .errcode ht, readReg_errcode]; exact toWord_toNat_lt s.errcode.isLt
  case root => rw [hread .root ht]; exact toWord_toNat_lt h.root_lt
  case ncount => rw [hread .ncount ht]; exact toWord_toNat_lt (by omega)
  case hsize => rw [hread .hsize ht]; exact toWord_toNat_lt (by omega)

/-! ### What a host read changes (R70, R212) -/

theorem answer_eq (s : State) (data : Option Word) :
    ∃ (v : Word) (n : Nat), s.answer data = { s with rdata := v, draws := n } := by
  cases data with
  | none => exact ⟨_, _, rfl⟩
  | some v => exact ⟨v, s.draws, rfl⟩

/-- Settles O56: the reads R212 forbids are those above address 2, and any other only answers. -/
theorem hostReadsHaveNoOtherEffect : Obligations.HostReadsHaveNoOtherEffect := by
  intro s c hrst hwe hre
  rw [portCycle_read s hrst hwe hre, State.hostRead, locate_allowed, ← decide_not, decide_eq_decide.2 Nat.not_le]
  cases s.busy && decide (2 < c.addr.toNat) with
  | true => exact ⟨Config.freeWord s.draws, s.draws + 1, by rw [if_pos rfl, Bool.or_true]; rfl⟩
  | false =>
    obtain ⟨v, n, hanswer⟩ := answer_eq s (s.peek (s.locate c.addr))
    exact ⟨v, n, by rw [if_neg Bool.false_ne_true, hanswer, Bool.or_false]⟩

/-! ### Port turns (R73, R217) -/

/-- Settles O5: `step` hands the cycle at the head of the turns to the port. -/
theorem portTurnIsOnePortCycle : Obligations.PortTurnIsOnePortCycle := fun _ _ _ => step_port

end Sys2Proof.Machine
end

section
/-! Command words (spec/30_encoding.md): each format's round trip (R81 to R83), the command each opcode selects (R85 to
R87), and the completion fields of a success (R183). -/

namespace Sys2Proof

variable {c : Word} {op : BitVec 8} {i : Instr}

/-! ### The fields of an encoded word (R80, R82, R83) -/

@[simp] theorem opField_encodeFS (op : BitVec 8) (x : Sym) : opField (encodeFS op x) = op := by
  apply BitVec.eq_of_toNat_eq
  rw [opField_toNat, encodeFS_toNat]
  omega

@[simp] theorem opField_encodeFN (op : BitVec 8) (k : Nat) : opField (encodeFN op k) = op := by
  apply BitVec.eq_of_toNat_eq
  rw [opField_toNat, encodeFN_toNat]
  omega

theorem decodeFS_encodeFS (op : BitVec 8) (x : Sym) (f : Sym → Instr) : decodeFS (encodeFS op x) f = .ok (f x) := by
  have hrsv : rsvFS (encodeFS op x) = 0 := by rw [rsvFS_eq_zero, encodeFS_toNat]; omega
  have hsym : symField (encodeFS op x) = x := by
    apply BitVec.eq_of_toNat_eq
    rw [symField_eq, encodeFS_toNat, BitVec.toNat_ofNat]
    omega
  rw [decodeFS, if_pos hrsv, hsym]

theorem decodeFN_encodeFN (op : BitVec 8) {k : Nat} (hk : k < 512) (f : Nat → Instr) :
    decodeFN (encodeFN op k) f = .ok (f k) := by
  have hrsv : rsvFN (encodeFN op k) = 0 := by rw [rsvFN_eq_zero, encodeFN_toNat]; omega
  have hidx : idxField (encodeFN op k) = k := by rw [idxField_eq, encodeFN_toNat]; omega
  rw [decodeFN, if_pos hrsv, hidx]

/-- The word of a well-formed command decodes to it; only an index of 512 or more would lose bits in its field (R83). -/
theorem decode_encode (h : i.WellFormed) : decode (encode i) = .ok i := by
  cases i with
  | mkleaf x => rw [encode, decode, opField_encodeFS]; exact decodeFS_encodeFS _ x _
  | hins k => rw [encode, decode, opField_encodeFN]; exact decodeFN_encodeFN _ (of_decide_eq_true h) _
  | setroot k => rw [encode, decode, opField_encodeFN]; exact decodeFN_encodeFN _ (of_decide_eq_true h) _
  | nop | clr | frqclr | hpop | merge | build | gencode | encode | decode => rfl

/-! ### A word that decodes (R81 to R83): its fields and the zero bits are the whole word -/

theorem encode_of_decodeF0 {j : Instr} (h : decodeF0 c j = .ok i) (hwf : j.WellFormed)
    (henc : encode j = encodeF0 op) (hop : (opField c).toNat = op.toNat) : i.WellFormed ∧ encode i = c := by
  unfold decodeF0 at h
  split at h
  · rename_i hrsv
    cases h
    refine ⟨hwf, BitVec.eq_of_toNat_eq ?_⟩
    rw [rsvF0_eq_zero] at hrsv
    rw [opField_toNat] at hop
    rw [henc, encodeF0_toNat]
    omega
  · cases h

theorem encode_of_decodeFS {f : Sym → Instr} (h : decodeFS c f = .ok i) (hwf : ∀ x, (f x).WellFormed)
    (henc : ∀ x, encode (f x) = encodeFS op x) (hop : (opField c).toNat = op.toNat) : i.WellFormed ∧ encode i = c := by
  unfold decodeFS at h
  split at h
  · rename_i hrsv
    cases h
    refine ⟨hwf _, BitVec.eq_of_toNat_eq ?_⟩
    rw [rsvFS_eq_zero] at hrsv
    rw [opField_toNat] at hop
    rw [henc, encodeFS_toNat, symField_eq, BitVec.toNat_ofNat]
    omega
  · cases h

theorem encode_of_decodeFN {f : Nat → Instr} (h : decodeFN c f = .ok i) (hwf : ∀ k, k < 512 → (f k).WellFormed)
    (henc : ∀ k, encode (f k) = encodeFN op k) (hop : (opField c).toNat = op.toNat) :
    i.WellFormed ∧ encode i = c := by
  unfold decodeFN at h
  split at h
  · rename_i hrsv
    cases h
    rw [rsvFN_eq_zero] at hrsv
    rw [opField_toNat] at hop
    refine ⟨hwf _ ?_, BitVec.eq_of_toNat_eq ?_⟩
    · rw [idxField_eq]; omega
    · rw [henc, encodeFN_toNat, idxField_eq]; omega
  · cases h

theorem encode_of_decode (h : decode c = .ok i) : i.WellFormed ∧ encode i = c := by
  unfold decode at h
  split at h
  -- The arms of `decode` in order: MKLEAF is the fourth, HINS the fifth, SETROOT the eighth; the last is reserved.
  case h_4 hop => exact encode_of_decodeFS h (fun _ => rfl) (fun _ => rfl) hop
  case h_5 hop => exact encode_of_decodeFN h (fun _ hk => decide_eq_true hk) (fun _ => rfl) hop
  case h_8 hop => exact encode_of_decodeFN h (fun _ hk => decide_eq_true hk) (fun _ => rfl) hop
  case h_13 => cases h
  all_goals rename_i hop; exact encode_of_decodeF0 h rfl rfl hop

/-- Settles O1: the command determines the word and the word the command, format by format. -/
theorem decodeAndEncodeAgree : Obligations.DecodeAndEncodeAgree :=
  ⟨fun _ => decode_encode, fun _ _ => encode_of_decode⟩

/-- Settles O3, by running the decoder on each word. -/
theorem writtenOutWordsDecode : Obligations.WrittenOutWordsDecode := by
  unfold Obligations.WrittenOutWordsDecode
  decide

namespace Machine

/-! ### The command each opcode selects (R85 to R87) -/

theorem nop_format : FormatF0 0x00 .nop := formatF0_of fun _ h => by simp only [decode, h]

theorem clr_format : FormatF0 0x01 .clr := formatF0_of fun _ h => by simp only [decode, h]

theorem frqclr_format : FormatF0 0x02 .frqclr := formatF0_of fun _ h => by simp only [decode, h]

theorem mkleaf_format : FormatFS 0x03 .mkleaf := formatFS_of fun _ h => by simp only [decode, h]

theorem hins_format : FormatFN 0x04 .hins := formatFN_of fun _ h => by simp only [decode, h]

theorem hpop_format : FormatF0 0x05 .hpop := formatF0_of fun _ h => by simp only [decode, h]

theorem merge_format : FormatF0 0x06 .merge := formatF0_of fun _ h => by simp only [decode, h]

theorem setroot_format : FormatFN 0x07 .setroot := formatFN_of fun _ h => by simp only [decode, h]

theorem build_format : FormatF0 0x08 .build := formatF0_of fun _ h => by simp only [decode, h]

theorem gencode_format : FormatF0 0x09 .gencode := formatF0_of fun _ h => by simp only [decode, h]

theorem encode_format : FormatF0 0x0A .encode := formatF0_of fun _ h => by simp only [decode, h]

theorem decode_format : FormatF0 0x0B .decode := formatF0_of fun _ h => by simp only [decode, h]

theorem decode_reservedOpcode (h : 0x0C ≤ (opField c).toNat) : decode c = .error .reservedOpcode := by
  unfold decode
  split
  case h_13 => rfl
  all_goals omega

/-- Settles O2: the twelve opcodes by their formats; every other opcode is reserved. -/
theorem everyWordSelectsOrIsIllegal : Obligations.EveryWordSelectsOrIsIllegal :=
  ⟨nop_format, clr_format, frqclr_format, mkleaf_format, hins_format, hpop_format, merge_format, setroot_format,
    build_format, gencode_format, encode_format, decode_format,
    fun c h => illegal_of (decode_reservedOpcode (opField_toNat c ▸ h))⟩

/-! ### Successful completion (R85, R183) -/

/-- Settles O11: a success is `completeOk` of what the body left, and these bodies leave a result of 0. -/
theorem successWritesTheCompletionFields : Obligations.SuccessWritesTheCompletionFields := by
  intro i s t h h0
  obtain ⟨d, hbody, rfl⟩ := exec_success h h0
  refine ⟨rfl, rfl, rfl, ?_, ?_⟩
  · rintro (rfl | rfl | rfl) <;> cases hbody <;> exact ⟨rfl, rfl⟩
  · rintro (⟨x, rfl⟩ | ⟨k, rfl⟩)
    · obtain ⟨-, rfl⟩ := mkleafBody_ok hbody; rfl
    · obtain ⟨-, rfl⟩ := setrootBody_ok hbody; rfl

end Machine

end Sys2Proof
end

section
/-! The priority queue (spec/41_queue.md): the index paths of a swim and a sink and what moves along them (R101, R102),
ties (R107), capacity (R108), and the commands HINS (R105) and HPOP (R106). -/

namespace Sys2Proof.Machine

/-! ### Moving an element along a path of indices -/

/-- `h'` is `h` after the element at `path 0` has moved to `path k`: each element it passed moved one place towards the
start of the path, every other element stayed. -/
structure MovedAlong (path : Nat → Nat) (k : Nat) (h h' : List Nat) : Prop where
  length : h'.length = h.length
  landed : heapAt h' (path k) = heapAt h (path 0)
  passed : ∀ m, m < k → heapAt h' (path m) = heapAt h (path (m + 1))
  frame : ∀ q, q < h.length → (∀ m, m ≤ k → q ≠ path m) → heapAt h' q = heapAt h q

theorem movedAlong_zero (path : Nat → Nat) (h : List Nat) : MovedAlong path 0 h h :=
  ⟨rfl, rfl, nofun, fun _ _ _ => rfl⟩

/-- One exchange along the path, then the rest of the way: the path meets no index twice. -/
theorem MovedAlong.cons {path rest : Nat → Nat} {k : Nat} {h h' : List Nat} (hrest : ∀ m, path (m + 1) = rest m)
    (h0 : path 0 < h.length) (h1 : path 1 < h.length) (hinj : ∀ m n, m < n → n ≤ k + 1 → path m ≠ path n)
    (hmoved : MovedAlong rest k (heapSwap h (path 0) (path 1)) h') : MovedAlong path (k + 1) h h' := by
  obtain ⟨hlen, hland, hpass, hframe⟩ := hmoved
  rw [heapSwap_length] at hlen hframe
  simp only [← hrest] at hland hpass hframe
  refine ⟨hlen, ?_, fun m hm => ?_, fun q hq hoff => ?_⟩
  · rw [hland, heapAt_heapSwap h0 h1, if_pos rfl]
  · cases m with
    | zero =>
      rw [hframe (path 0) h0 fun n hn => hinj 0 (n + 1) (by omega) (by omega), heapAt_heapSwap h0 h1,
        if_neg (hinj 0 1 (by omega) (by omega)), if_pos rfl]
    | succ m =>
      rw [hpass m (by omega), heapAt_heapSwap h0 h1, if_neg (hinj 1 (m + 2) (by omega) (by omega)).symm,
        if_neg (hinj 0 (m + 2) (by omega) (by omega)).symm]
  · rw [hframe q hq fun m hm => hoff (m + 1) (by omega), heapAt_heapSwap h0 h1, if_neg (hoff 1 (by omega)),
      if_neg (hoff 0 (by omega))]

theorem heapSwap_comm (h : List Nat) (a b : Nat) : heapSwap h a b = heapSwap h b a := by
  by_cases hab : a = b
  · rw [hab]
  · exact List.set_comm _ _ hab

/-! ### Swim (R101) -/

theorem ancestor_add (j m n : Nat) : ancestor j (m + n) = ancestor (ancestor j m) n := by
  induction n with
  | zero => rfl
  | succ n ih => rw [← Nat.add_assoc, ancestor, ih, ancestor]

theorem ancestor_lt {j m n : Nat} (h0 : 0 < ancestor j m) (hmn : m < n) : ancestor j n < ancestor j m := by
  obtain ⟨d, rfl⟩ := Nat.exists_eq_add_of_lt hmn
  rw [Nat.add_assoc, ancestor_add, ancestor_succ']
  exact (ancestor_le _ d).trans_lt (parent_lt h0)

/-- The element at `j` passes `k` strictly heavier parents and stops at the root or below one that is not heavier. -/
structure Climbs (w : Nat → Nat) (h : List Nat) (j k : Nat) : Prop where
  passes : ∀ m, m < k → 0 < ancestor j m ∧ w (heapAt h (ancestor j (m + 1))) > w (heapAt h j)
  stops : ancestor j k = 0 ∨ w (heapAt h (ancestor j (k + 1))) ≤ w (heapAt h j)

/-- The climb goes on as it would from the parent once the two are exchanged: the ancestors above are untouched. -/
theorem Climbs.cons {w : Nat → Nat} {h : List Nat} {j k : Nat} (hj : j < h.length) (h0 : 0 < j)
    (hw : w (heapAt h (parent j)) > w (heapAt h j)) (hc : Climbs w (heapSwap h j (parent j)) (parent j) k) :
    Climbs w h j (k + 1) := by
  have hp := parent_lt h0
  have habove : ∀ m, 0 < ancestor (parent j) m →
      heapAt (heapSwap h j (parent j)) (ancestor (parent j) (m + 1)) = heapAt h (ancestor j (m + 2)) := by
    intro m hm
    have hlt := ancestor_lt hm (Nat.lt_add_one m)
    have hle := ancestor_le (parent j) m
    rw [heapAt_heapSwap hj (by omega), if_neg (by omega), if_neg (by omega), ← ancestor_succ' j (m + 1)]
  have hat : heapAt (heapSwap h j (parent j)) (parent j) = heapAt h j := by
    rw [heapAt_heapSwap hj (by omega), if_pos rfl]
  obtain ⟨hpasses, hstops⟩ := hc
  rw [hat] at hpasses hstops
  refine ⟨fun m hm => ?_, ?_⟩
  · cases m with
    | zero => exact ⟨h0, hw⟩
    | succ m =>
      obtain ⟨hpos, hheavier⟩ := hpasses m (by omega)
      rw [habove m hpos] at hheavier
      exact ⟨ancestor_succ' j m ▸ hpos, hheavier⟩
  · rw [ancestor_succ']
    rcases Nat.eq_zero_or_pos (ancestor (parent j) k) with hz | hpos
    · exact .inl hz
    · rw [habove k hpos] at hstops
      exact .inr (hstops.resolve_left (by omega))

/-- What `Swim(j)` does (R101), with fuel for a climb to the root. -/
theorem swim_spec (w : Nat → Nat) {fuel : Nat} {h : List Nat} {j : Nat} (hj : j < h.length) (hf : j ≤ fuel) :
    ∃ k, (swim w fuel h j).2 = ancestor j k ∧ Climbs w h j k ∧ MovedAlong (ancestor j) k h (swim w fuel h j).1 := by
  induction fuel generalizing h j with
  | zero => exact ⟨0, rfl, ⟨nofun, .inl (Nat.le_zero.1 hf)⟩, movedAlong_zero _ h⟩
  | succ fuel ih =>
    rw [swim]
    split
    · next hup =>
      obtain ⟨h0, hw⟩ := hup
      have hp := parent_lt h0
      rw [heapSwap_comm]
      obtain ⟨k, hpos, hclimbs, hmoved⟩ :=
        ih (h := heapSwap h j (parent j)) (j := parent j) (by rw [heapSwap_length]; omega) (by omega)
      have hclimbs := hclimbs.cons hj h0 hw
      refine ⟨k + 1, by rw [hpos, ancestor_succ'], hclimbs, hmoved.cons (ancestor_succ' j) hj (hp.trans hj) ?_⟩
      exact fun m n hmn hn => (ancestor_lt (hclimbs.passes m (by omega)).1 hmn).ne'
    · next hstop =>
      refine ⟨0, rfl, ⟨nofun, ?_⟩, movedAlong_zero _ h⟩
      rcases Nat.eq_zero_or_pos j with hz | h0
      · exact .inl hz
      · exact .inr (Nat.le_of_not_gt fun hw => hstop ⟨h0, hw⟩)

/-- Settles O20: the path of the climb and what moves along it are the two halves of `swim_spec`. -/
theorem swimClimbsPastHeavierParents : Obligations.SwimClimbsPastHeavierParents := by
  intro w h j fuel hj hf
  obtain ⟨k, hpos, ⟨hpasses, hstops⟩, ⟨hlen, hland, hpassed, hframe⟩⟩ := swim_spec w hj hf
  exact ⟨k, hpos, hlen, hland, fun m hm => ⟨(hpasses m hm).1, (hpasses m hm).2, hpassed m hm⟩, hstops, hframe⟩

/-! ### Sink (R102) -/

theorem lt_lighterChild (w : Nat → Nat) (h : List Nat) (j : Nat) : j < lighterChild w h j := by
  unfold lighterChild; split <;> omega

theorem lighterPath_strictMono (w : Nat → Nat) (h : List Nat) (j : Nat) : StrictMono (lighterPath w h j) :=
  strictMono_nat_of_lt_succ fun k => lt_lighterChild w h (lighterPath w h j k)

/-- The path from `c` depends on the elements below `c` only. -/
theorem lighterPath_congr {w : Nat → Nat} {h h' : List Nat} {c : Nat} (hlen : h'.length = h.length)
    (hbelow : ∀ q, c < q → heapAt h' q = heapAt h q) (k : Nat) : lighterPath w h' c k = lighterPath w h c k := by
  induction k with
  | zero => rfl
  | succ k ih =>
    have hc := lighterPath_ge w h c k
    rw [lighterPath, lighterPath, ih, lighterChild, lighterChild, hlen, hbelow _ (by omega), hbelow _ (by omega)]

/-- The element at `j` passes `k` strictly lighter children and stops without a child or above one not lighter. -/
structure Descends (w : Nat → Nat) (h : List Nat) (j k : Nat) : Prop where
  passes : ∀ m, m < k → 2 * lighterPath w h j m + 1 < h.length ∧
    w (heapAt h (lighterPath w h j (m + 1))) < w (heapAt h j)
  stops : h.length ≤ 2 * lighterPath w h j k + 1 ∨ w (heapAt h j) ≤ w (heapAt h (lighterPath w h j (k + 1)))

theorem heapAt_heapSwap_below {h : List Nat} {j c q : Nat} (hj : j < h.length) (hc : c < h.length) (hjc : j < c)
    (hq : c < q) : heapAt (heapSwap h j c) q = heapAt h q := by
  rw [heapAt_heapSwap hj hc, if_neg (by omega), if_neg (by omega)]

/-- After the exchange with the lighter child, the path from there is the rest of the path. -/
theorem lighterPath_heapSwap {w : Nat → Nat} {h : List Nat} {j : Nat} (hj : j < h.length)
    (hc : lighterChild w h j < h.length) (k : Nat) :
    lighterPath w (heapSwap h j (lighterChild w h j)) (lighterChild w h j) k = lighterPath w h j (k + 1) := by
  rw [lighterPath_congr (heapSwap_length h _ _)
    (fun _ hq => heapAt_heapSwap_below hj hc (lt_lighterChild w h j) hq), lighterPath_succ]

/-- The descent goes on as it would from the lighter child once the two are exchanged. -/
theorem Descends.cons {w : Nat → Nat} {h : List Nat} {j k : Nat} (hl : 2 * j + 1 < h.length)
    (hc : lighterChild w h j < h.length) (hw : w (heapAt h (lighterChild w h j)) < w (heapAt h j))
    (hd : Descends w (heapSwap h j (lighterChild w h j)) (lighterChild w h j) k) : Descends w h j (k + 1) := by
  have hj : j < h.length := by omega
  have hjc := lt_lighterChild w h j
  have hbelow : ∀ m, heapAt (heapSwap h j (lighterChild w h j)) (lighterPath w h j (m + 2)) =
      heapAt h (lighterPath w h j (m + 2)) := fun m =>
    heapAt_heapSwap_below hj hc hjc (lighterPath_strictMono w h j (show 1 < m + 2 by omega))
  have hat : heapAt (heapSwap h j (lighterChild w h j)) (lighterChild w h j) = heapAt h j := by
    rw [heapAt_heapSwap hj hc, if_pos rfl]
  obtain ⟨hpasses, hstops⟩ := hd
  simp only [heapSwap_length, lighterPath_heapSwap hj hc, hbelow, hat] at hpasses hstops
  refine ⟨fun m hm => ?_, hstops⟩
  cases m with
  | zero => exact ⟨hl, hw⟩
  | succ m => exact hpasses m (by omega)

/-- What `Sink(j)` does (R102), with fuel for a descent to the end of the heap. -/
theorem sink_spec (w : Nat → Nat) {fuel : Nat} {h : List Nat} {j : Nat} (hj : j < h.length)
    (hf : h.length ≤ fuel + j) :
    ∃ k, (sink w fuel h j).2 = lighterPath w h j k ∧ Descends w h j k ∧
      MovedAlong (lighterPath w h j) k h (sink w fuel h j).1 := by
  induction fuel generalizing h j with
  | zero => omega
  | succ fuel ih =>
    rw [sink, sinkChild_eq]
    split
    · next hnone => exact ⟨0, rfl, ⟨nofun, .inl hnone⟩, movedAlong_zero _ h⟩
    · next hl =>
      split
      · next hle => exact ⟨0, rfl, ⟨nofun, .inr hle⟩, movedAlong_zero _ h⟩
      · next hw =>
        have hjc := lt_lighterChild w h j
        obtain ⟨-, hc, -⟩ := sinkChild_cases w h j (Nat.lt_of_not_ge hl)
        rw [sinkChild_eq] at hc
        obtain ⟨k, hpos, hdescends, hmoved⟩ := ih (h := heapSwap h j (lighterChild w h j))
          (j := lighterChild w h j) (by rwa [heapSwap_length]) (by rw [heapSwap_length]; omega)
        refine ⟨k + 1, by rw [hpos, lighterPath_heapSwap hj hc],
          hdescends.cons (Nat.lt_of_not_ge hl) hc (Nat.lt_of_not_ge hw),
          hmoved.cons (fun m => (lighterPath_heapSwap hj hc m).symm) hj hc ?_⟩
        exact fun m n hmn _ => (lighterPath_strictMono w h j hmn).ne

/-- Settles O21: the path of the descent and what moves along it are the two halves of `sink_spec`. -/
theorem sinkDescendsToTheLighterChild : Obligations.SinkDescendsToTheLighterChild := by
  intro w h j fuel hj hf
  obtain ⟨k, hpos, ⟨hpasses, hstops⟩, ⟨hlen, hland, hpassed, hframe⟩⟩ := sink_spec w hj hf
  exact ⟨k, hpos, hlen, hland, fun m hm => ⟨(hpasses m hm).1, (hpasses m hm).2, hpassed m hm⟩, hstops, hframe⟩

/-! ### Ties (R107) -/

theorem swim_of_parent_le {w : Nat → Nat} {h : List Nat} {j : Nat} (hle : w (heapAt h (parent j)) ≤ w (heapAt h j))
    (fuel : Nat) : swim w fuel h j = (h, j) := by
  cases fuel with
  | zero => rfl
  | succ fuel => rw [swim, if_neg fun hup => absurd hup.2 (by omega)]

theorem sink_of_le_child {w : Nat → Nat} {h : List Nat} {j : Nat}
    (hle : w (heapAt h j) ≤ w (heapAt h (lighterChild w h j))) (fuel : Nat) : sink w fuel h j = (h, j) := by
  cases fuel with
  | zero => rfl
  | succ fuel => rw [sink, sinkChild_eq, if_pos hle, ite_self]

theorem lighterChild_of_tie {w : Nat → Nat} {h : List Nat} {j : Nat}
    (htie : w (heapAt h (2 * j + 2)) = w (heapAt h (2 * j + 1))) : lighterChild w h j = 2 * j + 1 :=
  if_neg fun hlt => absurd hlt.2 (by omega)

/-- A pushed element whose parent is not heavier stays last. -/
theorem heapPush_of_parent_le {w : Nat → Nat} {h : List Nat} {i : Nat}
    (hle : w (heapAt (h ++ [i]) (parent h.length)) ≤ w i) : heapPush w h i = (h ++ [i], h.length) :=
  swim_of_parent_le (hle.trans_eq (by simp [heapAt])) _

/-- Vector Q3's inserts: B swims past A, then C and D stay below parents that are not heavier. -/
theorem heapPush_q3 {w : Nat → Nat} {a b c d : Nat} (ha : w a = 2) (hb : w b = 1) (hc : w c = 2) (hd : w d = 2) :
    (heapPush w (heapPush w (heapPush w (heapPush w [] a).1 b).1 c).1 d).1 = [b, a, c, d] := by
  have hpush2 : (heapPush w [a] b).1 = [b, a] := by
    simp [heapPush, swim, heapSwap, heapAt, parent, ha, hb]
  have hpush3 : heapPush w [b, a] c = ([b, a, c], 2) :=
    heapPush_of_parent_le (by simp [heapAt, parent, hb, hc])
  have hpush4 : heapPush w [b, a, c] d = ([b, a, c, d], 3) :=
    heapPush_of_parent_le (by simp [heapAt, parent, ha, hd])
  rw [show (heapPush w [] a).1 = [a] from rfl, hpush2, hpush3, hpush4]

/-- A pop of a heap with a last element `x` no heavier than the lighter child of the root puts `x` at the root. -/
theorem heapDrop_concat {w : Nat → Nat} {r x : Nat} {h : List Nat}
    (hle : w x ≤ w (heapAt (x :: h) (lighterChild w (x :: h) 0))) : heapDrop w (r :: h ++ [x]) = x :: h := by
  have hlast : heapAt (r :: h ++ [x]) ((r :: h ++ [x]).length - 1) = x := by simp [heapAt]
  rw [heapDrop, List.dropLast_concat, hlast, if_pos (by simp), List.set_cons_zero, sink_of_le_child hle]

/-- Settles O22: the strict comparisons of R101 and R102, and vector Q3 push by push and pop by pop. -/
theorem tiesAreBrokenByTheHeapRules : Obligations.TiesAreBrokenByTheHeapRules := by
  refine ⟨fun w fuel h j htie => swim_of_parent_le htie.le fuel, fun w fuel h j htie => sink_of_le_child htie.ge fuel,
    fun w h j => lighterChild_of_tie, fun w a b c d ha hb hc hd => ?_⟩
  have hpop1 : heapDrop w [b, a, c, d] = [d, a, c] :=
    heapDrop_concat (h := [a, c]) (by simp [lighterChild, heapAt, ha, hc, hd])
  have hpop2 : heapDrop w [d, a, c] = [c, a] :=
    heapDrop_concat (h := [a]) (by simp [lighterChild, heapAt, ha, hc])
  have hpop3 : heapDrop w [c, a] = [a] := rfl
  exact ⟨_, _, _, _, heapPush_q3 ha hb hc hd ▸ rfl, hpop1.symm, hpop2.symm, hpop3.symm, rfl, rfl, rfl, rfl, rfl⟩

/-! ### Capacity (R108) -/

/-- Settles O23: the heap lists allocated nodes without repeats, and a FREE node is not among them. -/
theorem heapNeverOverflows : Obligations.HeapNeverOverflows := by
  intro s htree
  have hcap : s.ncount ≤ 511 := htree.owned.cap
  refine ⟨htree.owned.hsize_le, hcap, fun i n hn ho => ?_⟩
  have hlt : s.hsize < s.ncount := htree.owned.hsize_lt hn ho
  exact ⟨hlt, by omega⟩

/-! ### HINS (R105) -/

section
variable {s : State} {i : Nat} {n : Node}

theorem body_hins_badNode (hi : s.ncount ≤ i) : body (.hins i) s = .error (.raise .badNode (toWord i)) := by
  rw [body, hinsBody, List.getElem?_eq_none hi]; rfl

theorem body_hins_nodeBusy (hn : s.nodes[i]? = some n) (ho : n.own ≠ .free) :
    body (.hins i) s = .error (.raise .nodeBusy (toWord i)) := by
  rw [body, hinsBody, hn]; exact if_pos ho

/-- The two model faults after the command's own checks cannot happen where R32 holds (R66, R108). -/
theorem body_hins_free (hn : s.nodes[i]? = some n) (ho : n.own = .free) (htree : TreeOk s.nodes s.heap) :
    body (.hins i) s = .ok ⟨s.heapInsert i, toWord (s.hsize + 1), toWord (s.insertPos i)⟩ := by
  have hroom : ¬ s.hsize ≥ Config.heapCap := ((heapNeverOverflows s htree).2.2 i n hn ho).2.not_ge
  simp only [body, hinsBody, hn, ho, ne_eq, not_true_eq_false, if_false, if_neg hroom, htree.owned.readable, if_true,
    heapInsert_hsize]

theorem heapInsert_eq (hn : s.nodes[i]? = some n) :
    s.heapInsert i = { s with
      nodes := s.nodes.set i { n with own := .inHeap }
      heap := (swim s.W s.hsize (s.heap ++ [i]) s.hsize).1 } := by
  rw [State.heapInsert, setOwn_eq_set hn]; rfl

end

/-- Settles O24: the outcomes of the body in the order of its checks. -/
theorem hinsInsertsAFreeNode : Obligations.HinsInsertsAFreeNode :=
  ⟨hins_format, fun _ _ =>
    ⟨fun hi => raises_of_body (body_hins_badNode hi), fun _ hn =>
      ⟨fun ho => raises_of_body (body_hins_nodeBusy hn ho), fun ho htree =>
        completes_of_body (heapInsert_eq hn ▸ body_hins_free hn ho htree)⟩⟩⟩

/-! ### HPOP (R106) -/

section
variable {s : State} {n : Node}

theorem body_hpop_empty (h0 : s.hsize = 0) : body .hpop s = .error (.raise .emptyQueue (toWord 0)) :=
  if_pos h0

/-- The model fault after the command's own check cannot happen where R32 holds (R66). -/
theorem body_hpop_nonempty (h0 : s.hsize ≠ 0) (htree : TreeOk s.nodes s.heap) :
    body .hpop s = .ok ⟨s.heapPop, toWord s.heapMin, toWord (s.W s.heapMin)⟩ := by
  rw [body, hpopBody, if_neg h0, if_pos htree.owned.readable]

theorem heapPop_eq (hn : s.nodes[s.heapMin]? = some n) :
    s.heapPop = { s with
      nodes := s.nodes.set s.heapMin { n with own := .free }, heap := heapDrop s.W s.heap } := by
  rw [State.heapPop, setOwn_eq_set hn]

end

/-- `HeapPop` of one element empties the heap; otherwise the last element moves to the root and sinks (R104). -/
theorem heapDrop_eq (w : Nat → Nat) {h : List Nat} (hl : 0 < h.length) :
    heapDrop w h = if h.length = 1 then []
      else (sink w (h.length - 1) (h.dropLast.set 0 (heapAt h (h.length - 1))) 0).1 := by
  simp only [heapDrop, List.length_dropLast]
  by_cases h1 : h.length = 1
  · rw [if_neg (by omega), if_pos h1, ← List.length_eq_zero_iff, List.length_dropLast, h1]
  · rw [if_pos (by omega), if_neg h1]

/-- Settles O25: the root of an ordered heap is a minimum, and the pop permutes the rest. -/
theorem hpopReturnsTheMinimum : Obligations.HpopReturnsTheMinimum := by
  refine ⟨hpop_format, fun s => ⟨fun h0 => raises_of_body (body_hpop_empty h0), fun h0 htree => ?_⟩⟩
  have hpos : 0 < s.hsize := Nat.pos_of_ne_zero h0
  have hroot : s.heap[0]? = some s.heapMin := by
    rw [State.heapMin, heapAt_eq_getElem hpos, List.getElem?_eq_getElem hpos]
  obtain ⟨n, hn, -⟩ := (htree.owned.listed _).1 (heapMin_mem hpos)
  exact ⟨s.heapMin, n, heapDrop s.W s.heap, hroot, hn,
    completes_of_body (heapPop_eq hn ▸ body_hpop_nonempty h0 htree), fun i => heapOrdered_root_min htree.ordered,
    heapDrop_perm s.W hpos, heapDrop_eq s.W hpos⟩

end Sys2Proof.Machine
end

section
/-! The tree builder (spec/42_tree.md): the commands MKLEAF (R123), MERGE (R124), SETROOT (R125) and BUILD (R126), the
tree BUILD leaves (R127), what it depends on (R128), and GENCODE after it (R146). -/

namespace Sys2Proof.Machine

/-! ### MKLEAF (R123) and SETROOT (R125) -/

section
variable {s : State}

theorem body_mkleaf_full (hfull : s.ncount = 511) (x : Sym) :
    body (.mkleaf x) s = .error (.raise .nodeFull (toWord 511)) := by
  rw [body, mkleafBody, hfull]; rfl

theorem body_mkleaf_room (hroom : s.ncount ≠ 511) (x : Sym) :
    body (.mkleaf x) s = .ok ⟨s.newLeaf x s.arg0, toWord s.ncount, toWord 0⟩ :=
  if_neg hroom

theorem body_setroot_badNode {i : Nat} (hi : s.ncount ≤ i) :
    body (.setroot i) s = .error (.raise .badNode (toWord i)) :=
  if_pos hi

theorem body_setroot_allocated {i : Nat} (hi : i < s.ncount) :
    body (.setroot i) s = .ok ⟨s.setRoot i, toWord i, toWord 0⟩ :=
  if_neg (Nat.not_le.2 hi)

end

/-- Settles O26: the two outcomes of the body, by its capacity check. -/
theorem mkleafAllocatesAFreeLeaf : Obligations.MkleafAllocatesAFreeLeaf :=
  ⟨mkleaf_format, fun _ x =>
    ⟨fun hfull => raises_of_body (body_mkleaf_full hfull x), fun hroom =>
      completes_of_body (body_mkleaf_room hroom x)⟩⟩

/-- Settles O28: the two outcomes of the body, by its check of the index. -/
theorem setrootNamesAnAllocatedNode : Obligations.SetrootNamesAnAllocatedNode :=
  ⟨setroot_format, fun _ _ =>
    ⟨fun hi => raises_of_body (body_setroot_badNode hi), fun hi => completes_of_body (body_setroot_allocated hi)⟩⟩

/-! ### OWN writes and weights of a grown store -/

/-- The last OWN written to a node is the one that stays. -/
theorem setOwn_setOwn (nodes : List Node) (i : Nat) (o o' : Own) :
    setOwn (setOwn nodes i o) i o' = setOwn nodes i o' := by
  refine List.ext_getElem? fun j => ?_
  simp only [getElem?_setOwn, Option.map_map]
  congr 1
  funext n
  by_cases h : i = j <;> simp [h]

theorem setOwn_comm (nodes : List Node) {i j : Nat} (hij : i ≠ j) (o o' : Own) :
    setOwn (setOwn nodes i o) j o' = setOwn (setOwn nodes j o') i o := by
  refine List.ext_getElem? fun k => ?_
  simp only [getElem?_setOwn, Option.map_map]
  congr 1
  funext n
  by_cases hi : i = k
  · simp [hi, show j ≠ k from fun hj => hij (hi.trans hj.symm)]
  · simp [hi]

theorem setOwn_append_self (nodes : List Node) (n : Node) (o : Own) :
    setOwn (nodes ++ [n]) nodes.length o = nodes ++ [{ n with own := o }] := by
  rw [setOwn_eq_set List.getElem?_concat_length]
  simp

theorem newInternal_W (s : State) {l r : Nat} (hfit : s.W l + s.W r ≤ Config.maxWeight) :
    (s.newInternal l r).W = fun i => if i = s.ncount then s.W l + s.W r else s.W i := by
  funext i
  rcases Nat.lt_trichotomy i s.ncount with hlt | rfl | hgt
  · rw [newInternal_W_lt s l r hlt, if_neg hlt.ne]
  · rw [newInternal_W_self s l r hfit, if_pos rfl]
  · have hout : ∀ nodes : List Node, nodes.length ≤ i → weightIn nodes i = 0 := fun nodes hn => by
      rw [weightIn, List.getElem?_eq_none hn]
    have hgrown : (s.newInternal l r).nodes.length = s.ncount + 1 := newInternal_ncount s l r
    rw [if_neg hgt.ne', State.W_eq, State.W_eq, hout _ (by omega), hout _ (Nat.le_of_lt hgt)]

/-! ### MERGE (R122, R124) -/

section
variable {s : State}

theorem body_merge_of_error {e : Stop} (h : s.mergeStep = .error e) : body .merge s = .error e := by
  rw [body, mergeBody, h]

theorem body_merge_of_ok {t : State} {n : Nat} (h : s.mergeStep = .ok (t, n)) :
    body .merge s = .ok ⟨t, toWord n, toWord (t.W n)⟩ := by
  rw [body, mergeBody, h]

/-- The layout of ERRINFO at an overflow (R122): the second popped index in the upper half. -/
theorem overflowInfo_eq {l r : Nat} (hl : l < 512) (hr : r < 512) : overflowInfo l r = toWord (r * 2 ^ 16 + l) := by
  refine BitVec.eq_of_toNat_eq ?_
  rw [overflowInfo, toNat_append_eq_add, toNat_append_eq_add, toNat_append_eq_add, toWord_toNat]
  simp only [BitVec.toNat_ofNat]
  omega

/-- The first pop gives a minimum of the heap and the second a minimum of the rest (R104, R122). -/
structure PopsTwoMinima (s : State) : Prop where
  ne : s.heapMin ≠ s.heapMin2
  perm : (s.heapMin :: s.heapMin2 :: s.heapPop2.heap).Perm s.heap
  first : s.W s.heapMin ≤ s.W s.heapMin2
  second : ∀ i ∈ s.heapPop2.heap, s.W s.heapMin2 ≤ s.W i

theorem TreeOk.popsTwoMinima (h : TreeOk s.nodes s.heap) (h2 : 2 ≤ s.hsize) : PopsTwoMinima s := by
  have h0 : 0 < s.hsize := by omega
  have h1 : 0 < s.heapPop.hsize := by rw [heapPop_hsize]; omega
  have hordered := (h.heapPop h0).ordered
  obtain ⟨-, hne, -⟩ := popped_pair h h2
  refine ⟨hne, ((heapDrop_perm _ h1).cons _).trans (heapDrop_perm _ h0),
    heapMin_le h.ordered (heapPop_heap_subset h0 (heapMin_mem h1)), fun i hi => ?_⟩
  have hmin := heapMin_le hordered (heapPop_heap_subset h1 hi)
  rwa [heapPop_W] at hmin

/-- The pops and the insert of a MergeStep each write OWN (R121, R122); only the last write to a node stays. -/
theorem merged_nodes (hne : s.heapMin ≠ s.heapMin2) :
    s.merged.nodes = setOwn (setOwn s.nodes s.heapMin .child) s.heapMin2 .child ++
      [⟨.internal, 0#8, toWord (s.W s.heapMin + s.W s.heapMin2), s.heapMin, s.heapMin2, .inHeap⟩] := by
  have hown : setOwn (setOwn s.heapPop2.nodes s.heapMin .child) s.heapMin2 .child =
      setOwn (setOwn s.nodes s.heapMin .child) s.heapMin2 .child := by
    rw [State.heapPop2, State.heapPop_nodes, State.heapPop_nodes, ← State.heapMin2, setOwn_comm s.nodes hne,
      setOwn_setOwn, setOwn_comm s.nodes hne.symm, setOwn_setOwn]
  have hlen : s.ncount = (setOwn (setOwn s.nodes s.heapMin .child) s.heapMin2 .child).length := by
    simp [State.ncount]
  rw [State.merged, State.heapInsert_nodes, State.newInternal_nodes, hown, hlen, setOwn_append_self, heapPop2_W]
  rfl

theorem merged_heap (hfit : s.W s.heapMin + s.W s.heapMin2 ≤ Config.maxWeight) :
    s.merged.heap = (heapPush (fun i => if i = s.ncount then s.W s.heapMin + s.W s.heapMin2 else s.W i)
      s.heapPop2.heap s.ncount).1 := by
  rw [State.merged, State.heapInsert_heap, newInternal_W _ (by rwa [heapPop2_W]), heapPop2_W, heapPop2_ncount]
  rfl

end

/-- Settles O27: the outcomes of MergeStep in the order of its checks. -/
theorem mergeCombinesTheTwoMinima : Obligations.MergeCombinesTheTwoMinima := by
  refine ⟨merge_format, fun s htree => ?_⟩
  have hstep := mergeStep_eq htree.owned
  refine ⟨fun hlt => ?empty, fun h2 (hfull : s.ncount = Config.nodeCap) => ?full,
    fun h2 (hroom : s.ncount ≠ Config.nodeCap) => ?pair⟩
  case empty =>
    rw [if_pos hlt] at hstep
    exact raises_of_body (body_merge_of_error hstep)
  case full =>
    rw [if_neg (by omega), if_pos hfull, hfull] at hstep
    exact raises_of_body (body_merge_of_error hstep)
  case pair =>
    rw [if_neg (by omega), if_neg hroom] at hstep
    obtain ⟨hne, hperm, hfirst, hsecond⟩ := htree.popsTwoMinima h2
    have hheap : s.heapPop2.heap = heapDrop s.W (heapDrop s.W s.heap) := by
      rw [State.heapPop2, State.heapPop_heap, heapPop_W, State.heapPop_heap]
    have hcap : s.nodes.length ≤ 511 := htree.owned.cap
    have hl := htree.owned.heap_lt (hperm.subset List.mem_cons_self)
    have hr := htree.owned.heap_lt (hperm.subset (List.mem_cons_of_mem _ List.mem_cons_self))
    refine ⟨s.heapMin, s.heapMin2, s.heapPop.heap, s.heapPop2.heap, rfl, rfl, rfl, hheap, hne, hperm, hfirst, hsecond,
      fun (hover : Config.maxWeight < _) => ?_, fun (hfit : _ ≤ Config.maxWeight) => ?_⟩
    · rw [if_pos hover, overflowInfo_eq (by omega) (by omega)] at hstep
      exact raises_of_body (body_merge_of_error hstep)
    · rw [if_neg (Nat.not_lt.2 hfit)] at hstep
      have hbody := body_merge_of_ok hstep
      have hcount : s.ncount < Config.nodeCap := Nat.lt_of_le_of_ne hcap hroom
      rw [(merged_spec htree h2 hcount hfit).weight, mergeStep_frame hstep, merged_nodes hne, merged_heap hfit] at hbody
      exact completes_of_body hbody

/-! ### BUILD on a specified frequency table (R126) -/

section
variable {s : State} {fs : List Word}

theorem freqIs_iff_map : FreqIs s fs ↔ (List.range 256).map s.freq.read = fs.map some := by
  refine ⟨freqIs_map, fun h => ⟨by simpa using (congrArg List.length h).symm, fun k (hk : k < 256) => ?_⟩⟩
  have hlen : fs.length = 256 := by simpa using (congrArg List.length h).symm
  have hget : ((List.range 256).map s.freq.read)[k]? = (fs.map some)[k]? := by rw [h]
  rw [List.getElem?_map, List.getElem?_range hk, List.getElem?_map,
    List.getElem?_eq_getElem (show k < fs.length from hlen ▸ hk)] at hget
  rw [List.getElem?_eq_getElem (show k < fs.length from hlen ▸ hk)]
  exact Option.some_injective _ hget

theorem freqIs_unique {gs : List Word} (hf : FreqIs s fs) (hg : FreqIs s gs) : fs = gs :=
  List.map_injective_iff.2 (Option.some_injective _) ((freqIs_map hf).symm.trans (freqIs_map hg))

theorem body_build_empty (hfs : FreqIs s fs) (h0 : symbolCount fs = 0) :
    body .build s = .error (.raise .emptyInput (toWord 0)) := by
  rw [body, buildBody_eq hfs, if_pos (symbolCount_zero.1 h0)]; rfl

theorem body_build_overflow (hfs : FreqIs s fs) (h0 : symbolCount fs ≠ 0) (hover : Config.maxWeight < freqTotal fs) :
    body .build s = .error (.raise .weightOverflow (toWord 0)) := by
  rw [body, buildBody_eq hfs, if_neg (mt symbolCount_zero.2 h0), if_pos hover]; rfl

/-- BUILD past its checks, once the merge loop has ended in `t`. -/
theorem body_build_merged {t : State} (hfs : FreqIs s fs) (h0 : symbolCount fs ≠ 0)
    (hfit : freqTotal fs ≤ Config.maxWeight)
    (hm : (s.clearTree.seedLeaves 0 fs).mergeAll (s.clearTree.seedLeaves 0 fs).hsize = .ok t) :
    body .build s = .ok ⟨t.heapPop.setRoot t.heapMin, toWord t.heapMin, toWord t.ncount⟩ := by
  rw [body, buildBody_eq hfs, if_neg (mt symbolCount_zero.2 h0), if_neg (Nat.not_lt.2 hfit), hm]
  simp only [heapPop_ncount]

theorem symbolCount_le (hfs : FreqIs s fs) : symbolCount fs ≤ 256 := by
  have hlen : fs.length = 256 := hfs.length
  exact hlen ▸ List.countP_le_length

/-- One turn of the seeding loop. -/
theorem seedAt_succ (s : State) {x : Nat} {f : Word} (hx : fs[x]? = some f) :
    seedAt s fs (x + 1) = if f = 0#32 then seedAt s fs x
      else ((seedAt s fs x).newLeaf (BitVec.ofNat 8 x) f).heapInsert (seedAt s fs x).ncount := by
  have hlen : (fs.take x).length = x := List.length_take_of_le (Nat.le_of_lt (lt_length_of_getElem? hx))
  rw [seedAt, List.take_add_one, hx, Option.toList_some, seedLeaves_append, hlen, Nat.zero_add, State.seedLeaf, ite_not]
  rfl

theorem seedAt_all (s : State) (hlen : fs.length = 256) : seedAt s fs 256 = s.seedLeaves 0 fs := by
  rw [seedAt, List.take_of_length_le hlen.le]

end

/-- Settles O29: the loops run as `seedAt` and `loopAt`, one merge fewer than there are leaves. -/
theorem buildFollowsItsProcedure : Obligations.BuildFollowsItsProcedure := by
  refine ⟨build_format, fun s fs hfs => ⟨fun h0 => raises_of_body (body_build_empty hfs h0),
    fun h0 hover => raises_of_body (body_build_overflow hfs h0 hover), fun h0 hfit => ?_⟩⟩
  have hcount := symbolCount_le hfs
  obtain ⟨hloop, hhsize⟩ := seeded_loop s hfs.length h0
  obtain ⟨t, hm, -, hone, -⟩ := mergeAll_spec hcount hfit _ hloop (Nat.le_refl _)
  obtain ⟨hturns, hend⟩ := mergeAll_loop hcount hfit _ hloop (Nat.le_refl _) hm hloop.pos
  rw [hhsize] at hturns hend
  refine ⟨seedAt s.clearTree fs, loopAt (s.clearTree.seedLeaves 0 fs), symbolCount fs - 1, rfl,
    fun x f hx => seedAt_succ s.clearTree hx, (seedAt_all s.clearTree hfs.length).symm, fun m hlt => ?_, ?_, ?_⟩
  · obtain ⟨hmore, hstep⟩ := hturns m (by omega)
    exact ⟨hmore, _, hstep⟩
  · rw [hend, hone]
  · rw [hend]
    exact completes_of_body (body_build_merged hfs h0 hfit hm)

/-! ### The tree BUILD leaves (R127) -/

section
variable {s t : State} {fs : List Word} {r : Nat}

theorem build_completes (hfs : FreqIs s fs) (h0 : symbolCount fs ≠ 0) (hfit : freqTotal fs ≤ Config.maxWeight) :
    ∃ t r, Built fs s t r ∧ Completes .build s t r t.ncount := by
  obtain ⟨t, hm, hbuilt⟩ := build_spec (s := s) hfs.length (by simpa using mt symbolCount_zero.2 h0) hfit
  refine ⟨_, _, hbuilt, completes_of_body ?_⟩
  rw [body_build_merged hfs h0 hfit hm, ← heapPop_ncount]
  rfl

theorem Built.root_eq (hb : Built fs s t r) : r = 2 * symbolCount fs - 2 := by
  have hlast := hb.rootLast
  have hcount := hb.ncount
  simp only [symbolCount]
  omega

theorem Built.ncount_eq (hb : Built fs s t r) : t.ncount = 2 * symbolCount fs - 1 := by
  have hcount := hb.ncount
  simp only [symbolCount]
  omega

theorem Built.own_eq (hb : Built fs s t r) {i : Nat} {n : Node} (hn : t.nodes[i]? = some n) :
    n.own = if i = r then .free else .child := by
  split
  case isTrue hi =>
    obtain ⟨root, hroot, hfree⟩ := hb.rootFree
    rw [hi, hroot] at hn
    cases hn
    exact hfree
  case isFalse hi => exact hb.others i n hn hi

/-- The first nodes are the seeded leaves, OWN apart. -/
theorem Built.take_shape (hb : Built fs s t r) :
    (t.nodes.take (symbolCount fs)).map Node.shape = seedNodes 0 fs := by
  have hlen : (seedNodes 0 fs).length = symbolCount fs := seedNodes_length 0 fs
  refine List.ext_getElem? fun i => ?_
  rw [List.getElem?_map, List.getElem?_take]
  split
  case isTrue hi =>
    have hseed := List.getElem?_eq_getElem (l := seedNodes 0 fs) (hlen ▸ hi)
    obtain ⟨m, hm, hshape⟩ := hb.seeds i _ hseed
    rw [hm, hseed, Option.map_some, hshape]
  case isFalse hi =>
    rw [List.getElem?_eq_none (by omega)]
    rfl

theorem seedNodes_rows (hlen : fs.length = 256) :
    (seedNodes 0 fs).map (fun n => (n.kind, n.sym.toNat, n.weight)) =
      (symbolRows fs).map (fun e => (Kind.leaf, e.1, e.2)) := by
  rw [seedRows fs 0 (by omega), symbolRows, hlen, List.range_eq_range', Config.nSym_eq]

theorem Built.leaf_rows (hb : Built fs s t r) (hlen : fs.length = 256) :
    (t.nodes.take (symbolCount fs)).map (fun n => (n.kind, n.sym.toNat, n.weight)) =
      (symbolRows fs).map (fun e => (Kind.leaf, e.1, e.2)) := by
  rw [← seedNodes_rows hlen, ← hb.take_shape, List.map_map]
  rfl

/-- Every node after the seeded leaves is a parent that a MergeStep made. -/
theorem Built.drop_internal (hb : Built fs s t r) {n : Node} (hn : n ∈ t.nodes.drop (symbolCount fs)) :
    n.kind = .internal := by
  obtain ⟨j, hj⟩ := List.getElem?_of_mem hn
  rw [List.getElem?_drop] at hj
  cases hkind : n.kind with
  | internal => rfl
  | leaf =>
    have hlt := lt_length_of_getElem? (hb.leaves _ n hj hkind)
    have hlen : (seedNodes 0 fs).length = symbolCount fs := seedNodes_length 0 fs
    omega

end

/-- Settles O30: `Built` read off field by field. -/
theorem buildLeavesOneFullTree : Obligations.BuildLeavesOneFullTree := by
  intro s fs k hfs hk hpos hfit
  subst hk
  obtain ⟨t, r, hb, hdone⟩ := build_completes hfs (by omega) hfit
  have htree := hb.tree
  have hframe := hb.frame
  have hweight := hb.weight
  rw [hb.hsize] at htree hframe
  rw [hb.ncount_eq, hframe] at hdone
  obtain rfl := hb.root_eq
  exact ⟨t.nodes, hdone, hb.ncount_eq, hweight, fun i n hn => hb.own_eq hn, htree, hb.leaf_rows hfs.length,
    fun n hn => hb.drop_internal hn⟩

/-! ### What BUILD depends on (R128) -/

section
variable {s u : State}

theorem heapMin_congr (hheap : u.heap = s.heap) : u.heapMin = s.heapMin :=
  congrArg (heapAt · 0) hheap

theorem heapPop_nodes_congr (hnodes : u.nodes = s.nodes) (hheap : u.heap = s.heap) :
    u.heapPop.nodes = s.heapPop.nodes := by
  rw [State.heapPop_nodes, State.heapPop_nodes, hnodes, heapMin_congr hheap]

end

/-- Settles O31: both runs seed the same leaves into an empty tree, and the merge loop reads NODE and HEAP only. -/
theorem buildDependsOnFrequenciesAlone : Obligations.BuildDependsOnFrequenciesAlone := by
  intro s u t hfreq hexec h0
  obtain ⟨d, hbody, rfl⟩ := exec_success hexec h0
  obtain ⟨fs, ts, -, hmap, hne, hfit, hm, rfl⟩ := buildBody_ok hbody
  have hfs := freqIs_iff_map.2 hmap
  have hfu : FreqIs u fs := ⟨hfs.length, fun k hk => (hfreq k hk).trans (hfs.entry k hk)⟩
  obtain ⟨hnodes, hheap⟩ := seedLeaves_congr fs 0 s.clearTree u.clearTree rfl rfl
  obtain ⟨tu, hmu, htnodes, htheap⟩ := mergeAll_congr _ _ _ _ hnodes hheap hm
  have hhsize : (s.clearTree.seedLeaves 0 fs).hsize = (u.clearTree.seedLeaves 0 fs).hsize :=
    congrArg List.length hheap.symm
  rw [hhsize] at hmu
  have hdone := completes_of_body (body_build_merged hfu (mt symbolCount_zero.1 (by simp [hne])) hfit hmu)
  exact ⟨_, hdone, rfl, heapPop_nodes_congr htnodes htheap, heapMin_congr htheap⟩

/-! ### GENCODE after BUILD (R146) -/

section
variable {s t : State} {fs : List Word} {r : Nat}

/-- A leaf under BUILD's root is a seeded leaf, and its symbol has a frequency. -/
theorem Built.seed_of_leafAt (hb : Built fs s t r) (hlen : fs.length = 256) {q : List Bool} {x : Sym}
    (h : LeafAt t.nodes r q x) :
    ∃ i f, follow t.nodes r q = some i ∧ (seedNodes 0 fs)[i]? = some (leafNode x f) ∧ fs[x.toNat]? = some f ∧
      f ≠ 0#32 := by
  obtain ⟨i, m, hfollow, hm, hkind, rfl⟩ := h
  have hseed := hb.leaves i m hm hkind
  obtain ⟨j, f, hj, hf, hshape⟩ := (mem_seedNodes (k := 0) (by omega)).1 (List.mem_of_getElem? hseed)
  have hj256 := lt_length_of_getElem? hj
  have hsym : m.sym = BitVec.ofNat 8 (0 + j) := congrArg Node.sym hshape
  have hnum : m.sym.toNat = j := by rw [hsym, BitVec.toNat_ofNat]; omega
  exact ⟨i, f, hfollow, by rw [hseed, hshape, ← hsym], by rw [hnum, hj], hf⟩

/-- The symbols with a frequency are those of the leaves under BUILD's root, which reaches every node. -/
theorem Built.leafAt_iff (hb : Built fs s t r) (hlen : fs.length = 256) {x : Sym} {f : Word}
    (hf : fs[x.toNat]? = some f) : (∃ q, LeafAt t.nodes r q x) ↔ f ≠ 0#32 := by
  refine ⟨fun ⟨q, hq⟩ => ?_, fun h0 => ?_⟩
  · obtain ⟨-, g, -, -, hg, hne⟩ := hb.seed_of_leafAt hlen hq
    exact Option.some_injective _ (hg.symm.trans hf) ▸ hne
  · have hmem : leafNode x f ∈ seedNodes 0 fs := (mem_seedNodes (by omega)).2 ⟨x.toNat, f, hf, h0, by simp⟩
    obtain ⟨i, hi⟩ := List.getElem?_of_mem hmem
    obtain ⟨m, hm, hshape⟩ := hb.seeds i _ hi
    obtain ⟨q, hq⟩ := hb.reach i (lt_length_of_getElem? hm)
    exact ⟨q, i, m, hq, hm, congrArg Node.kind hshape, congrArg Node.sym hshape⟩

/-- The seeded symbols differ, so equal symbols are one leaf, which one path reaches (R32). -/
theorem Built.noDuplicateSymbol (hb : Built fs s t r) (hlen : fs.length = 256) : NoDuplicateSymbol t.nodes r := by
  intro p q x hp hq
  obtain ⟨i, f, hpi, hi, -⟩ := hb.seed_of_leafAt hlen hp
  obtain ⟨j, g, hqj, hj, -⟩ := hb.seed_of_leafAt hlen hq
  have hij : i = j := by
    have hlt : i < ((seedNodes 0 fs).map Node.sym).length := by
      rw [List.length_map]; exact lt_length_of_getElem? hi
    rw [← List.getElem?_inj hlt (seedNodes_nodup (by omega)), List.getElem?_map, List.getElem?_map, hi, hj]
    rfl
  exact hb.tree.owned.follow_inj hpi (hij ▸ hqj)

theorem NoDuplicateSymbol.not_firstDuplicate {nodes : List Node} {n : Nat} (h : NoDuplicateSymbol nodes n) (x : Sym) :
    ¬ FirstDuplicate nodes n x := by
  rintro ⟨q, hq, ⟨q', hlt, hq'⟩, -⟩
  exact (h q' q x hq' hq ▸ hlt).false

theorem Built.root (hb : Built fs s t r) : t.root = r := by rw [hb.frame]

theorem Built.rootv (hb : Built fs s t r) : t.rootv = true := by rw [hb.frame]

/-- GENCODE's walk meets no symbol twice after BUILD. -/
theorem Built.walkRoot_ok (hb : Built fs s t r) (hlen : fs.length = 256) : ∃ w, t.walkRoot = .ok w := by
  have hlast := hb.rootLast
  refine (walkRoot_total hb.tree.owned (by rw [hb.root]; omega)).resolve_right ?_
  rintro ⟨x, -, hdup⟩
  exact (hb.noDuplicateSymbol hlen).not_firstDuplicate x (hb.root ▸ hdup)

/-- The walk gives a code to exactly the symbols of the leaves under ROOT (R140). -/
theorem walkRoot_codev {w : WalkState} (h : s.walkRoot = .ok w) (x : Sym) :
    ∃ e, w.table[x.toNat]? = some e ∧ (e.codev = true ↔ ∃ q, LeafAt s.nodes s.root q x) := by
  obtain ⟨-, hleaf, hother, -⟩ := walkRoot_table h
  by_cases hx : ∃ q, LeafAt s.nodes s.root q x
  · obtain ⟨q, hq⟩ := hx
    exact ⟨_, hleaf q x hq, iff_of_true rfl ⟨q, hq⟩⟩
  · exact ⟨_, hother x (not_exists.1 hx), iff_of_false Bool.false_ne_true hx⟩

end

/-- Settles O36: no symbol stands at two leaves, so the walk ends, and the leaves are those of the frequencies. -/
theorem noDuplicatesAfterBuild : Obligations.NoDuplicatesAfterBuild := by
  intro s t fs cmd hfs hexec h0
  obtain ⟨d, hbody, rfl⟩ := exec_success hexec h0
  obtain ⟨gs, r, hlen, hmap, hb, -⟩ := buildBody_built hbody
  obtain rfl := freqIs_unique hfs (freqIs_iff_map.2 hmap)
  obtain ⟨w, hw⟩ := hb.walkRoot_ok hlen
  have hwalk := walkRoot_extends (s := d.state) (t := (d.state.completeOk d.result d.result1).startCommand cmd)
    (Extends.refl _) rfl hw
  refine ⟨_, gencode_completes hb.rootv hwalk, rfl, fun x f hf => ?_⟩
  obtain ⟨e, he, hcodev⟩ := walkRoot_codev hw x
  rw [hb.root, hb.leafAt_iff hlen hf] at hcodev
  exact ⟨e, he, hcodev⟩

end Sys2Proof.Machine
end

section
/-! Code generation (spec/43_codegen.md): GENCODE's table and its errors (R140 to R142), that no code begins another
(R144), and the round trip of ENCODE and DECODE through the codes (R159). -/

namespace Sys2Proof.Machine

/-! ### GENCODE (R140 to R142) -/

section
variable {s : State} {w : WalkState} {p : List Bool} {x : Sym}

theorem body_gencode_noRoot (hrootv : s.rootv = false) : body .gencode s = .error (.raise .invalidTree (toWord 0)) :=
  if_pos hrootv

theorem body_gencode_of_error {e : Stop} (hrootv : s.rootv = true) (hw : s.walkRoot = .error e) :
    body .gencode s = .error e := by
  rw [body, gencodeBody, if_neg (by simp [hrootv]), hw]

/-- A walk that ends has met no symbol twice: the one entry of a symbol holds the path of each of its leaves. -/
theorem walkRoot_noDuplicateSymbol (hw : s.walkRoot = .ok w) : NoDuplicateSymbol s.nodes s.root :=
  fun _ _ _ => (walk_ok walkStart_length hw).distinct

theorem walkRoot_length_le_maxlen (hw : s.walkRoot = .ok w) (hleaf : LeafAt s.nodes s.root p x) :
    p.length ≤ w.maxlen := by
  obtain ⟨-, hcode, -, hcounts⟩ := walkRoot_table hw
  exact hcounts.bound _ (List.mem_of_getElem? (hcode p x hleaf)) rfl

/-- RESULT1 is the length of some code: there is a leaf under ROOT, so a greatest length of 0 is one too (R142). -/
theorem walkRoot_maxlen_reached (ho : Owned s.nodes s.heap) (hroot : s.root < s.ncount) (hw : s.walkRoot = .ok w) :
    ∃ p x, LeafAt s.nodes s.root p x ∧ p.length = w.maxlen := by
  obtain ⟨-, -, -, hcounts⟩ := walkRoot_table hw
  rcases hcounts.reached with hzero | ⟨e, he, hcodev, hlen⟩
  · obtain ⟨p, x, hleaf⟩ := exists_leaf ho s.root hroot
    have hle := walkRoot_length_le_maxlen hw hleaf
    exact ⟨p, x, hleaf, by omega⟩
  · rcases walkRoot_entry hw he with rfl | ⟨p, x, hleaf, rfl⟩
    · exact absurd hcodev Bool.false_ne_true
    · exact ⟨p, x, hleaf, hlen⟩

end

/-- Settles O32: the walk ends or reports a first duplicate, and there is at most one first duplicate. -/
theorem gencodeRecordsThePaths : Obligations.GencodeRecordsThePaths := by
  refine ⟨gencode_format, fun s => ⟨fun hrootv => raises_of_body (body_gencode_noRoot hrootv),
    fun hrootv htree hroot => ?_⟩⟩
  rcases walkRoot_total htree.owned hroot with ⟨w, hw⟩ | ⟨y, hw, hy⟩
  · have hnodup := walkRoot_noDuplicateSymbol hw
    obtain ⟨hlen, hleaf, hother, hcounts⟩ := walkRoot_table hw
    exact ⟨fun x hx => absurd hx (hnodup.not_firstDuplicate x), fun _ =>
      ⟨hnodup, w.table, w.leaves, w.maxlen, gencode_completes hrootv hw, hlen, hleaf, hother, hcounts.leaves,
        fun _ _ => walkRoot_length_le_maxlen hw, walkRoot_maxlen_reached htree.owned hroot hw⟩⟩
  · refine ⟨fun x hx => ?_, fun hnone => absurd hy (hnone y)⟩
    obtain rfl := firstDuplicate_unique hx hy
    exact raises_of_body (body_gencode_of_error hrootv hw)

/-! ### No code begins another (R144) -/

/-- Settles O34: codes are paths to leaves, and a path cannot go on from a leaf. -/
theorem codesArePrefixFree : Obligations.CodesArePrefixFree := by
  intro s t h h0 x y p q hp hq hpq
  obtain ⟨d, hbody, rfl⟩ := exec_success h h0
  obtain ⟨-, w, hw, rfl⟩ := gencodeBody_ok hbody
  have hx : LeafAt s.nodes s.root p x := table_code hw hp
  have hy : LeafAt s.nodes s.root q y := table_code hw hq
  exact leafAt_sym hx (leafAt_prefix hx hy hpq ▸ hy)

/-! ### The buffer ENCODE leaves (R150 to R153) -/

section
variable {s t u : State} {a : Nat} {xs ys : List Sym} {codes : List (List Bool)} {bits : List Bool}

theorem symsAre_unique (hx : SymsAre s a xs) (hy : SymsAre s a ys) (hlen : xs.length = ys.length) : xs = ys :=
  List.ext_getElem hlen fun k hkx hky => Option.some_injective _ ((hx k hkx).symm.trans (hy k hky))

/-- The payload words of a stream are the ones R150 counts. -/
theorem div_lt_payloadWords {p n : Nat} (hp : p < n) : p / 32 < payloadWords n := by
  unfold payloadWords; omega

/-- The packed words hold the codes as a stream (R151). -/
theorem streamIs_writeList {m : Memory 32} {l : Word}
    (ht : t.wordmem = m.writeList a (l :: packWords codes)) : StreamIs t a codes.flatten := by
  intro p hp
  have hm : p / 32 < (packWords codes).length := by
    rw [packWords_length, bitCount_eq]; exact div_lt_payloadWords hp
  refine ⟨(packWords codes)[p / 32], ?_, ?_⟩
  · rw [ht, show a + 1 + p / 32 = a + (p / 32 + 1) by omega, Memory.read_writeList_get _ _ _ _ (Nat.succ_lt_succ hm)]
    rfl
  · rw [packWords_bit codes (List.getElem?_eq_getElem hm) (Nat.mod_lt p (by decide)), Nat.div_add_mod]

theorem StreamIs.congr (h : StreamIs s a bits)
    (hread : ∀ m, m < payloadWords bits.length → t.wordmem.read (a + 1 + m) = s.wordmem.read (a + 1 + m)) :
    StreamIs t a bits := fun p hp => by
  rw [hread _ (div_lt_payloadWords hp)]
  exact h p hp

/-- What a successful ENCODE of `xs` has left at WORDMEM[ARG2]: the codes of `xs` as a packed buffer with its exact
length, and the size of the buffer in RESULT1. -/
structure Encoded (s t : State) (xs : List Sym) (codes : List (List Bool)) : Prop where
  coded : CodesAre s xs codes
  result : t.result.toNat = codes.flatten.length
  result1 : t.result1.toNat = payloadWords codes.flatten.length
  room : s.arg2.toNat + payloadWords codes.flatten.length + 1 ≤ s.wordSize
  lengthWord : t.wordmem.read s.arg2.toNat = some t.result
  stream : StreamIs t s.arg2.toNat codes.flatten

/-- The bound of R6 makes the bit count exact, and the room in WORDMEM the word count. -/
theorem exists_encoded (hInv : s.Inv) (h : exec .encode s = .next t) (h0 : t.errcode = 0#8)
    (hlen : xs.length = s.arg1.toNat) (hsyms : SymsAre s s.arg0.toNat xs) : ∃ codes, Encoded s t xs codes := by
  obtain ⟨d, hbody, rfl⟩ := exec_success h h0
  obtain ⟨htable, hsymRoom, codes, hgather, hroom, rfl⟩ := encodeBody_ok hbody
  obtain ⟨ys, hylen, hysyms, hcodes⟩ := gatherCodes_inv hgather
  obtain rfl : ys = xs := symsAre_unique hysyms hsyms (hylen.trans hlen.symm)
  have hbound := encode_bound hInv hlen htable hsymRoom hcodes
  have hsize : s.wordSize < 2 ^ 32 := s.wordcap.isLt
  rw [bitCount_eq] at hroom
  have hcount : (toWord (bitCount codes)).toNat = codes.flatten.length := by
    rw [bitCount_eq, toWord_toNat_of_lt (by omega)]
  have hwords : (toWord (packWords codes).length).toNat = payloadWords codes.flatten.length := by
    rw [packWords_length, bitCount_eq, toWord_toNat_of_lt (by omega)]
  exact ⟨codes, hcodes, hcount, hwords, hroom,
    Memory.read_writeList_get s.wordmem (toWord (bitCount codes) :: packWords codes) s.opArg2 0 (Nat.zero_lt_succ _),
    streamIs_writeList rfl⟩

end

/-! ### The same tree (R28, R145) -/

section
variable {s t u : State} {p : List Bool} {x : Sym} {xs : List Sym} {codes : List (List Bool)}

theorem Extends.leafAt {a b : List Node} (h : Extends a b) {n : Nat} (hleaf : LeafAt a n p x) : LeafAt b n p x := by
  obtain ⟨i, m, hfollow, hm, hkind, hsym⟩ := hleaf
  obtain ⟨m', hm', hshape⟩ := h i m hm
  obtain ⟨hkind', hsym', -⟩ := Node.shape_eq_iff.1 hshape
  exact ⟨i, m', h.follow hfollow, hm', hkind'.trans hkind, hsym'.trans hsym⟩

/-- ENCODE writes no part of the tree. -/
theorem encode_sameTree (h : exec .encode s = .next t) : SameTree s t := by
  rw [exec_writtenBy h]
  exact ⟨rfl, rfl, Extends.refl _⟩

theorem SameTree.trans (hst : SameTree s t) (htu : SameTree t u) : SameTree s u :=
  ⟨htu.root.trans hst.root, htu.rootv.trans hst.rootv, Extends.trans hst.nodes htu.nodes⟩

/-- A code of the table in force is the path to a leaf, here and in every state with the same tree (R35, R141). -/
theorem SameTree.codesAre_leafAt (h : SameTree s u) (hvalid : s.Valid) (hcodetv : s.codetv = true)
    (hcodes : CodesAre s xs codes) : List.Forall₂ (fun x p => LeafAt u.nodes u.root p x) xs codes := by
  obtain ⟨w, hw, hcode⟩ := hvalid.table hcodetv
  refine hcodes.imp fun x p hxp => ?_
  rw [h.root]
  exact Extends.leafAt h.nodes (table_code hw (hcode ▸ hxp))

end

/-! ### DECODE of a coded text (R155, R159) -/

section
variable {s : State} {m : Node} {n : Nat} {xs : List Sym} {codes : List (List Bool)}

theorem toWord_of_toNat (v : Word) : toWord v.toNat = v := BitVec.eq_of_toNat_eq (toWord_toNat_of_lt v.isLt)

/-- DECODE once its symbols are known and fit (R155). -/
theorem decode_completes {l : Word} (ha : s.arg0.toNat < s.wordSize) (hl : s.wordmem.read s.arg0.toNat = some l)
    (hout : s.decodeOut s.arg0.toNat l.toNat s.arg1.toNat = .ok xs) (hroom : s.arg2.toNat + xs.length ≤ s.symSize) :
    Completes .decode s { s with symmem := s.symmem.writeList s.arg2.toNat xs } xs.length l.toNat :=
  completes_of_body <| by
    rw [decodeBody_eq ha hl, hout, toWord_of_toNat]
    exact if_neg (Nat.not_lt.2 hroom)

/-- Under a leaf every code is empty and every symbol is the leaf's (R142). -/
theorem coded_under_leaf {nodes : List Node} (hm : nodes[n]? = some m) (hkind : m.kind = .leaf)
    (h : List.Forall₂ (fun x p => LeafAt nodes n p x) xs codes) :
    codes.flatten = [] ∧ List.replicate xs.length m.sym = xs := by
  induction h with
  | nil => exact ⟨rfl, rfl⟩
  | cons hx _ ih =>
    obtain ⟨hflatten, hsyms⟩ := ih
    obtain ⟨rfl, rfl⟩ := (leafAt_of_leaf hm hkind).1 hx
    exact ⟨hflatten, congrArg (m.sym :: ·) hsyms⟩

/-- Under an internal node every code has a bit, so no bits carry no symbols. -/
theorem coded_nil_of_no_bits {nodes : List Node} (hm : nodes[n]? = some m) (hkind : m.kind = .internal)
    (h : List.Forall₂ (fun x p => LeafAt nodes n p x) xs codes) (hflatten : codes.flatten = []) : xs = [] := by
  cases h with
  | nil => rfl
  | cons hx _ =>
    obtain ⟨rfl, -⟩ := List.append_eq_nil_iff.1 hflatten
    exact absurd hx (not_leafAt_nil hm hkind)

theorem decodeOut_noBits (hrootv : s.rootv = true) (hm : s.nodes[s.root]? = some m) (a rep : Nat) :
    s.decodeOut a 0 rep = .ok (match m.kind with | .leaf => List.replicate rep m.sym | .internal => []) := by
  rw [State.decodeOut, if_pos rfl, State.emptyStreamOut, if_neg (by simp [hrootv]), engineNode_some hm]
  simp only [bind, Except.bind]
  cases m.kind <;> rfl

/-- The three cases of R159: a leaf ROOT repeats its symbol, an internal ROOT emits nothing for no bits and walks the
stream otherwise. -/
theorem decodeOut_coded {l : Word} (hrootv : s.rootv = true) (hm : s.nodes[s.root]? = some m)
    (h : List.Forall₂ (fun x p => LeafAt s.nodes s.root p x) xs codes) (hl : l.toNat = codes.flatten.length)
    (ha : s.arg0.toNat + payloadWords l.toNat < s.wordSize) (hstream : StreamIs s s.arg0.toNat codes.flatten)
    (hrep : s.arg1.toNat = xs.length) : s.decodeOut s.arg0.toNat l.toNat s.arg1.toNat = .ok xs := by
  cases hkind : m.kind with
  | leaf =>
    obtain ⟨hflatten, hsyms⟩ := coded_under_leaf hm hkind h
    rw [hl, hflatten, List.length_nil, decodeOut_noBits hrootv hm, hkind, hrep]
    exact congrArg Except.ok hsyms
  | internal =>
    by_cases hzero : l.toNat = 0
    · obtain rfl := coded_nil_of_no_bits hm hkind h (List.length_eq_zero_iff.1 (hl ▸ hzero))
      rw [hzero, decodeOut_noBits hrootv hm, hkind]
    · have hwords : (l.toNat + 31) / 32 ≤ payloadWords l.toNat := Nat.le_max_right ..
      exact decode_stream hrootv hm hkind h hl hzero (by omega) hstream

end

/-- Settles O44: the buffer ENCODE left is read back under the same tree, whose leaves the codes lead to. -/
theorem decodeInvertsEncode : Obligations.DecodeInvertsEncode := by
  intro s t u xs hInv hcodetv h h0 hlen hsyms htu hcap harg0 harg1 hbuffer hroom
  obtain ⟨codes, hcodes, hresult, hresult1, hfits, hword, hstream⟩ := exists_encoded hInv h h0 hlen hsyms
  have hsu := (encode_sameTree h).trans htu
  have hleaves := hsu.codesAre_leafAt hInv.valid hcodetv hcodes
  have hrootv := hInv.valid.tree hcodetv
  obtain ⟨m, hm, -⟩ := hsu.nodes s.root _ (List.getElem?_eq_getElem (hInv.valid.root hrootv))
  have hsize : u.wordSize = s.wordSize := by
    rw [State.wordSize, hcap, exec_writtenBy h]; rfl
  rw [← harg0] at hfits hword hstream hbuffer
  rw [← hbuffer _ (Nat.le_refl _) (Nat.le_add_right ..)] at hword
  have hstreamU : StreamIs u u.arg0.toNat codes.flatten :=
    hstream.congr fun j hj => hbuffer _ (by omega) (by omega)
  have hout := decodeOut_coded (hsu.rootv.trans hrootv) (hsu.root ▸ hm) hleaves hresult (by rw [hresult]; omega)
    hstreamU (by rw [harg1, hlen])
  exact ⟨_, decode_completes (by omega) hword hout hroom, Memory.read_writeList _ _ _⟩

end Sys2Proof.Machine
end

section
/-! Packed words (spec/44_packed.md): what ENCODE writes and its errors (R150 to R154, R158), what DECODE emits and its
errors (R155, R156), and that DECODE reads no padding (R157). -/

namespace Sys2Proof.Machine

/-! ### ENCODE (R152) -/

section
variable {s : State} {xs : List Sym} {codes : List (List Bool)}

/-- The input's two checks of R152: an empty input passes both. -/
def EncodeInputOk (s : State) : Prop :=
  0 < s.arg1.toNat → s.codetv = true ∧ s.arg0.toNat + s.arg1.toNat ≤ s.symSize

theorem EncodeInputOk.of_text (hlen : xs.length = s.arg1.toNat)
    (h : xs ≠ [] → s.codetv = true ∧ s.arg0.toNat + xs.length ≤ s.symSize) : EncodeInputOk s :=
  fun hpos => hlen ▸ h (List.length_pos_iff.1 (hlen ▸ hpos))

/-- ENCODE past the checks of its input (R152). -/
theorem body_encode_eq (h : EncodeInputOk s) :
    body .encode s = (s.gatherCodes s.arg0.toNat s.arg1.toNat 0).bind fun codes =>
      if s.arg2.toNat + payloadWords (bitCount codes) + 1 > s.wordSize then raise .badAddress (toWord 2)
      else .ok ⟨s.storeWords s.arg2.toNat (toWord (bitCount codes) :: packWords codes), toWord (bitCount codes),
        toWord (packWords codes).length⟩ := by
  have htable : ¬ (s.opArg1 > 0 ∧ s.codetv = false) := fun ⟨hpos, hno⟩ => by simp [(h hpos).1] at hno
  have hroom : ¬ (s.opArg1 > 0 ∧ s.opArg0 + s.opArg1 > s.symSize) := fun ⟨hpos, hout⟩ =>
    Nat.not_lt.2 (h hpos).2 hout
  rw [body, encodeBody, if_neg htable, if_neg hroom, State.opArg0, State.opArg1]
  cases s.gatherCodes s.arg0.toNat s.arg1.toNat 0 <;> rfl

theorem body_encode_noTable (hpos : 0 < s.arg1.toNat) (hcodetv : s.codetv = false) :
    body .encode s = .error (.raise .invalidTree (toWord 0)) := if_pos ⟨hpos, hcodetv⟩

theorem body_encode_outsideSymmem (hpos : 0 < s.arg1.toNat) (hcodetv : s.codetv = true)
    (hout : s.symSize < s.arg0.toNat + s.arg1.toNat) : body .encode s = .error (.raise .badAddress (toWord 0)) := by
  rw [body, encodeBody, if_neg (by simp [hcodetv])]
  exact if_pos ⟨hpos, hout⟩

/-- A coded input is gathered whole. -/
theorem gatherCodes_text (hlen : xs.length = s.arg1.toNat) (hsyms : SymsAre s s.arg0.toNat xs)
    (hcodes : CodesAre s xs codes) : s.gatherCodes s.arg0.toNat s.arg1.toNat 0 = .ok codes :=
  hlen ▸ gatherCodes_ok hsyms (codesAre_map hcodes)

theorem body_encode_unknown {x : Sym} {e : CodeEntry} (h : EncodeInputOk s) (hlen : xs.length < s.arg1.toNat)
    (hsyms : SymsAre s s.arg0.toNat (xs ++ [x])) (hcodes : CodesAre s xs codes) (he : s.code[x.toNat]? = some e)
    (hcodev : e.codev = false) : body .encode s = .error (.raise .unknownSymbol (toWord xs.length)) := by
  obtain ⟨_, path⟩ := e
  obtain rfl : _ = false := hcodev
  have hgather := gatherCodes_unknown (a := s.arg0.toNat) (k := 0) (n := s.arg1.toNat - (xs.length + 1)) hsyms
    (codesAre_map hcodes) he
  rw [Nat.add_sub_cancel' hlen, Nat.zero_add] at hgather
  rw [body_encode_eq h, hgather]
  rfl

theorem body_encode_outsideWordmem (h : EncodeInputOk s)
    (hgather : s.gatherCodes s.arg0.toNat s.arg1.toNat 0 = .ok codes)
    (hout : s.wordSize < s.arg2.toNat + payloadWords codes.flatten.length + 1) :
    body .encode s = .error (.raise .badAddress (toWord 2)) := by
  rw [body_encode_eq h, hgather]
  exact if_pos (bitCount_eq codes ▸ hout)

theorem encode_completes (h : EncodeInputOk s) (hgather : s.gatherCodes s.arg0.toNat s.arg1.toNat 0 = .ok codes)
    (hroom : s.arg2.toNat + payloadWords codes.flatten.length + 1 ≤ s.wordSize) :
    Completes .encode s (s.storeWords s.arg2.toNat (toWord codes.flatten.length :: packWords codes))
      codes.flatten.length (payloadWords codes.flatten.length) :=
  completes_of_body <| by
    rw [← bitCount_eq] at hroom ⊢
    rw [body_encode_eq h, hgather, ← packWords_length]
    exact if_neg (Nat.not_lt.2 hroom)

/-- Payload word `m` of a packed buffer and its bits (R151, R153). -/
theorem read_buffer_payload (mem : Memory 32) (b : Nat) (l : Word) {m p : Nat}
    (hm : m < payloadWords codes.flatten.length) (hp : p < 32) :
    ∃ v : Word, (mem.writeList b (l :: packWords codes)).read (b + 1 + m) = some v ∧
      v.getLsbD (31 - p) = codes.flatten.getD (32 * m + p) false := by
  have hlen : m < (packWords codes).length := by rwa [packWords_length, bitCount_eq]
  refine ⟨(packWords codes)[m], ?_, packWords_bit codes (List.getElem?_eq_getElem hlen) hp⟩
  rw [Nat.add_assoc, Nat.add_comm 1 m]
  exact Memory.read_writeList_get mem (l :: packWords codes) b (m + 1) (Nat.succ_lt_succ hlen)

/-- Outside a packed buffer's `payloadWords T + 1` elements WORDMEM is as before (R154). -/
theorem read_outside_buffer (mem : Memory 32) {b j : Nat} (l : Word)
    (hj : j < b ∨ b + payloadWords codes.flatten.length < j) :
    (mem.writeList b (l :: packWords codes)).read j = mem.read j := by
  rw [Memory.read_writeList, if_neg]
  rw [List.length_cons, packWords_length, bitCount_eq]
  omega

end

/-- Settles O37: the loop's words are the closed form of R153, written behind the length word. -/
theorem encodeWritesThePackedBuffer : Obligations.EncodeWritesThePackedBuffer := by
  rintro s xs codes _ _ _ hlen hinput hsyms hcodes rfl rfl rfl hroom
  have hgather := gatherCodes_text hlen hsyms hcodes
  exact ⟨_, encode_completes (.of_text hlen hinput) hgather hroom,
    Memory.read_writeList_get s.wordmem (_ :: _) s.arg2.toNat 0 (Nat.zero_lt_succ _),
    fun _ _ hm hp => read_buffer_payload s.wordmem s.arg2.toNat _ hm hp,
    fun _ hj => read_outside_buffer s.wordmem _ hj⟩

/-- Settles O38: each check is one branch of the body, taken once those before it are passed. -/
theorem encodeChecksInOrder : Obligations.EncodeChecksInOrder :=
  ⟨encode_format, fun _ =>
    ⟨fun hpos hcodetv => raises_of_body (body_encode_noTable hpos hcodetv),
      fun hpos hcodetv hout => raises_of_body (body_encode_outsideSymmem hpos hcodetv hout),
      fun _ _ _ _ hcodetv hroom hlen hsyms hcodes he hcodev =>
        raises_of_body (body_encode_unknown (fun _ => ⟨hcodetv, hroom⟩) hlen hsyms hcodes he hcodev),
      fun _ _ hlen hinput hsyms hcodes hout =>
        have hgather := gatherCodes_text hlen hsyms hcodes
        raises_of_body (body_encode_outsideWordmem (.of_text hlen hinput) hgather hout)⟩⟩

/-! ### DECODE (R155, R156) -/

section
variable {s : State} {l : Word} {n : Node} {xs : List Sym} {codes : List (List Bool)}

theorem body_decode_outsideWordmem (ha : s.wordSize ≤ s.arg0.toNat) :
    body .decode s = .error (.raise .badAddress (toWord 0)) := if_pos ha

/-- DECODE ends as its symbols' computation does if that stops (R155). -/
theorem body_decode_of_error {stop : Stop} (ha : s.arg0.toNat < s.wordSize) (hl : s.wordmem.read s.arg0.toNat = some l)
    (hout : s.decodeOut s.arg0.toNat l.toNat s.arg1.toNat = .error stop) : body .decode s = .error stop := by
  rw [decodeBody_eq ha hl, hout]

/-- DECODE once its symbols are known and do not fit (R155). -/
theorem body_decode_outsideSymmem (ha : s.arg0.toNat < s.wordSize) (hl : s.wordmem.read s.arg0.toNat = some l)
    (hout : s.decodeOut s.arg0.toNat l.toNat s.arg1.toNat = .ok xs) (hroom : s.symSize < s.arg2.toNat + xs.length) :
    body .decode s = .error (.raise .badAddress (toWord 2)) := by
  rw [decodeBody_eq ha hl, hout]
  exact if_pos hroom

/-- DECODE once its symbols are known and fit (R155). -/
theorem body_decode_fits (ha : s.arg0.toNat < s.wordSize) (hl : s.wordmem.read s.arg0.toNat = some l)
    (hout : s.decodeOut s.arg0.toNat l.toNat s.arg1.toNat = .ok xs) (hroom : s.arg2.toNat + xs.length ≤ s.symSize) :
    body .decode s = .ok ⟨s.storeSyms s.arg2.toNat xs, toWord xs.length, l⟩ := by
  rw [decodeBody_eq ha hl, hout]
  exact if_neg (Nat.not_lt.2 hroom)

theorem decodeOut_noBits_noRoot (hrootv : s.rootv = false) (a rep : Nat) : s.decodeOut a 0 rep = .ok [] :=
  if_pos hrootv

theorem decodeOut_noRoot {k : Nat} (hk : k ≠ 0) (hrootv : s.rootv = false) (a rep : Nat) :
    s.decodeOut a k rep = .error (.raise .invalidTree (toWord 0)) :=
  (if_neg hk).trans (if_pos hrootv)

theorem decodeOut_outsideWordmem {a k : Nat} (hk : k ≠ 0) (hrootv : s.rootv = true)
    (ha : s.wordSize ≤ a + (k + 31) / 32) (rep : Nat) :
    s.decodeOut a k rep = .error (.raise .badAddress (toWord 0)) := by
  rw [State.decodeOut, if_neg hk, State.streamOut, if_neg (by simp [hrootv])]
  exact if_pos ha

theorem decodeOut_leaf {a k : Nat} (hk : k ≠ 0) (hrootv : s.rootv = true) (ha : a + (k + 31) / 32 < s.wordSize)
    (hn : s.nodes[s.root]? = some n) (hkind : n.kind = .leaf) (rep : Nat) :
    s.decodeOut a k rep = .error (.raise .badStream (toWord 0)) := by
  rw [State.decodeOut, if_neg hk, State.streamOut, if_neg (by simp [hrootv]),
    if_neg (show ¬ a + streamWords k ≥ s.wordSize from Nat.not_le.2 ha), engineNode_some hn]
  simp only [bind, Except.bind, hkind]
  rfl

/-- Whole codes and the beginning of one more: the traversal emits the codes' symbols, `start` is their end (R156). -/
theorem traverse_codes_tail {a i : Nat} {m : Node} {tail : List Bool} (hn : s.nodes[s.root]? = some n)
    (hkind : n.kind = .internal) (hleaves : List.Forall₂ (fun x p => LeafAt s.nodes s.root p x) xs codes)
    (hstream : StreamIs s a (codes.flatten ++ tail)) (hfollow : follow s.nodes s.root tail = some i)
    (hm : s.nodes[i]? = some m) (hinner : m.kind = .internal) :
    s.traverse a (codes.flatten ++ tail).length =
      .ok { cur := i, out := xs, start := codes.flatten.length } := by
  have hcodes := traverseBits_codes hn hkind hleaves tail 0 [] 0 rfl
  have htail := traverseBits_inner (rest := []) (p := 0 + codes.flatten.length)
    (c := { cur := s.root, out := [] ++ xs, start := 0 + codes.flatten.length }) hfollow hm hinner
  rw [List.append_nil] at htail
  rw [traverse_eq hstream, hcodes, htail, Nat.zero_add]
  rfl

/-- Bits that end inside a code: the error names the position after the last whole code (R155). -/
theorem decodeOut_tail {a k i : Nat} {m : Node} {tail : List Bool} (hk : k ≠ 0) (hrootv : s.rootv = true)
    (ha : a + (k + 31) / 32 < s.wordSize) (hn : s.nodes[s.root]? = some n) (hkind : n.kind = .internal)
    (hleaves : List.Forall₂ (fun x p => LeafAt s.nodes s.root p x) xs codes)
    (hlen : k = (codes.flatten ++ tail).length) (hstream : StreamIs s a (codes.flatten ++ tail)) (htail : tail ≠ [])
    (hfollow : follow s.nodes s.root tail = some i) (hm : s.nodes[i]? = some m) (hinner : m.kind = .internal)
    (rep : Nat) : s.decodeOut a k rep = .error (.raise .badStream (toWord codes.flatten.length)) := by
  have htraverse := traverse_codes_tail hn hkind hleaves hstream hfollow hm hinner
  rw [← hlen, State.traverse] at htraverse
  have hshort : codes.flatten.length ≠ k := by
    have hpos := List.length_pos_iff.2 htail
    rw [hlen, List.length_append]
    omega
  rw [decodeOut_internal hk hrootv ha hn hkind, htraverse]
  exact if_pos hshort

end

/-- Settles O40: whole codes are walked to their leaves, and the symbols are written as one range. -/
theorem decodeEmitsTheCodedSymbols : Obligations.DecodeEmitsTheCodedSymbols := by
  intro s n l xs codes hrootv hn hkind hleaves hword hlen hne ha hstream hroom
  have hpos : l.toNat ≠ 0 := fun h0 =>
    hne (coded_nil_of_no_bits hn hkind hleaves (List.length_eq_zero_iff.1 (hlen ▸ h0)))
  have hout := decode_stream hrootv hn hkind hleaves hlen hpos ha hstream
  exact ⟨_, decode_completes (Nat.lt_of_le_of_lt (Nat.le_add_right ..) ha) hword hout hroom,
    Memory.read_writeList _ _ _⟩

/-- DECODE that emits no symbols checks ARG2 alone and writes nothing (R155). -/
theorem decode_noSymbols {s : State} (ha : s.arg0.toNat < s.wordSize) (hword : s.wordmem.read s.arg0.toNat = some 0#32)
    (hout : s.decodeOut s.arg0.toNat 0 s.arg1.toNat = .ok []) :
    (s.symSize < s.arg2.toNat → Raises .decode s 10#8 2) ∧ (s.arg2.toNat ≤ s.symSize → Completes .decode s s 0 0) :=
  ⟨fun hroom => raises_of_body (body_decode_outsideSymmem ha hword hout hroom), decode_completes ha hword hout⟩

/-- Settles O41: no bits give ARG1 copies of a leaf ROOT's symbol, and no symbols in the other two cases. -/
theorem decodeOfNoBitsRepeatsASingleLeaf : Obligations.DecodeOfNoBitsRepeatsASingleLeaf := by
  intro s ha hword
  refine ⟨fun hrootv => decode_noSymbols ha hword (decodeOut_noBits_noRoot hrootv _ _), fun n hn hrootv => ?_⟩
  have hout := decodeOut_noBits hrootv hn s.arg0.toNat s.arg1.toNat
  refine ⟨fun hkind => ?_, fun hkind => ?_⟩
  · rw [hkind] at hout
    exact decode_noSymbols ha hword hout
  · rw [hkind] at hout
    have hlen : (List.replicate s.arg1.toNat n.sym).length = s.arg1.toNat := List.length_replicate
    refine ⟨fun hroom => raises_of_body (body_decode_outsideSymmem ha hword hout (hlen.symm ▸ hroom)), fun hroom => ?_⟩
    have hcompletes := decode_completes ha hword hout (hlen.symm ▸ hroom)
    rw [hlen] at hcompletes
    refine ⟨_, hcompletes, fun j => ?_⟩
    rw [Memory.read_writeList, hlen]
    split
    · rw [List.getElem?_replicate, if_pos (by omega)]
    · rfl

/-- Settles O42: each check is one branch of `decodeOut` or of the body, taken once those before it are passed. -/
theorem decodeChecksInOrder : Obligations.DecodeChecksInOrder := by
  refine ⟨decode_format, fun s => ⟨fun ha => raises_of_body (body_decode_outsideWordmem ha), ?_⟩⟩
  intro l ha hword hne
  have hpos : l.toNat ≠ 0 := fun h0 => hne (BitVec.eq_of_toNat_eq h0)
  refine ⟨fun hrootv => ?_, fun hrootv hout => ?_, fun n hn hrootv hroom => ⟨fun hkind => ?_, ?_⟩⟩
  · exact raises_of_body (body_decode_of_error ha hword (decodeOut_noRoot hpos hrootv _ _))
  · exact raises_of_body (body_decode_of_error ha hword (decodeOut_outsideWordmem hpos hrootv hout _))
  · exact raises_of_body (body_decode_of_error ha hword (decodeOut_leaf hpos hrootv hroom hn hkind _))
  intro hkind xs codes tail hleaves hlen hstream
  refine ⟨fun i m htail hfollow hm hinner => ?_, ?_⟩
  · have hout := decodeOut_tail hpos hrootv hroom hn hkind hleaves hlen hstream htail hfollow hm hinner s.arg1.toNat
    exact raises_of_body (body_decode_of_error ha hword hout)
  · rintro rfl hsmall
    rw [List.append_nil] at hlen hstream
    have hout := decode_stream hrootv hn hkind hleaves hlen hpos hroom hstream
    exact raises_of_body (body_decode_outsideSymmem ha hword hout hsmall)

/-! ### Padding (R157) -/

section
variable {s : State} {wordmem : Memory 32} {a k : Nat}

/-- `s` with another word memory. -/
def State.withWords (s : State) (m : Memory 32) : State := { s with wordmem := m }

@[simp] theorem State.withWords_wordmem (m : Memory 32) : (s.withWords m).wordmem = m := rfl

/-- Stream bit `p` of the buffer at `a` in a word memory, where it is specified (R151). -/
def Memory.streamBit (m : Memory 32) (a p : Nat) : Option Bool :=
  (m.read (a + 1 + p / 32)).map fun v => v.getLsbD (31 - p % 32)

theorem streamBit_eq (s : State) (a p : Nat) :
    s.streamBit a p = specified .wordmem (a + 1 + p / 32) (s.wordmem.streamBit a p) := by
  rw [State.streamBit, State.engineWord, Memory.streamBit]
  cases s.wordmem.read (a + 1 + p / 32) <;> rfl

/-- The traversal reads the stream's own bits and nothing else of WORDMEM (R156). -/
theorem traverseFrom_withWords {n p : Nat}
    (h : ∀ q, p ≤ q → q < p + n → wordmem.streamBit a q = s.wordmem.streamBit a q) (c : Cursor) :
    (s.withWords wordmem).traverseFrom a n p c = s.traverseFrom a n p c := by
  induction n generalizing p c with
  | zero => rfl
  | succ n ih =>
    have hbit : (s.withWords wordmem).streamBit a p = s.streamBit a p := by
      rw [streamBit_eq, streamBit_eq, State.withWords_wordmem, h p (Nat.le_refl p) (by omega)]
    have hrest := ih (p := p + 1) fun q hpq hqn => h q (by omega) (by omega)
    simp only [State.traverseFrom, hbit, hrest]
    rfl

theorem decodeOut_withWords (h : ∀ p, p < k → wordmem.streamBit a p = s.wordmem.streamBit a p) (rep : Nat) :
    (s.withWords wordmem).decodeOut a k rep = s.decodeOut a k rep := by
  have htraverse : (s.withWords wordmem).traverse a k = s.traverse a k :=
    traverseFrom_withWords (fun q _ hq => h q (by omega)) _
  simp only [State.decodeOut, State.streamOut, htraverse]
  rfl

/-- DECODE's body over another word memory with the same stream: the same end, with that word memory. -/
theorem body_decode_withWords {l : Word} (hl : s.wordmem.read s.arg0.toNat = some l)
    (hl' : wordmem.read s.arg0.toNat = some l)
    (h : ∀ p, p < l.toNat → wordmem.streamBit s.arg0.toNat p = s.wordmem.streamBit s.arg0.toNat p) :
    body .decode (s.withWords wordmem) =
      (body .decode s).map fun d => { d with state := d.state.withWords wordmem } := by
  by_cases ha : s.arg0.toNat < s.wordSize
  · have hsame := decodeOut_withWords h s.arg1.toNat
    cases hout : s.decodeOut s.arg0.toNat l.toNat s.arg1.toNat with
    | error e =>
      rw [body_decode_of_error ha hl hout,
        body_decode_of_error (s := s.withWords wordmem) ha hl' (hsame.trans hout)]
      rfl
    | ok out =>
      rcases Nat.lt_or_ge s.symSize (s.arg2.toNat + out.length) with hroom | hroom
      · rw [body_decode_outsideSymmem ha hl hout hroom,
          body_decode_outsideSymmem (s := s.withWords wordmem) ha hl' (hsame.trans hout) hroom]
        rfl
      · rw [body_decode_fits ha hl hout hroom,
          body_decode_fits (s := s.withWords wordmem) ha hl' (hsame.trans hout) hroom]
        rfl
  · have ha := Nat.not_lt.1 ha
    rw [body_decode_outsideWordmem ha, body_decode_outsideWordmem (s := s.withWords wordmem) ha]
    rfl

end

/-- Settles O43: the body reads the length word and the stream bits below it, and writes no WORDMEM. -/
theorem decodeIgnoresPadding : Obligations.DecodeIgnoresPadding := by
  intro s t l wordmem hl hl' hbits h
  have hbody := body_decode_withWords hl hl' hbits
  change exec .decode (s.withWords wordmem) = _
  rw [exec_eq, hbody]
  rcases exec_next h with ⟨d, hd, rfl⟩ | ⟨e, info, hd, rfl⟩
  · rw [hd]; rfl
  · rw [hd]; rfl

end Sys2Proof.Machine
end

section
/-! The control commands (spec/45_control.md): NOP (R170), CLR (R171) and FRQCLR (R172). -/

namespace Sys2Proof.Machine

section
variable (s : State)

theorem body_nop : body .nop s = .ok ⟨s, toWord 0, toWord 0⟩ := rfl

theorem body_clr : body .clr s = .ok ⟨s.clearTree, toWord 0, toWord 0⟩ := rfl

theorem body_frqclr : body .frqclr s = .ok ⟨s.zeroFreq, toWord 0, toWord 0⟩ := rfl

/-- FRQCLR gives the 256 elements of FREQ the value 0 and leaves every other element as it was (R172). -/
theorem read_zeroFreq (k : Nat) : s.zeroFreq.freq.read k = if k < 256 then some 0#32 else s.freq.read k := by
  rw [State.zeroFreq_freq, Memory.read_writeList, List.length_replicate, Config.nSym_eq, Nat.zero_add, Nat.sub_zero]
  by_cases hk : k < 256
  · rw [if_pos ⟨Nat.zero_le k, hk⟩, if_pos hk, List.getElem?_replicate_of_lt hk]
  · rw [if_neg fun h => hk h.2, if_neg hk]

/-- FRQCLR writes FREQ and nothing else (R172). -/
theorem zeroFreq_frame : s.zeroFreq = { s with freq := s.zeroFreq.freq } := by
  rw [State.zeroFreq]

end

/-- Settles O17: the body is the start state with both results 0. -/
theorem nopOnlyCompletes : Obligations.NopOnlyCompletes :=
  ⟨nop_format, fun s => completes_of_body (body_nop s)⟩

/-- Settles O18: the body is `clearTree`, whose writes are the ones R171 lists. -/
theorem clrDiscardsTheTree : Obligations.ClrDiscardsTheTree :=
  ⟨clr_format, fun s => completes_of_body (body_clr s)⟩

/-- Settles O19: the body is `zeroFreq`, which writes FREQ alone, element by element. -/
theorem frqclrZeroesEveryFrequency : Obligations.FrqclrZeroesEveryFrequency :=
  ⟨frqclr_format, fun s => ⟨s.zeroFreq.freq, zeroFreq_frame s ▸ completes_of_body (body_frqclr s), read_zeroFreq s⟩⟩

end Sys2Proof.Machine
end

section
/-! Completion and errors (spec/60_exceptions.md): what an error leaves and that it repeats (R182, R184), which errors a
command raises (R180, R185), and the completion interrupt (R190, R191). -/

namespace Sys2Proof.Machine

section
variable {s t u : State} {i : Instr} {e : ErrorKind} {info : Word}

/-! ### What an error leaves (R182, R184) -/

/-- A command whose completion carries an error raised it in its body, and left the start state (R182). -/
theorem exec_raised (h : exec i s = .next t) (hne : t.errcode ≠ 0#8) :
    ∃ e info, body i s = .error (.raise e info) ∧ t = s.completeError e info := by
  rcases exec_next h with ⟨d, -, rfl⟩ | hraise
  · exact absurd rfl hne
  · exact hraise

/-- What a body raises does not depend on the registers that no command reads. -/
theorem body_withHost_raise (h : body i s = .error (.raise e info)) (u : State) :
    body i (s.withHost u) = .error (.raise e info) := by
  rw [body_withHost, h]; rfl

/-- Starting a command again after an error changes, of the start state, only registers that no command reads. -/
theorem startCommand_completeError (s : State) (e : ErrorKind) (info v : Word) :
    (s.completeError e info).startCommand v = s.withHost ((s.completeError e info).startCommand v) := rfl

/-! ### Which errors a command raises (R180, R185) -/

/-- The errors of a command in its check order, each kind once (R185). -/
def errorsOf : Instr → List ErrorKind
  | .nop | .clr | .frqclr => []
  | .mkleaf _ => [.nodeFull]
  | .hins _ => [.badNode, .nodeBusy]
  | .hpop => [.emptyQueue]
  | .merge => [.emptyQueue, .nodeFull, .weightOverflow]
  | .setroot _ => [.badNode]
  | .build => [.emptyInput, .weightOverflow]
  | .gencode => [.invalidTree]
  | .encode => [.invalidTree, .unknownSymbol, .badAddress]
  | .decode => [.invalidTree, .badAddress, .badStream]

theorem mkleafBody_raise {x : Sym} (h : mkleafBody x s = .error (.raise e info)) : e = .nodeFull := by
  unfold mkleafBody at h
  split at h
  · cases h; rfl
  · cases h

theorem hinsBody_raise {k : Nat} (h : hinsBody k s = .error (.raise e info)) : e = .badNode ∨ e = .nodeBusy := by
  unfold hinsBody at h
  split at h
  · cases h; exact .inl rfl
  · split at h
    · cases h; exact .inr rfl
    · split at h
      · cases h
      · split at h <;> cases h

theorem hpopBody_raise (h : hpopBody s = .error (.raise e info)) : e = .emptyQueue := by
  unfold hpopBody at h
  split at h
  · cases h; rfl
  · split at h <;> cases h

theorem mergeStep_raise (h : s.mergeStep = .error (.raise e info)) :
    e = .emptyQueue ∨ e = .nodeFull ∨ e = .weightOverflow := by
  unfold State.mergeStep at h
  split at h
  · cases h; exact .inl rfl
  · split at h
    · cases h; exact .inr (.inl rfl)
    · split at h
      · cases h
      · dsimp only at h
        split at h
        · cases h; exact .inr (.inr rfl)
        · cases h

theorem mergeBody_raise (h : mergeBody s = .error (.raise e info)) : s.mergeStep = .error (.raise e info) := by
  unfold mergeBody at h
  split at h
  · rename_i hstep; cases h; exact hstep
  · cases h

theorem setrootBody_raise {k : Nat} (h : setrootBody k s = .error (.raise e info)) : e = .badNode := by
  unfold setrootBody at h
  split at h
  · cases h; rfl
  · cases h

theorem gencodeBody_raise (h : gencodeBody s = .error (.raise e info)) : e = .invalidTree := by
  unfold gencodeBody at h
  split at h
  · cases h; rfl
  · split at h
    · rename_i hwalk; cases h; exact walk_error hwalk
    · cases h

theorem gatherCodes_raise {a n k : Nat} (h : s.gatherCodes a n k = .error (.raise e info)) : e = .unknownSymbol := by
  rcases gatherCodes_error h with ⟨j, -, hj⟩ | ⟨j, -, -, hj⟩ | ⟨x, -, hx⟩
  · cases hj; rfl
  · cases hj
  · cases hx

theorem encodeBody_raise (h : encodeBody s = .error (.raise e info)) :
    e = .invalidTree ∨ e = .unknownSymbol ∨ e = .badAddress := by
  unfold encodeBody at h
  dsimp only at h
  split at h
  · cases h; exact .inl rfl
  · split at h
    · cases h; exact .inr (.inr rfl)
    · split at h
      · rename_i hgather; cases h; exact .inr (.inl (gatherCodes_raise hgather))
      · split at h
        · cases h; exact .inr (.inr rfl)
        · cases h

theorem decodeBody_raise (h : decodeBody s = .error (.raise e info)) :
    e = .invalidTree ∨ e = .badAddress ∨ e = .badStream := by
  unfold decodeBody at h
  dsimp only at h
  split at h
  · cases h; exact .inr (.inl rfl)
  · split at h
    · rename_i hword; cases h; exact absurd hword engineWord_error
    · split at h
      · rename_i hout; cases h; exact decodeOut_error hout
      · split at h
        · cases h; exact .inr (.inl rfl)
        · cases h

/-- Every error a body raises is in its command's row of R185. -/
theorem body_raise_mem (h : body i s = .error (.raise e info)) : e ∈ errorsOf i := by
  cases i with
  | nop | clr | frqclr => cases h
  | mkleaf x => simpa [errorsOf] using mkleafBody_raise h
  | hins k => simpa [errorsOf] using hinsBody_raise h
  | hpop => simpa [errorsOf] using hpopBody_raise h
  | merge => simpa [errorsOf] using mergeStep_raise (mergeBody_raise h)
  | setroot k => simpa [errorsOf] using setrootBody_raise h
  | build => simpa [errorsOf] using build_error h
  | gencode => simpa [errorsOf] using gencodeBody_raise h
  | encode => simpa [errorsOf] using encodeBody_raise h
  | decode => simpa [errorsOf] using decodeBody_raise h

/-- ERRCODE after a completion is 0 or the code of an error in the command's row of R185. -/
theorem exec_errcode_mem (h : exec i s = .next t) :
    t.errcode.toNat ∈ 0 :: (errorsOf i).map fun e => e.code.toNat := by
  rcases exec_next h with ⟨d, -, rfl⟩ | ⟨e, info, hbody, rfl⟩
  · exact List.mem_cons_self
  · exact List.mem_cons_of_mem 0 (List.mem_map_of_mem (body_raise_mem hbody))

/-! ### The completion interrupt (R190, R191) -/

/-- Every completion, of a success or of an error, sets DONE (R182, R183). -/
theorem exec_done (h : exec i s = .next t) : t.done = true := by
  rcases exec_next h with ⟨d, -, rfl⟩ | ⟨e, info, -, rfl⟩ <;> rfl

theorem exec_ie (h : exec i s = .next t) : t.ie = s.ie := by
  obtain ⟨-, -, -, -, hie, -⟩ := commandsLeaveTheHostRegisters i s t h
  exact hie

theorem exec_irq (h : exec i s = .next t) : t.irq = s.ie := by
  rw [State.irq, exec_done h, exec_ie h, Bool.and_true]

@[simp] theorem State.writeCtrl_irq (s : State) (v : Word) : (s.writeCtrl v).irq = (v.getLsbD 0 && s.done) := rfl

@[simp] theorem State.writeStatus_irq (s : State) (v : Word) : (s.writeStatus v).irq = (s.irq && !v.getLsbD 1) :=
  (Bool.and_assoc ..).symm

@[simp] theorem State.startCommand_irq (s : State) (v : Word) : (s.startCommand v).irq = false := Bool.and_false _

/-- A host write leads to one state only, for an address the port has. -/
theorem HostWrites.unique {a : Nat} {v : Word} (ha : a < 2 ^ 18) (ht : HostWrites s a v t) (hu : HostWrites s a v u) :
    t = u :=
  (hostWrites_eq ha ht).trans (hostWrites_eq ha hu).symm

end

/-- Settles O9: an error completion is `completeError` of the start state. -/
theorem errorsChangeNothingElse : Obligations.ErrorsChangeNothingElse := by
  intro i s t h hne
  obtain ⟨e, info, -, rfl⟩ := exec_raised h hne
  rfl

/-- Settles O10: the error and the new start change only registers no command reads, so the body raises as before. -/
theorem reissuedErrorRepeats : Obligations.ReissuedErrorRepeats := by
  intro i s t v h hne
  obtain ⟨e, info, hbody, rfl⟩ := exec_raised h hne
  have hagain := body_withHost_raise hbody ((s.completeError e info).startCommand v)
  rw [← startCommand_completeError] at hagain
  rw [exec_eq, hagain]
  rfl

/-- Settles O12: each list is 0 and the codes of the command's row of R185. -/
theorem errorCodesByCommand : Obligations.ErrorCodesByCommand := by
  intro i s t h
  have hmem := exec_errcode_mem h
  cases i <;> exact hmem

/-- Settles O16: completions set DONE and keep IE; the three writes reach CTRL, STATUS and CMD. -/
theorem interruptFollowsDoneAndEnable : Obligations.InterruptFollowsDoneAndEnable := by
  refine ⟨fun _ => rfl, fun _ _ _ => exec_irq, fun s t v h => ?ctrl, fun s t v h => ?status, fun s t v hb h => ?cmd⟩
  case ctrl =>
    obtain rfl := h.unique (by decide) (hostWrites_reg .ctrl (.inr rfl) v)
    exact ⟨s.writeCtrl_irq v, s.writeCtrl_done v⟩
  case status =>
    obtain rfl := h.unique (by decide) (hostWrites_reg .status (.inr rfl) v)
    exact s.writeStatus_irq v
  case cmd =>
    obtain rfl := h.unique (by decide) (hostWrites_reg .cmd (.inl hb) v)
    exact s.startCommand_irq v

end Sys2Proof.Machine
end

section
/-! Reset and hazards (spec/70_reset_and_hazards.md): what reset leaves (R210, R216), the one refused port cycle (R217),
that every command completes (R211, R214), and the busy hazard (R212). -/

namespace Sys2Proof.Machine

section
variable {s t : State} {i : Instr} {c : PortCycle}

/-! ### Reset (R210, R216) -/

/-- A reset block is a fixed point of the reset cycle, whatever its sizes. -/
theorem applyReset_resetSized (symcap wordcap : Word) :
    (State.resetSized symcap wordcap).applyReset = State.resetSized symcap wordcap := rfl

theorem readsValue_id (hb : s.busy = false) : ReadsValue s 0x000 0x48554631#32 := readsValue_reg hb .id

/-! ### The refused port cycle (R217) -/

theorem portCycle_bothStrobes (hrst : c.rst = false) (hwe : c.we = true) (hre : c.re = true) (s : State) :
    portCycle c s = .refused .portConflict := by
  rw [portCycle, if_neg (by simp [hrst]), if_pos (by simp [hwe, hre])]

theorem portCycle_refused {r : Refusal} (h : portCycle c s = .refused r) :
    r = .portConflict ∧ c.rst = false ∧ c.we = true ∧ c.re = true := by
  rw [portCycle] at h
  split at h
  · cases h
  · rename_i hrst
    split at h
    · rename_i hboth
      obtain ⟨hwe, hre⟩ := Bool.and_eq_true_iff.1 hboth
      cases h
      exact ⟨rfl, Bool.eq_false_iff.2 hrst, hwe, hre⟩
    · exact absurd h (ite_ne_of nofun (ite_ne_of nofun nofun))

theorem engineTurn_not_refused (s : State) (r : Refusal) : engineTurn s ≠ .refused r := by
  rw [engineTurn, engineStep]
  refine ite_ne_of ?_ nofun
  cases decode s.cmd with
  | ok i => exact exec_not_refused i s r
  | error _ => exact nofun

/-! ### Completion (R211, R214) -/

/-- Every completion, of a success or of an error, clears BUSY (R182, R183). -/
theorem exec_busy (h : exec i s = .next t) : t.busy = false := by
  rcases exec_next h with ⟨d, -, rfl⟩ | ⟨e, info, -, rfl⟩ <;> rfl

/-- With the inputs of R211 specified, the elements whose absence BUILD, ENCODE and DECODE fault on are all there. -/
theorem body_ne_fault (h : s.Inv) (hin : InputsSpecified i s) (f : Fault) : body i s ≠ .error (.fault f) := by
  intro hb
  rcases body_fault h hb with ⟨rfl, k, hk, hnone, -⟩ | ⟨rfl, j, hj, hroom, hnone, -⟩ | ⟨rfl, ha, hword⟩
  · exact hin k hk hnone
  · exact hin j hj (by omega) hnone
  · obtain ⟨l, hl, hpayload⟩ := hin ha
    rcases hword with ⟨hnone, -⟩ | ⟨l', m, hl', hm, hroom, hnone, -⟩
    · exact absurd (hl.symm.trans hnone) nofun
    · obtain rfl : l = l' := Option.some_injective _ (hl.symm.trans hl')
      exact hpayload m hm (by omega) hnone

theorem exec_completes (h : s.Inv) (hin : InputsSpecified i s) : ∃ t, exec i s = .next t := by
  cases hx : exec i s with
  | next t => exact ⟨t, rfl⟩
  | fault f => exact absurd (exec_fault hx) (body_ne_fault h hin f)
  | refused r => exact absurd hx (exec_not_refused i s r)

/-! ### Host accesses while BUSY = 1 (R212) -/

/-- A register that may be read while BUSY = 1 reads as ever. -/
theorem readsValue_allowed {r : Reg} (h : readAllowedBusy (.reg r) = true) : ReadsValue s r.addr (s.readReg r) :=
  hostReads_of fun _ ha => by
    rw [State.hostRead, locate_addr ha, if_neg (by simp [h])]
    rfl

theorem hostReads_forbidden (hb : s.busy = true) {a : Nat} (ha : 2 < a) : HostReads s a s.drawRead.setHaz :=
  hostReads_of fun b hba => by
    have hforbidden : readAllowedBusy (s.locate b) = false := by
      rw [locate_allowed]
      exact decide_eq_false (by omega)
    rw [State.hostRead, if_pos (by simp [hb, hforbidden])]

/-- Of the locations that may be read while BUSY = 1, only ID may not be written. -/
theorem writeAllowedBusy_eq (l : Loc) : writeAllowedBusy l = (readAllowedBusy l && decide (l ≠ .reg .id)) := by
  cases l with
  | reg r => cases r <;> rfl
  | _ => rfl

/-- The only addresses of CTRL and STATUS are 1 and 2 (R61, register table). -/
theorem locate_writeForbidden {a : BitVec 18} (h1 : a.toNat ≠ 1) (h2 : a.toNat ≠ 2) :
    writeAllowedBusy (s.locate a) = false := by
  by_cases h0 : a.toNat = 0
  · rw [locate_addr (r := .id) h0]
    rfl
  · rw [writeAllowedBusy_eq, locate_allowed, decide_eq_false (by omega), Bool.false_and]

theorem hostWrites_forbidden (hb : s.busy = true) {a : Nat} (h1 : a ≠ 1) (h2 : a ≠ 2) (v : Word) :
    HostWrites s a v s.setHaz :=
  hostWrites_of fun b hba => by
    have hforbidden := locate_writeForbidden (s := s) (hba ▸ h1) (hba ▸ h2)
    rw [State.hostWrite, if_pos (by simp [hb, hforbidden])]

/-! ### The command in progress (R212) -/

/-- What a body leaves still has the registers that no command reads, as they stood at the start. -/
theorem body_keepsHost {d : Done} (h : body i s = .ok d) : d.withHost s = d := by
  have hself := body_withHost s s i
  rw [withHost_self, h] at hself
  exact (Except.ok.inj hself).symm

/-- `s` with the fields that accesses made while BUSY = 1 may have changed taken from `u`, DONE apart. -/
def State.withAccesses (s u : State) : State := { s with ie := u.ie, haz := u.haz, rdata := u.rdata, draws := u.draws }

/-- Accesses made while BUSY = 1 come out again at the command's end, but for DONE, which the completion sets. -/
theorem exec_withAccesses (h : exec i s = .next t) (u : State) :
    exec i { s.withAccesses u with done := u.done } = .next (t.withAccesses u) := by
  have hlaid : ({ s.withAccesses u with done := u.done } : State) =
      s.withHost { s.withAccesses u with done := u.done } := rfl
  rw [exec_eq, hlaid, body_withHost]
  rcases exec_next h with ⟨d, hbody, rfl⟩ | ⟨e, info, hbody, rfl⟩
  · rw [hbody, ← body_keepsHost hbody]
    rfl
  · rw [hbody]
    rfl

end

/-- Settles O7: a reset block is itself what a reset cycle leaves, and ID is the register at address 0. -/
theorem resetGivesEveryRegisterItsValue : Obligations.ResetGivesEveryRegisterItsValue :=
  ⟨fun symcap wordcap =>
    ⟨applyReset_resetSized symcap wordcap ▸ applyReset_afterReset _, rfl, rfl, readsValue_id rfl⟩,
    fun s _ hrst _ _ =>
    ⟨s.applyReset, portCycle_rst hrst s, applyReset_afterReset s, s.applyReset_symcap, s.applyReset_wordcap,
      readsValue_id rfl⟩⟩

/-- Settles O6: no command is refused, so a refused step is a port cycle, and that takes both strobes and no reset. -/
theorem onlyBothStrobesAreRefused : Obligations.OnlyBothStrobesAreRefused := by
  refine ⟨fun s _ hrst hwe hre => portCycle_bothStrobes hrst hwe hre s, fun s r hstep => ?_⟩
  cases hturns : s.turns with
  | nil => exact absurd (step_noTurns hturns ▸ hstep) (engineTurn_not_refused _ r)
  | cons turn ts =>
    cases turn with
    | engine => exact absurd (step_engine hturns ▸ hstep) (engineTurn_not_refused _ r)
    | port c =>
      obtain ⟨hr, hstrobes⟩ := portCycle_refused (step_port hturns ▸ hstep)
      exact ⟨hr, c, ts, rfl, hstrobes⟩

/-- Settles O47: a command that neither faults nor is refused completes. -/
theorem everyCommandCompletes : Obligations.EveryCommandCompletes := by
  intro i s h hin
  obtain ⟨t, ht⟩ := exec_completes h hin
  exact ⟨t, ht, exec_busy ht, exec_done ht⟩

/-- Settles O57: each access by what R212 says of its location, and the command by what no body reads or writes. That
`rdata` is held and the draws are counted is the model's choice (logs 6 and 4). -/
theorem busyAccessesOnlySetHaz : Obligations.BusyAccessesOnlySetHaz := by
  intro s hb
  rw [← ctrlWord_eq, ← statusWord_eq]
  refine ⟨⟨readsValue_allowed (r := .id) rfl, readsValue_allowed (r := .ctrl) rfl,
      readsValue_allowed (r := .status) rfl⟩,
    fun v => ⟨hostWrites_reg .ctrl (.inr rfl) v, hostWrites_reg .status (.inr rfl) v⟩,
    fun _ ha => hostReads_forbidden hb ha, fun _ v h1 h2 => hostWrites_forbidden hb h1 h2 v, ?_⟩
  intro i t ie done haz rdata draws h
  exact exec_withAccesses h { s with ie := ie, done := done, haz := haz, rdata := rdata, draws := draws }

end Sys2Proof.Machine
end
